-- ==== Sys2Proof/Word.lean ====
section
/-! DEFINITION. The data every rule speaks of: the byte (00_scope.md R8), the 16-bit command and response word
(R12, 20_memory.md R53), the two queue names (30_encoding.md R72) and the two command ports (R78). -/

namespace Sys2Proof

/-- The queue element, the DATA operand, and the byte at the sink or the source (00_scope.md R8). -/
abbrev Byte := BitVec 8

/-- A command word or a response value: one 16-bit unit with no byte order (00_scope.md R12, 20_memory.md R53). -/
abbrev Word := BitVec 16

/-- The two queue instances (10_state.md R20, R24). -/
inductive QueueSel where
  /-- the Receive Queue -/
  | rxq
  /-- the Transmit Queue -/
  | txq
deriving DecidableEq, Repr

/-- The two command ports, each one the issuing context of what arrives on it (30_encoding.md R78). -/
inductive Port where
  /-- P_MAIN, driven by main-line code; recorded as 0 in `fault_port` (10_state.md R30) -/
  | main
  /-- P_IRQ, driven by the interrupt context; recorded as 1 in `fault_port` -/
  | irq
deriving DecidableEq, Repr

end Sys2Proof
end

