-- ==== Sys2Proof/Syntax.lean ====
section
/-! DEFINITION. The thirteen commands of spec/opcode_table.json, one constructor a row (30_encoding.md R75). -/

namespace Sys2Proof

/-- A command with its operands: the queue operand `q` of formats QN and QD, the byte operand `b` of formats QD and D
(30_encoding.md R71 to R73). -/
inductive Instr where
  /-- QEMPTY q (40_queue.md R105) -/
  | qempty (q : QueueSel)
  /-- QFULL q (40_queue.md R106) -/
  | qfull (q : QueueSel)
  /-- QENQ q, b (40_queue.md R107) -/
  | qenq (q : QueueSel) (b : Byte)
  /-- QDEQ q (40_queue.md R108) -/
  | qdeq (q : QueueSel)
  /-- QRESET q (40_queue.md R109) -/
  | qreset (q : QueueSel)
  /-- SUBMITBYTE b (41_transmit.md R130) -/
  | submitByte (b : Byte)
  /-- ONREADYFORNEXT (41_transmit.md R132) -/
  | onReadyForNext
  /-- REINIT (42_facade.md R150) -/
  | reinit
  /-- RETRIEVEBYTE (42_facade.md R151) -/
  | retrieveByte
  /-- ONBYTERECEIVED b (42_facade.md R152) -/
  | onByteReceived (b : Byte)
  /-- TXSTATE (41_transmit.md R134) -/
  | txstate
  /-- STATUS (42_facade.md R153) -/
  | status
  /-- RXOVF (42_facade.md R154) -/
  | rxovf
deriving DecidableEq, Repr

end Sys2Proof
end

