-- ==== Sys2Proof/WellFormed.lean ====
section
/-! DEFINITION. The raw fields of a command word, the four operand formats and their must-be-zero checks
(30_encoding.md R70, R71, R74, R76). The operands of `Instr` have exact types, so every `Instr` is well formed; what can
be ill formed is a word's fields, and `Fields.wellFormed` refuses those. -/

namespace Sys2Proof

/-- The four fields of a command word (30_encoding.md R70). -/
structure Fields where
  /-- bits 15:12, the operation code -/
  op : BitVec 4
  /-- bits 11:9, reserved -/
  rsv : BitVec 3
  /-- bit 8, the queue select -/
  q : BitVec 1
  /-- bits 7:0, the byte operand -/
  data : Byte
deriving DecidableEq, Repr

/-- The operand formats (30_encoding.md R71). -/
inductive Format where
  /-- queue operand, no byte -/
  | qn
  /-- queue operand and byte -/
  | qd
  /-- byte only -/
  | d
  /-- no operand -/
  | n
deriving DecidableEq, Repr

/-- The format an operation code selects; none for the reserved codes 0x0, 0xE and 0xF (30_encoding.md R71, R75, R76). -/
def formatOf (op : BitVec 4) : Option Format :=
  match op.toNat with
  | 1 => some .qn
  | 2 => some .qn
  | 3 => some .qd
  | 4 => some .qn
  | 5 => some .qn
  | 6 => some .d
  | 7 => some .n
  | 8 => some .n
  | 9 => some .n
  | 10 => some .d
  | 11 => some .n
  | 12 => some .n
  | 13 => some .n
  | _ => none

/-- RSV must be 000 (30_encoding.md R70). -/
def Fields.rsvZero (f : Fields) : Bool := f.rsv == 0

/-- Q must be 0 in formats D and N (30_encoding.md R71, R74). -/
def Fields.queueLegal (f : Fields) : Bool :=
  match formatOf f.op with
  | some .d => f.q == 0
  | some .n => f.q == 0
  | _ => true

/-- DATA must be 0x00 in formats QN and N (30_encoding.md R71, R74). -/
def Fields.dataLegal (f : Fields) : Bool :=
  match formatOf f.op with
  | some .qn => f.data == 0
  | some .n => f.data == 0
  | _ => true

/-- The fields of a word that encodes a command: an assigned operation code and every must-be-zero field zero
(30_encoding.md R74, R76). -/
def Fields.wellFormed (f : Fields) : Bool :=
  (formatOf f.op).isSome && f.rsvZero && f.queueLegal && f.dataLegal

/-- The Q bit that names a queue (30_encoding.md R72). -/
def QueueSel.bit : QueueSel → BitVec 1
  | .rxq => 0
  | .txq => 1

/-- The fields that encode a command (30_encoding.md R70, R71, R75). -/
def Instr.fields : Instr → Fields
  | .qempty q => ⟨0x1, 0, q.bit, 0⟩
  | .qfull q => ⟨0x2, 0, q.bit, 0⟩
  | .qenq q b => ⟨0x3, 0, q.bit, b⟩
  | .qdeq q => ⟨0x4, 0, q.bit, 0⟩
  | .qreset q => ⟨0x5, 0, q.bit, 0⟩
  | .submitByte b => ⟨0x6, 0, 0, b⟩
  | .onReadyForNext => ⟨0x7, 0, 0, 0⟩
  | .reinit => ⟨0x8, 0, 0, 0⟩
  | .retrieveByte => ⟨0x9, 0, 0, 0⟩
  | .onByteReceived b => ⟨0xA, 0, 0, b⟩
  | .txstate => ⟨0xB, 0, 0, 0⟩
  | .status => ⟨0xC, 0, 0, 0⟩
  | .rxovf => ⟨0xD, 0, 0, 0⟩

/-- An instruction is well formed when its fields are. -/
def Instr.wellFormed (i : Instr) : Bool := i.fields.wellFormed

end Sys2Proof
end

