-- ==== Sys2Proof/Decode.lean ====
section
/-! DEFINITION. The decoder, written from the match and mask table of 30_encoding.md R75 as R82 prescribes, and after it
the encoder, written from the field layout of R70 and R71. -/

namespace Sys2Proof

/-- A row of the opcode table: a word decodes as the row exactly when `w &&& mask = pattern` (30_encoding.md R75). -/
structure OpcodeRow where
  /-- the `match` column -/
  pattern : Word
  /-- the `mask` column -/
  mask : Word
  /-- the command, given its operands -/
  build : QueueSel → Byte → Instr

/-- The queue operand `w[8]` (30_encoding.md R72). -/
def queueOperand (w : Word) : QueueSel := if w.extractLsb' 8 1 = 0 then .rxq else .txq

/-- The byte operand `w[7:0]` (30_encoding.md R73). -/
def byteOperand (w : Word) : Byte := w.extractLsb' 0 8

/-- The opcode table (30_encoding.md R75). -/
def opcodeTable : List OpcodeRow :=
  [ ⟨0x1000, 0xFEFF, fun q _ => .qempty q⟩,
    ⟨0x2000, 0xFEFF, fun q _ => .qfull q⟩,
    ⟨0x3000, 0xFE00, fun q b => .qenq q b⟩,
    ⟨0x4000, 0xFEFF, fun q _ => .qdeq q⟩,
    ⟨0x5000, 0xFEFF, fun q _ => .qreset q⟩,
    ⟨0x6000, 0xFF00, fun _ b => .submitByte b⟩,
    ⟨0x7000, 0xFFFF, fun _ _ => .onReadyForNext⟩,
    ⟨0x8000, 0xFFFF, fun _ _ => .reinit⟩,
    ⟨0x9000, 0xFFFF, fun _ _ => .retrieveByte⟩,
    ⟨0xA000, 0xFF00, fun _ b => .onByteReceived b⟩,
    ⟨0xB000, 0xFFFF, fun _ _ => .txstate⟩,
    ⟨0xC000, 0xFFFF, fun _ _ => .status⟩,
    ⟨0xD000, 0xFFFF, fun _ _ => .rxovf⟩ ]

/-- Whether a word matches a row (30_encoding.md R75). -/
def OpcodeRow.hits (w : Word) (r : OpcodeRow) : Bool := w &&& r.mask == r.pattern

/-- What decoding a word gives (30_encoding.md R82). -/
inductive Decoded where
  /-- a command with its operands -/
  | cmd (i : Instr)
  /-- a reserved word, which raises F_RESERVED when presented (R76, R84) -/
  | reserved
deriving DecidableEq, Repr

/-- Decoding, total on all 65536 words: the one row the word matches, or Reserved (30_encoding.md R82). -/
def decode (w : Word) : Decoded :=
  match opcodeTable.find? (OpcodeRow.hits w) with
  | some r => .cmd (r.build (queueOperand w) (byteOperand w))
  | none => .reserved

/-- The word laid out from its fields, OP in the high bits (30_encoding.md R70, 00_scope.md R12). -/
def Fields.toWord (f : Fields) : Word := f.op ++ f.rsv ++ f.q ++ f.data

/-- The fields of a word (30_encoding.md R70). -/
def Fields.ofWord (w : Word) : Fields :=
  ⟨w.extractLsb' 12 4, w.extractLsb' 9 3, w.extractLsb' 8 1, w.extractLsb' 0 8⟩

/-- The command word of an instruction (30_encoding.md R70, R71, R75). -/
def encode (i : Instr) : Word := i.fields.toWord

/-- The instruction the decoder reads from the bits `w` of a table row that gives `nbits` bits. A command is one 16-bit
unit with no byte order (20_memory.md R53, 30_encoding.md R83; log 18), so the table's bit numbers are the word's; bits the row
does not give are 0; a row wider than one word is no command. -/
def decodeTableWord (nbits w : Nat) : Option Instr :=
  if nbits ≤ 16 then
    match decode (BitVec.ofNat 16 (w % 2 ^ nbits)) with
    | .cmd i => some i
    | .reserved => none
  else none

end Sys2Proof
end

