-- ==== Sys2Proof/Config.lean ====
section
/-! DEFINITION. What the spec leaves to an implementation or to chance: the OPEN parameters CAP_RX, CAP_TX (00_scope.md
R6) and PORT_PLACEMENT (20_memory.md R56), and the free order of transitions (20_memory.md R58). Each is a constant with
no body, so no proof can lean on a value of it. -/

namespace Sys2Proof

/-- Who takes a transition. The execution is one total order of these, never overlapping (20_memory.md R57). -/
inductive Turn where
  /-- a command of the main-line program on P_MAIN (60_exceptions.md R190) -/
  | mainline
  /-- the TX bridge handler (60_exceptions.md R187) -/
  | irqTx
  /-- the RX bridge handler (60_exceptions.md R188) -/
  | irqRx
  /-- the transceiver completes the outstanding byte (60_exceptions.md R195) -/
  | txComplete
  /-- the transceiver delivers the next byte of the line (60_exceptions.md R196) -/
  | rxDeliver
  /-- a command of the component harness on P_IRQ (60_exceptions.md R186) -/
  | irqHarness
deriving DecidableEq, Repr, Inhabited

/-- Every agent. -/
def Turn.all : List Turn := [.mainline, .irqTx, .irqRx, .txComplete, .rxDeliver, .irqHarness]

/-- OPEN: CAP_RX - 1, the highest slot number of RXQ. Storing it this way leaves no instance with CAP_RX = 0
(00_scope.md R6, R7; DESIGN CHOICE of form, log 1). -/
opaque Config.topSlotRx : Nat

/-- OPEN: CAP_TX - 1, the highest slot number of TXQ (00_scope.md R6, R7; log 1). -/
opaque Config.topSlotTx : Nat

/-- FREE: who moves at the n-th transition of a run, where `State.schedule` does not fix it. The spec leaves the order
of commands, handlers and transceiver events free (20_memory.md R58, 60_exceptions.md R189, R195; DESIGN CHOICE of form,
log 5). -/
opaque Config.freeTurn (tick : Nat) : Turn

/-- OPEN: where a platform places a port in its address space. No rule depends on it, and nothing here reads it
(20_memory.md R56; log 15). -/
opaque Config.portPlacement (p : Port) : Nat

end Sys2Proof
end

