-- ==== Sys2Proof/Machine/State.lean ====
section
/-! DEFINITION. The state: the block registers of 10_state.md R20, the boundary state of R34, the agents of
60_exceptions.md, and the reasons a step can stop. -/

namespace Sys2Proof.Machine

/-- Byte storage: (slot, byte) pairs, slots strictly rising, no pair holding the byte an unlisted slot reads as
(`Memory.unlisted`, in Machine/Ops.lean). -/
abbrev Memory := List Host.Cell

/-- A queue instance (10_state.md R21); its indices and count are natural numbers, as 00_scope.md R11 admits (log 17). -/
structure Queue where
  /-- CAP(q) - 1, the highest slot number; fixed for the life of the instance (00_scope.md R6, R7) -/
  topSlot : Nat
  /-- `buf`, the storage: slots 0 to `topSlot` -/
  buf : Memory
  /-- the read index -/
  rd : Nat
  /-- the write index -/
  wr : Nat
  /-- the element count -/
  cnt : Nat
deriving DecidableEq, Repr

/-- The transmission state (10_state.md R26, R27). -/
inductive TxState where
  /-- encoded 0 -/
  | idle
  /-- encoded 1 -/
  | busy
deriving DecidableEq, Repr

/-- A response pair (30_encoding.md R77). -/
structure Response where
  err : Bool
  value : Word
deriving DecidableEq, Repr

/-- The two configurations (60_exceptions.md R186). -/
inductive Configuration where
  /-- P_IRQ is driven only by the bridge handlers, and the transceiver runs -/
  | system
  /-- a harness drives both ports, and the transceiver does not run -/
  | component
deriving DecidableEq, Repr

/-- An agent that presents a list of command words on one port, in order, and records the responses
(60_exceptions.md R190). -/
structure CommandSource where
  prog : List Word
  /-- the index of the next command; it advances when a command completes and stays while it holds -/
  idx : Nat
  /-- the response of each completed command, in order -/
  responses : List Response
deriving DecidableEq, Repr

/-- Everything the machine and its boundary hold. -/
structure State where
  /-- RXQ (10_state.md R20, R21) -/
  rxq : Queue
  /-- TXQ (R20, R21) -/
  txq : Queue
  /-- `tx_state` (R26) -/
  txState : TxState
  /-- `init_done` (R28) -/
  initDone : Bool
  /-- `rx_ovf_cnt` (R29) -/
  rxOvfCnt : Word
  /-- `fault_code` (R30) -/
  faultCode : BitVec 4
  /-- `fault_port` (R30) -/
  faultPort : Port
  /-- `fault_word` (R30) -/
  faultWord : Word
  /-- `tx_shift`: the byte the transmitter is shifting out (R34) -/
  txShift : Option Byte
  /-- `tx_ready_pending` (R34) -/
  txReadyPending : Bool
  /-- `rx_pending`: a byte waiting in the transceiver (R34) -/
  rxPending : Option Byte
  /-- `wire_out`: every byte handed to the sink, in order (R34) -/
  wireOut : List Byte
  /-- `wire_in`: the bytes the line will deliver, in order (R34) -/
  wireIn : List Byte
  /-- `irq_enabled` (R34) -/
  irqEnabled : Bool
  /-- the configuration of the run (60_exceptions.md R186) -/
  config : Configuration
  /-- the main-line agent on P_MAIN (R190) -/
  mainline : CommandSource
  /-- the component harness on P_IRQ (R186) -/
  irqHarness : CommandSource
  /-- the port of the command being executed; P_MAIN between transitions (30_encoding.md R78, 60_exceptions.md R189, R191) -/
  context : Port
  /-- the response of the latest command; none while it holds (30_encoding.md R77) -/
  response : Option Response
  /-- the model's own: the turns still fixed in advance, first one next (20_memory.md R58; log 5) -/
  schedule : List Turn
  /-- the model's own: how many turns have been taken, the argument of `Config.freeTurn` (log 5) -/
  tick : Nat
deriving DecidableEq, Repr

/-- Why the machine stops. The recorded faults of 60_exceptions.md R180 are not here: they are next states. -/
inductive Fault where
  /-- An access to a slot that does not exist. Raised by `Queue.enqueue` and `Queue.dequeue` when an index is outside
  0 .. CAP-1, which no rule can bring about (20_memory.md R51). Safe (log 4). -/
  | slotOutOfRange
  /-- No agent has a step and the run has not ended well: a hold that nothing lifts, or a faulted system run. Raised by
  `step` (60_exceptions.md R198; 93_implementation_defined.md U12, U13). Safe (log 7). -/
  | stuck
deriving DecidableEq, Repr

/-- Why the machine has no meaning for an instruction. -/
inductive Refusal where
  /-- The instruction has no meaning yet. Raised by an arm of `exec` alone. Safe. -/
  | notModelled (mnemonic : String)
deriving DecidableEq, Repr

/-- A queue before the first REINIT: capacity as given, every other field unspecified by the spec
(70_reset_and_hazards.md R230) and named zero here (DESIGN CHOICE, log 2 and 3). -/
def Queue.powerOn (topSlot : Nat) : Queue :=
  { topSlot := topSlot, buf := [], rd := 0, wr := 0, cnt := 0 }

/-- An agent with nothing to present. -/
def CommandSource.empty : CommandSource := { prog := [], idx := 0, responses := [] }

/-- Power-on of an instance with the given capacities (70_reset_and_hazards.md R230). The spec fixes `initDone`,
`faultCode` and the boundary state; the values of the unspecified registers are DESIGN CHOICE (log 2), the parameters of
the run (line, interrupt enable, programs, configuration, schedule) are DESIGN CHOICE (log 5, 12). -/
def State.powerOn (topSlotRx topSlotTx : Nat) : State :=
  { rxq := Queue.powerOn topSlotRx
    txq := Queue.powerOn topSlotTx
    txState := .idle
    initDone := false
    rxOvfCnt := 0
    faultCode := 0
    faultPort := .main
    faultWord := 0
    txShift := none
    txReadyPending := false
    rxPending := none
    wireOut := []
    wireIn := []
    irqEnabled := true
    config := .system
    mainline := CommandSource.empty
    irqHarness := CommandSource.empty
    context := .main
    response := none
    schedule := []
    tick := 0 }

/-- The machine right after power-on reset, with the instance's own capacities (70_reset_and_hazards.md R230). -/
def State.reset : State := State.powerOn Config.topSlotRx Config.topSlotTx

end Sys2Proof.Machine
end

