-- ==== Sys2Proof/Machine/Ops.lean ====
section
/-! DEFINITION. The operations every rule shares: storage (00_scope.md R13), responses (30_encoding.md R77), raising a
recorded fault (60_exceptions.md R181), entering and leaving a context (R189, R191), holding (R190), the transmit sink
(41_transmit.md R135), the permission table (30_encoding.md R79) and the prologue of every command (R84). -/

namespace Sys2Proof.Machine

/-! Storage -/

/-- What a slot nothing has written reads as. The spec gives no value and no command observes it (20_memory.md R52,
70_reset_and_hazards.md R230); DESIGN CHOICE, unsafe (log 3). -/
def Memory.unlisted : Byte := 0

/-- The byte at a slot. -/
def Memory.read : Memory → Nat → Byte
  | [], _ => Memory.unlisted
  | (k, v) :: rest, a => if k = a then v else Memory.read rest a

/-- The cell list of a slot holding a byte, put before the rest: nothing when the byte is the unlisted one. -/
def Memory.cell (a : Nat) (v : Byte) (rest : Memory) : Memory :=
  if v = Memory.unlisted then rest else (a, v) :: rest

/-- Write a byte at a slot, keeping the canonical form. -/
def Memory.write : Memory → Nat → Byte → Memory
  | [], a, v => Memory.cell a v []
  | (k, w) :: rest, a, v =>
    if a < k then Memory.cell a v ((k, w) :: rest)
    else if a = k then Memory.cell a v rest
    else (k, w) :: Memory.write rest a v

/-- Canonical form from slot `lo` on: slots rising, no cell holding the unlisted byte. -/
def Memory.wfFrom : Nat → Memory → Bool
  | _, [] => true
  | lo, (k, v) :: rest => decide (lo ≤ k) && decide (v ≠ Memory.unlisted) && Memory.wfFrom (k + 1) rest

/-- The canonical form of storage. -/
def Memory.wf (m : Memory) : Bool := Memory.wfFrom 0 m

/-- CAP(q) (00_scope.md R6, R13). -/
def Queue.cap (q : Queue) : Nat := q.topSlot + 1

/-- `MemRead(q.buf, i, 1)`; none when the slot does not exist (00_scope.md R13, 20_memory.md R51). -/
def Queue.memRead (q : Queue) (i : Nat) : Option Byte :=
  if i ≤ q.topSlot then some (Memory.read q.buf i) else none

/-- `MemWrite(q.buf, i, 1, v)`; none when the slot does not exist (00_scope.md R13, 20_memory.md R51). -/
def Queue.memWrite (q : Queue) (i : Nat) (v : Byte) : Option Memory :=
  if i ≤ q.topSlot then some (Memory.write q.buf i v) else none

/-! Responses, holding, contexts -/

/-- Complete the command with `(err = 0, value = v)` (00_scope.md R13). -/
def State.respond (v : Word) (s : State) : State := { s with response := some ⟨false, v⟩ }

/-- Complete the command with `(err = 1, value = 0x0000)` (00_scope.md R13). -/
def State.respondErr (s : State) : State := { s with response := some ⟨true, 0⟩ }

/-- End the command without completing it: nothing is written and there is no response (00_scope.md R13,
60_exceptions.md R190; the absent response is log 10). -/
def State.hold (s : State) : State := { s with response := none }

/-- Issue from a port: the context that executes from here on (30_encoding.md R78, 60_exceptions.md R189). Nothing of the
other context is saved or changed. -/
def State.enter (p : Port) (s : State) : State := { s with context := p }

/-- Leave the context, back to main-line code; nothing is restored because nothing was saved (60_exceptions.md R191). -/
def State.leave (s : State) : State := { s with context := .main }

/-! Raising a fault -/

/-- The causes of a recorded fault (60_exceptions.md R180). -/
inductive FaultCause where
  /-- F_RESERVED -/
  | reserved
  /-- F_CONTEXT -/
  | context
  /-- F_NOT_INIT -/
  | notInit
  /-- F_QUEUE_FULL -/
  | queueFull
  /-- F_QUEUE_EMPTY -/
  | queueEmpty
  /-- F_SINK_OVERRUN -/
  | sinkOverrun
deriving DecidableEq, Repr

/-- The codes; 7 to 15 are reserved and never produced (60_exceptions.md R180). -/
def FaultCause.code : FaultCause → BitVec 4
  | .reserved => 1
  | .context => 2
  | .notInit => 3
  | .queueFull => 4
  | .queueEmpty => 5
  | .sinkOverrun => 6

/-- `raise Fault(code)` in a command presented as word `w` on the current port: the first fault is recorded with its port
and word, and the command completes with an error response (60_exceptions.md R181). -/
def State.raise (c : FaultCause) (w : Word) (s : State) : State :=
  { s with
    faultCode := if s.faultCode = 0 then c.code else s.faultCode
    faultPort := if s.faultCode = 0 then s.context else s.faultPort
    faultWord := if s.faultCode = 0 then w else s.faultWord
    response := some ⟨true, 0⟩ }

/-! Outcomes -/

/-- What a command or a step answers. -/
abbrev Result := Host.Outcome State Fault Refusal

/-- Go on with the next state; a stop stays a stop. -/
def Result.andThen (r : Result) (f : State → Result) : Result :=
  match r with
  | .next s => f s
  | .fault e => .fault e
  | .refused e => .refused e

/-- The next state of a storage operation, or the stop for a slot that does not exist (20_memory.md R51; log 4). -/
def ofStorage (o : Option State) : Result :=
  match o with
  | some s => .next s
  | none => .fault .slotOutOfRange

/-! The transmit sink -/

/-- `SinkWrite(b)` when it does not raise; none when a byte is outstanding, where the caller raises F_SINK_OVERRUN before
any write (41_transmit.md R135). -/
def State.sinkWrite (b : Byte) (s : State) : Option State :=
  match s.txShift with
  | some _ => none
  | none => some { s with txShift := some b, wireOut := s.wireOut ++ [b] }

/-! The prologue -/

/-- The port permissions (30_encoding.md R79). -/
def permitted : Port → Instr → Bool
  | _, .qempty _ => true
  | _, .qfull _ => true
  | .irq, .qenq .rxq _ => true
  | .main, .qenq .rxq _ => false
  | .main, .qenq .txq _ => true
  | .irq, .qenq .txq _ => false
  | .main, .qdeq .rxq => true
  | .irq, .qdeq .rxq => false
  | .irq, .qdeq .txq => true
  | .main, .qdeq .txq => false
  | p, .qreset _ => p == .main
  | p, .submitByte _ => p == .main
  | p, .onReadyForNext => p == .irq
  | p, .reinit => p == .main
  | p, .retrieveByte => p == .main
  | p, .onByteReceived _ => p == .irq
  | _, .txstate => true
  | _, .status => true
  | _, .rxovf => true

/-- REINIT and STATUS alone are exempt from F_NOT_INIT (30_encoding.md R84, 10_state.md R28). -/
def initExempt : Instr → Bool
  | .qempty _ => false
  | .qfull _ => false
  | .qenq _ _ => false
  | .qdeq _ => false
  | .qreset _ => false
  | .submitByte _ => false
  | .onReadyForNext => false
  | .reinit => true
  | .retrieveByte => false
  | .onByteReceived _ => false
  | .txstate => false
  | .status => true
  | .rxovf => false

/-- Execution of a decoded command on the current port: refused by a faulted block unless it is STATUS (60_exceptions.md
R182), then the permission check, then the initialisation check, then the command's own rule (30_encoding.md R84). The
word recorded by a fault is the command's one encoding (log 19). -/
def prologue (i : Instr) (s : State) (body : State → Result) : Result :=
  if s.faultCode ≠ 0 then
    if i = .status then body s else .next s.respondErr
  else if permitted s.context i = false then .next (s.raise .context (encode i))
  else if s.initDone = false ∧ initExempt i = false then .next (s.raise .notInit (encode i))
  else body s

end Sys2Proof.Machine
end

