-- ==== Sys2Proof/Machine/Operands.lean ====
section
/-! DEFINITION. The queue operand as a register file of two queues (30_encoding.md R72), the queue helpers of
40_queue.md R101 to R103, and the response encodings of 30_encoding.md R77. -/

namespace Sys2Proof.Machine

/-- The queue an operand names (30_encoding.md R72). -/
def State.queue (s : State) : QueueSel → Queue
  | .rxq => s.rxq
  | .txq => s.txq

/-- Replace the queue an operand names. -/
def State.setQueue (sel : QueueSel) (q : Queue) (s : State) : State :=
  match sel with
  | .rxq => { s with rxq := q }
  | .txq => { s with txq := q }

/-- The index advance `(x + 1) mod CAP(q)` (00_scope.md R15). -/
def Queue.advance (q : Queue) (x : Nat) : Nat := (x + 1) % q.cap

/-- `QEnqueue(q, v)` under its precondition; none when the write slot does not exist (40_queue.md R101). -/
def Queue.enqueue (q : Queue) (v : Byte) : Option Queue :=
  match q.memWrite q.wr v with
  | some buf => some { q with buf := buf, wr := q.advance q.wr, cnt := q.cnt + 1 }
  | none => none

/-- `QDequeue(q)` under its precondition; none when the read slot does not exist (40_queue.md R102). -/
def Queue.dequeue (q : Queue) : Option (Byte × Queue) :=
  match q.memRead q.rd with
  | some v => some (v, { q with rd := q.advance q.rd, cnt := q.cnt - 1 })
  | none => none

/-- `QResetFields(q)`: both indices to slot 0 and no elements; the storage stays (40_queue.md R103). -/
def Queue.resetFields (q : Queue) : Queue := { q with rd := 0, wr := 0, cnt := 0 }

/-- Enqueue a byte into the queue an operand names. -/
def State.enqueue (sel : QueueSel) (v : Byte) (s : State) : Option State :=
  match (s.queue sel).enqueue v with
  | some q => some (s.setQueue sel q)
  | none => none

/-- Dequeue a byte from the queue an operand names. -/
def State.dequeue (sel : QueueSel) (s : State) : Option (Byte × State) :=
  match (s.queue sel).dequeue with
  | some (v, q) => some (v, s.setQueue sel q)
  | none => none

/-- Reset the fields of the queue an operand names. -/
def State.resetQueue (sel : QueueSel) (s : State) : State := s.setQueue sel (s.queue sel).resetFields

/-- Result kind BOOL (30_encoding.md R77). -/
def boolValue (b : Bool) : Word := if b then 0x0001 else 0x0000

/-- Result kind BYTE: bit 8 set, the byte in bits 7:0 (30_encoding.md R77). -/
def byteValue (b : Byte) : Word := 0x0100 ||| b.setWidth 16

/-- Result kind STATE: Idle 0x0000, Busy 0x0001 (30_encoding.md R77, 10_state.md R26). -/
def stateValue (t : TxState) : Word :=
  match t with
  | .idle => 0x0000
  | .busy => 0x0001

end Sys2Proof.Machine
end

