-- ==== Sys2Proof/Machine/Flags.lean ====
section
/-! DEFINITION. The queue predicates (40_queue.md R104), the saturating overflow counter (10_state.md R29) and the STATUS
view (10_state.md R31). CQTX has no condition flags (00_scope.md R15). -/

namespace Sys2Proof.Machine

/-- `IsEmpty(q)` (40_queue.md R104). -/
def Queue.isEmpty (q : Queue) : Bool := q.cnt == 0

/-- `IsFull(q)` (40_queue.md R104). -/
def Queue.isFull (q : Queue) : Bool := q.cnt == q.cap

/-- `sat16(x + 1)` of a 16-bit counter: exact sum, then at most 0xFFFF (00_scope.md R12, R15, 10_state.md R29). -/
def satSucc (c : Word) : Word := BitVec.ofNat 16 (min (c.toNat + 1) 0xFFFF)

/-- A STATUS bit that reads 0 before the first REINIT (10_state.md R31). -/
def State.maskedBit (s : State) (b : Bool) : BitVec 1 := BitVec.ofBool (s.initDone && b)

/-- The STATUS view, bit 15 first: reserved 15:12, FAULT_CODE 11:8, FAULTED, RX_OVF, INIT_DONE, TX_BUSY, TXQ_FULL,
TXQ_EMPTY, RXQ_FULL, RXQ_EMPTY (10_state.md R31, 42_facade.md R153). -/
def State.statusView (s : State) : Word :=
  (0 : BitVec 4) ++ s.faultCode ++ BitVec.ofBool (s.faultCode != 0) ++ s.maskedBit (s.rxOvfCnt != 0) ++ s.maskedBit true
    ++ s.maskedBit (s.txState == .busy) ++ s.maskedBit s.txq.isFull ++ s.maskedBit s.txq.isEmpty
    ++ s.maskedBit s.rxq.isFull ++ s.maskedBit s.rxq.isEmpty

end Sys2Proof.Machine
end

