-- ==== Sys2Proof/Machine/FacadeCommands.lean ====
section
/-! DEFINITION. The driver facade's commands and the added reads (42_facade.md R150 to R154). -/

namespace Sys2Proof.Machine

/-- REINIT (42_facade.md R150): storage, fault registers and boundary state stay as they are. -/
def execReinit (s : State) : Result :=
  prologue .reinit s fun s =>
    .next (State.respond 0x0000
      { (s.resetQueue .rxq).resetQueue .txq with txState := .idle, rxOvfCnt := 0, initDone := true })

/-- RETRIEVEBYTE (42_facade.md R151): holds while RXQ is empty. -/
def execRetrieveByte (s : State) : Result :=
  prologue .retrieveByte s fun s =>
    if s.rxq.isEmpty then .next s.hold
    else ofStorage ((s.dequeue .rxq).map fun (v, t) => t.respond (byteValue v))

/-- ONBYTERECEIVED b (42_facade.md R152): a full RXQ drops the newest byte and counts it, saturating (00_scope.md R9,
60_exceptions.md R200). -/
def execOnByteReceived (b : Byte) (s : State) : Result :=
  prologue (.onByteReceived b) s fun s =>
    if s.rxq.isFull then .next (State.respond (boolValue true) { s with rxOvfCnt := satSucc s.rxOvfCnt })
    else ofStorage ((s.enqueue .rxq b).map (State.respond (boolValue false)))

/-- STATUS (42_facade.md R153): runs on a faulted block and before the first REINIT. -/
def execStatus (s : State) : Result :=
  prologue .status s fun s => .next (s.respond s.statusView)

/-- RXOVF (42_facade.md R154). -/
def execRxovf (s : State) : Result :=
  prologue .rxovf s fun s => .next (s.respond s.rxOvfCnt)

end Sys2Proof.Machine
end

