-- ==== Sys2Proof/Machine/QueueCommands.lean ====
section
/-! DEFINITION. The circular queue commands (40_queue.md R105 to R109). -/

namespace Sys2Proof.Machine

/-- QEMPTY q (40_queue.md R105). -/
def execQempty (q : QueueSel) (s : State) : Result :=
  prologue (.qempty q) s fun s => .next (s.respond (boolValue (s.queue q).isEmpty))

/-- QFULL q (40_queue.md R106). -/
def execQfull (q : QueueSel) (s : State) : Result :=
  prologue (.qfull q) s fun s => .next (s.respond (boolValue (s.queue q).isFull))

/-- QENQ q, b (40_queue.md R107). -/
def execQenq (q : QueueSel) (b : Byte) (s : State) : Result :=
  prologue (.qenq q b) s fun s =>
    if (s.queue q).isFull then .next (s.raise .queueFull (encode (.qenq q b)))
    else ofStorage ((s.enqueue q b).map (State.respond 0x0000))

/-- QDEQ q (40_queue.md R108). -/
def execQdeq (q : QueueSel) (s : State) : Result :=
  prologue (.qdeq q) s fun s =>
    if (s.queue q).isEmpty then .next (s.raise .queueEmpty (encode (.qdeq q)))
    else ofStorage ((s.dequeue q).map fun (v, t) => t.respond (byteValue v))

/-- QRESET q (40_queue.md R109). -/
def execQreset (q : QueueSel) (s : State) : Result :=
  prologue (.qreset q) s fun s => .next ((s.resetQueue q).respond 0x0000)

end Sys2Proof.Machine
end

