-- ==== Sys2Proof/Machine/TransmitCommands.lean ====
section
/-! DEFINITION. The transmission state machine's commands (41_transmit.md R130 to R134). -/

namespace Sys2Proof.Machine

/-- SUBMITBYTE b (41_transmit.md R130): Idle writes the sink, Busy enqueues, Busy with TXQ full holds. A held command runs
again as a whole (R131). -/
def execSubmitByte (b : Byte) (s : State) : Result :=
  prologue (.submitByte b) s fun s =>
    match s.txState with
    | .idle =>
      match s.sinkWrite b with
      | none => .next (s.raise .sinkOverrun (encode (.submitByte b)))
      | some t => .next (State.respond 0x0000 { t with txState := .busy })
    | .busy =>
      if s.txq.isFull then .next s.hold
      else ofStorage ((s.enqueue .txq b).map (State.respond 0x0000))

/-- ONREADYFORNEXT (41_transmit.md R132): the emptiness test and the dequeue are one transition (R133). -/
def execOnReadyForNext (s : State) : Result :=
  prologue .onReadyForNext s fun s =>
    if s.txq.isEmpty then .next (State.respond 0x0000 { s with txState := .idle })
    else ofStorage ((s.dequeue .txq).map fun (v, t) => State.respond (byteValue v) { t with txState := .busy })

/-- TXSTATE (41_transmit.md R134). -/
def execTxstate (s : State) : Result :=
  prologue .txstate s fun s => .next (s.respond (stateValue s.txState))

end Sys2Proof.Machine
end

