-- ==== Sys2Proof/Machine/Dispatch.lean ====
section
/-! DEFINITION. The meaning of every instruction, one arm a constructor. -/

namespace Sys2Proof.Machine

/-- A decoded command presented on the port `s.context` (30_encoding.md R84). -/
def exec (i : Instr) (s : State) : Host.Outcome State Fault Refusal :=
  match i with
  | .qempty q => Sys2Proof.Machine.execQempty q s
  | .qfull q => Sys2Proof.Machine.execQfull q s
  | .qenq q b => Sys2Proof.Machine.execQenq q b s
  | .qdeq q => Sys2Proof.Machine.execQdeq q s
  | .qreset q => Sys2Proof.Machine.execQreset q s
  | .submitByte b => Sys2Proof.Machine.execSubmitByte b s
  | .onReadyForNext => Sys2Proof.Machine.execOnReadyForNext s
  | .reinit => Sys2Proof.Machine.execReinit s
  | .retrieveByte => Sys2Proof.Machine.execRetrieveByte s
  | .onByteReceived b => Sys2Proof.Machine.execOnByteReceived b s
  | .txstate => Sys2Proof.Machine.execTxstate s
  | .status => Sys2Proof.Machine.execStatus s
  | .rxovf => Sys2Proof.Machine.execRxovf s

end Sys2Proof.Machine
end

