-- ==== Sys2Proof/Machine/Agents.lean ====
section
/-! DEFINITION. The agents of 60_exceptions.md: a command presented on a port (30_encoding.md R84), the main-line agent
(R190), the bridge handlers (R187, R188), the transceiver (R195, R196), the component harness (R186), which of them has a
step (R198), and whose turn it is (20_memory.md R58). -/

namespace Sys2Proof.Machine

/-- Execute a command word on the current port; a reserved word raises F_RESERVED, or is refused by a faulted block
(30_encoding.md R84, where `State.raise` records only the first fault). -/
def executeWord (w : Word) (s : State) : Result :=
  match decode w with
  | .cmd i => exec i s
  | .reserved => .next (s.raise .reserved w)

/-- `Execute(p, w)`: a command word presented on a port (30_encoding.md R84). -/
def execute (p : Port) (w : Word) (s : State) : Result := executeWord w (s.enter p)

/-- The word an agent presents next. -/
def CommandSource.current (c : CommandSource) : Option Word := c.prog[c.idx]?

/-- Record the response of a completed command and advance the index; a held command stays where it is
(60_exceptions.md R190, 10_state.md R33). -/
def CommandSource.complete (c : CommandSource) (r : Option Response) : CommandSource :=
  match r with
  | some r => { c with idx := c.idx + 1, responses := c.responses ++ [r] }
  | none => c

/-- Whether a word presented on P_MAIN would hold now (60_exceptions.md R190). -/
def State.wouldHold (w : Word) (s : State) : Bool :=
  match execute .main w s with
  | .next t => t.response.isNone
  | .fault _ => false
  | .refused _ => false

/-- The main-line step (60_exceptions.md R190). -/
def mainStep (s : State) : Result :=
  match s.mainline.current with
  | none => .next s
  | some w =>
    Result.andThen (execute .main w s) fun t =>
      .next { t.leave with mainline := t.mainline.complete t.response }

/-- The component harness presents its next command on P_IRQ (60_exceptions.md R186). -/
def harnessStep (s : State) : Result :=
  match s.irqHarness.current with
  | none => .next s
  | some w =>
    Result.andThen (execute .irq w s) fun t =>
      .next { t.leave with irqHarness := t.irqHarness.complete t.response }

/-- The byte a response hands to the bridge: `err = 0` and bit 8 set (60_exceptions.md R187). -/
def Response.byte? (r : Option Response) : Option Byte :=
  match r with
  | some r => if r.err = false ∧ r.value.getLsbD 8 = true then some (byteOperand r.value) else none
  | none => none

/-- The word the TX bridge handler presents, ONREADYFORNEXT (60_exceptions.md R187). -/
def readyWord : Word := 0x7000

/-- The word the RX bridge handler presents, ONBYTERECEIVED b (60_exceptions.md R188). -/
def receivedWord (b : Byte) : Word := 0xA000 ||| b.setWidth 16

/-- The TX bridge handler, one indivisible transition (60_exceptions.md R187, R189). Where the sink write faults it ends
at the raise, with the pending event still set and the fault recorded as word 0x7000 on P_IRQ (R181). -/
def irqTxStep (s : State) : Result :=
  Result.andThen (execute .irq readyWord s) fun t =>
    match Response.byte? t.response with
    | none => .next (State.leave { t with txReadyPending := false })
    | some b =>
      match t.sinkWrite b with
      | none => .next (t.raise .sinkOverrun readyWord).leave
      | some u => .next (State.leave { u with txReadyPending := false })

/-- The RX bridge handler, one indivisible transition (60_exceptions.md R188, R189). -/
def irqRxStep (s : State) : Result :=
  match s.rxPending with
  | none => .next s
  | some b =>
    Result.andThen (execute .irq (receivedWord b) s) fun t =>
      .next (State.leave { t with rxPending := none })

/-- TX completion (60_exceptions.md R195). -/
def txCompleteStep (s : State) : Result := .next { s with txShift := none, txReadyPending := true }

/-- Receive delivery (60_exceptions.md R196). -/
def rxDeliverStep (s : State) : Result :=
  match s.wireIn with
  | [] => .next s
  | b :: rest => .next { s with rxPending := some b, wireIn := rest }

/-- A source whose next command exists and would not hold on P_MAIN (60_exceptions.md R190). -/
def State.mainReady (s : State) : Bool :=
  match s.mainline.current with
  | none => false
  | some w => ! s.wouldHold w

/-- Whether an agent has a step (60_exceptions.md R186, R187, R188, R190, R195, R196). In the component configuration the
harness goes on presenting commands to a faulted block (95_test_vectors.md P4; log 9). -/
def State.enabled (t : Turn) (s : State) : Bool :=
  match t with
  | .mainline => (s.config == .component || s.faultCode == 0) && s.mainReady
  | .irqTx => s.config == .system && s.irqEnabled && s.txReadyPending
  | .irqRx => s.config == .system && s.irqEnabled && s.rxPending.isSome
  | .txComplete => s.config == .system && s.txShift.isSome
  | .rxDeliver => s.config == .system && s.rxPending.isNone && ! s.wireIn.isEmpty
  | .irqHarness => s.config == .component && s.irqHarness.current.isSome

/-- The transition of an agent. -/
def act (t : Turn) (s : State) : Result :=
  match t with
  | .mainline => mainStep s
  | .irqTx => irqTxStep s
  | .irqRx => irqRxStep s
  | .txComplete => txCompleteStep s
  | .rxDeliver => rxDeliverStep s
  | .irqHarness => harnessStep s

/-- Whose turn it is: the schedule's first entry, and beyond the schedule a free choice (20_memory.md R58,
60_exceptions.md R189; log 5). -/
def State.nextTurn (s : State) : Turn :=
  match s.schedule with
  | t :: _ => t
  | [] => Config.freeTurn s.tick

/-- The turn is used up. -/
def State.passTurn (s : State) : State := { s with schedule := s.schedule.tail, tick := s.tick + 1 }

/-- The agent whose turn it is takes its transition, and an agent that has none lets the turn pass (log 6). -/
def takeTurn (t : Turn) (s : State) : Result := if s.enabled t then act t s else .next s

/-- The run has ended well (60_exceptions.md R198). -/
def State.endsWell (s : State) : Bool :=
  s.mainline.idx == s.mainline.prog.length && s.faultCode == 0 && s.txShift.isNone && ! s.txReadyPending
    && s.rxPending.isNone && s.wireIn.isEmpty

/-- No agent has a step (60_exceptions.md R198). -/
def State.quiescent (s : State) : Bool := Turn.all.all fun t => ! s.enabled t

/-- A system run that cannot go on and has not ended well (60_exceptions.md R198; 93_implementation_defined.md U12, U13;
log 7). -/
def State.stuck (s : State) : Bool := s.config == .system && s.quiescent && ! s.endsWell

/-- One transition of the run. -/
def transition (s : State) : Result :=
  if s.stuck then .fault .stuck else takeTurn s.nextTurn s.passTurn

/-- The port a word is presented on to be executed: P_MAIN, or P_IRQ for a command only P_IRQ permits (30_encoding.md
R79). -/
def portFor (w : Word) : Port :=
  match decode w with
  | .cmd i => if permitted .main i then .main else .irq
  | .reserved => .main

/-- A source whose next command is the given word. -/
def CommandSource.place (w : Word) (c : CommandSource) : CommandSource :=
  { c with
    prog := c.prog.take c.idx ++ w :: c.prog.drop (c.idx + 1)
    idx := (c.prog.take c.idx).length }

/-- A harness presents the word, on the port that permits it, at the very next turn (60_exceptions.md R186; log 12). -/
def State.present (w : Word) (s : State) : State :=
  match portFor w with
  | .main =>
    { s with config := .component, mainline := s.mainline.place w, schedule := .mainline :: s.schedule }
  | .irq =>
    { s with config := .component, irqHarness := s.irqHarness.place w, schedule := .irqHarness :: s.schedule }

end Sys2Proof.Machine
end

