-- ==== Sys2Proof/Machine/Step.lean ====
section
/-! DEFINITION. One step: one indivisible transition of one agent (20_memory.md R57, Machine/Agents.lean). -/

namespace Sys2Proof.Machine

/-- One transition of the run. -/
def step (s : State) : Host.Outcome State Fault Refusal := transition s

/-- `s` with the command of `nbits` bits `w` (as spec/opcode_table.json numbers them, bits above `nbits` zero) presented
at the very next step by a harness, on the port that permits it. CQTX fetches nothing (10_state.md R33): this stands for
the agent that presents the word (log 12). -/
def State.withFetchWord (s : State) (nbits w : Nat) : State := s.present (BitVec.ofNat 16 (w % 2 ^ nbits))

end Sys2Proof.Machine
end

