-- ==== Sys2Proof/Machine/Assembler.lean ====
section
/-! DEFINITION. The assembler's text (30_encoding.md R80): a line of text to the port and the command word it stands for,
and a command back to its text. Text is a list of characters. What R80 leaves open about blanks, the case of a port name
and of a source operation's name, and leading zeros is DESIGN CHOICE (log 13). -/

namespace Sys2Proof.Machine

/-- A line's parts. -/
inductive Token where
  | word (text : List Char)
  | comma
  | colon
deriving DecidableEq, Repr

/-- The word read so far, if any, before the rest of the parts; its characters stand in reverse. -/
def flushWord (cur : List Char) (rest : List Token) : List Token :=
  match cur with
  | [] => rest
  | _ :: _ => .word cur.reverse :: rest

/-- A line's parts from here on, `cur` being the word under way in reverse. -/
def tokensFrom : List Char → List Char → List Token
  | [], cur => flushWord cur []
  | c :: cs, cur =>
    if c = ' ' ∨ c = '\t' then flushWord cur (tokensFrom cs [])
    else if c = ',' then flushWord cur (.comma :: tokensFrom cs [])
    else if c = ':' then flushWord cur (.colon :: tokensFrom cs [])
    else tokensFrom cs (c :: cur)

/-- The mnemonics, accepted in any case (30_encoding.md R75, R80). -/
def mnemonicTable : List (List Char × BitVec 4) :=
  [ ("QEMPTY".toList, 0x1), ("QFULL".toList, 0x2), ("QENQ".toList, 0x3), ("QDEQ".toList, 0x4), ("QRESET".toList, 0x5),
    ("SUBMITBYTE".toList, 0x6), ("ONREADYFORNEXT".toList, 0x7), ("REINIT".toList, 0x8), ("RETRIEVEBYTE".toList, 0x9),
    ("ONBYTERECEIVED".toList, 0xA), ("TXSTATE".toList, 0xB), ("STATUS".toList, 0xC), ("RXOVF".toList, 0xD) ]

/-- The source's operation names, accepted as written (30_encoding.md R80). -/
def sourceNameTable : List (List Char × BitVec 4) :=
  [ ("isEmpty".toList, 0x1), ("isFull".toList, 0x2), ("enqueue".toList, 0x3), ("dequeue".toList, 0x4),
    ("reset".toList, 0x5), ("Submit".toList, 0x6), ("submitByte".toList, 0x6), ("OnReadyForNext".toList, 0x7),
    ("onReadyForNext".toList, 0x7), ("reinitialize".toList, 0x8), ("retrieveByte".toList, 0x9),
    ("onByteReceived".toList, 0xA) ]

/-- The entry of a table under a name. -/
def lookupName : List (List Char × BitVec 4) → List Char → Option (BitVec 4)
  | [], _ => none
  | (n, op) :: rest, t => if n = t then some op else lookupName rest t

/-- Letters in capitals. -/
def upperText (t : List Char) : List Char := t.map Char.toUpper

/-- The operation code a name stands for (30_encoding.md R80). -/
def operationName (t : List Char) : Option (BitVec 4) :=
  match lookupName mnemonicTable (upperText t) with
  | some op => some op
  | none => lookupName sourceNameTable t

/-- A queue name, in any case (30_encoding.md R80). -/
def queueName (t : List Char) : Option QueueSel :=
  if upperText t = "RXQ".toList then some .rxq
  else if upperText t = "TXQ".toList then some .txq
  else none

/-- A decimal digit's value. -/
def decDigit (c : Char) : Option Nat :=
  if '0'.toNat ≤ c.toNat ∧ c.toNat ≤ '9'.toNat then some (c.toNat - '0'.toNat) else none

/-- A hexadecimal digit's value. -/
def hexDigit (c : Char) : Option Nat :=
  if 'A'.toNat ≤ c.toUpper.toNat ∧ c.toUpper.toNat ≤ 'F'.toNat then some (c.toUpper.toNat - 'A'.toNat + 10)
  else decDigit c

/-- A decimal numeral's value, `acc` being that of the digits read so far. -/
def decValue : List Char → Nat → Option Nat
  | [], acc => some acc
  | c :: cs, acc =>
    match decDigit c with
    | some d => decValue cs (acc * 10 + d)
    | none => none

/-- A decimal numeral from 0 to 255 (30_encoding.md R80). -/
def decByte (t : List Char) : Option Byte :=
  match t with
  | [] => none
  | _ :: _ =>
    match decValue t 0 with
    | some n => if n ≤ 255 then some (BitVec.ofNat 8 n) else none
    | none => none

/-- A byte literal: `0x` and one or two hexadecimal digits, or a decimal numeral from 0 to 255 (30_encoding.md R80). -/
def byteLiteral (t : List Char) : Option Byte :=
  match t with
  | ['0', 'x', h] => (hexDigit h).map fun a => BitVec.ofNat 8 a
  | ['0', 'x', h, l] =>
    match hexDigit h, hexDigit l with
    | some a, some b => some (BitVec.ofNat 8 (a * 16 + b))
    | _, _ => none
  | _ => decByte t

/-- The fields of a command from its operation code and the parts after its name, by the code's format
(30_encoding.md R71, R80). -/
def operandFields (op : BitVec 4) (args : List Token) : Option Fields :=
  match formatOf op, args with
  | some .qn, [.word q] => (queueName q).map fun q => ⟨op, 0, q.bit, 0⟩
  | some .qd, [.word q, .comma, .word b] =>
    match queueName q, byteLiteral b with
    | some q, some b => some ⟨op, 0, q.bit, b⟩
    | _, _ => none
  | some .d, [.word b] => (byteLiteral b).map fun b => ⟨op, 0, 0, b⟩
  | some .n, [] => some ⟨op, 0, 0, 0⟩
  | _, _ => none

/-- The command word of a command's parts. -/
def assembleCommand (ts : List Token) : Option Word :=
  match ts with
  | .word m :: args =>
    match operationName m with
    | some op => (operandFields op args).map Fields.toWord
    | none => none
  | _ => none

/-- A port's name before a colon. -/
def portName (t : List Char) : Option Port :=
  if t = "MAIN".toList then some .main
  else if t = "IRQ".toList then some .irq
  else none

/-- A listing line: the port it is presented on, MAIN where none is named, and its command word (30_encoding.md R80). -/
def assembleLine (line : List Char) : Option (Port × Word) :=
  match tokensFrom line [] with
  | .word p :: .colon :: rest =>
    match portName p, assembleCommand rest with
    | some p, some w => some (p, w)
    | _, _ => none
  | ts => (assembleCommand ts).map fun w => (.main, w)

/-- A listing, line by line. -/
def assembleListing : List (List Char) → Option (List (Port × Word))
  | [] => some []
  | line :: rest =>
    match assembleLine line, assembleListing rest with
    | some c, some cs => some (c :: cs)
    | _, _ => none

/-- A hexadecimal digit. -/
def hexChar (n : BitVec 4) : Char :=
  if n.toNat < 10 then Char.ofNat ('0'.toNat + n.toNat) else Char.ofNat ('A'.toNat + (n.toNat - 10))

/-- A byte as `0x` and two digits. -/
def renderByte (b : Byte) : List Char := ['0', 'x', hexChar (b.extractLsb' 4 4), hexChar (b.extractLsb' 0 4)]

/-- A queue's name. -/
def renderQueue (q : QueueSel) : List Char :=
  match q with
  | .rxq => "RXQ".toList
  | .txq => "TXQ".toList

/-- A command's text (30_encoding.md R80). -/
def renderInstr (i : Instr) : List Char :=
  match i with
  | .qempty q => "QEMPTY ".toList ++ renderQueue q
  | .qfull q => "QFULL ".toList ++ renderQueue q
  | .qenq q b => "QENQ ".toList ++ renderQueue q ++ ", ".toList ++ renderByte b
  | .qdeq q => "QDEQ ".toList ++ renderQueue q
  | .qreset q => "QRESET ".toList ++ renderQueue q
  | .submitByte b => "SUBMITBYTE ".toList ++ renderByte b
  | .onReadyForNext => "ONREADYFORNEXT".toList
  | .reinit => "REINIT".toList
  | .retrieveByte => "RETRIEVEBYTE".toList
  | .onByteReceived b => "ONBYTERECEIVED ".toList ++ renderByte b
  | .txstate => "TXSTATE".toList
  | .status => "STATUS".toList
  | .rxovf => "RXOVF".toList

/-- A listing line (30_encoding.md R80). -/
def renderLine (p : Port) (i : Instr) : List Char :=
  match p with
  | .main => "MAIN: ".toList ++ renderInstr i
  | .irq => "IRQ: ".toList ++ renderInstr i

end Sys2Proof.Machine
end

