-- ==== Sys2Proof/Safety.lean ====
section
/-! DEFINITION. The terms claims are stated in: the live elements and the invariants of a queue (10_state.md R22, R23),
the machine invariant, what no command observes (20_memory.md R52, 70_reset_and_hazards.md R230), the transmit premises
(10_state.md R36, R37, 41_transmit.md R139), clean launch (70_reset_and_hazards.md R232), and fair runs
(60_exceptions.md R197). -/

namespace Sys2Proof.Machine

/-! Queues -/

/-- The live elements, oldest first: slots `(rd + k) mod CAP` for `k = 0 .. cnt-1` (10_state.md R23). -/
def Queue.live (q : Queue) : List Byte :=
  (List.range q.cnt).map fun k => Memory.read q.buf ((q.rd + k) % q.cap)

/-- The range and position invariants (10_state.md R22, R23). -/
structure Queue.Wf (q : Queue) : Prop where
  rd_lt : q.rd < q.cap
  wr_lt : q.wr < q.cap
  cnt_le : q.cnt ≤ q.cap
  position : q.wr = (q.rd + q.cnt) % q.cap

/-- The storage is canonical and lists only slots that exist (20_memory.md R50). -/
structure Queue.Stored (q : Queue) : Prop where
  canonical : Memory.wf q.buf = true
  inRange : ∀ c ∈ q.buf, c.1 ≤ q.topSlot

/-! The machine invariant -/

/-- What holds between any two transitions: canonical storage, queue invariants once initialised, only assigned fault
codes, one response per completed command, and main-line code the current context (10_state.md R22, R23, R33,
20_memory.md R50, 60_exceptions.md R180, R190, R191). -/
structure State.Inv (s : State) : Prop where
  rxqStored : s.rxq.Stored
  txqStored : s.txq.Stored
  rxqWf : s.initDone = true → s.rxq.Wf
  txqWf : s.initDone = true → s.txq.Wf
  faultLegal : s.faultCode.toNat ≤ 6
  mainResponses : s.mainline.responses.length = s.mainline.idx
  harnessResponses : s.irqHarness.responses.length = s.irqHarness.idx
  mainContext : s.context = .main

/-- `t` is `s` but for the response and the fault registers, the only fields every command may write (10_state.md R39,
30_encoding.md R77). -/
def State.SameButAnswer (s t : State) : Prop :=
  t = { s with
    response := t.response, faultCode := t.faultCode, faultPort := t.faultPort, faultWord := t.faultWord }

/-- The same byte in every slot of both queues. -/
def State.SameStorage (s t : State) : Prop :=
  ∀ sel a, Memory.read (t.queue sel).buf a = Memory.read (s.queue sel).buf a

/-- The same byte in every slot but one of one queue. -/
def State.SameStorageBut (sel : QueueSel) (slot : Nat) (s t : State) : Prop :=
  ∀ other a, (other ≠ sel ∨ a ≠ slot) → Memory.read (t.queue other).buf a = Memory.read (s.queue other).buf a

/-- A power-on state of some instance: what 70_reset_and_hazards.md R230 fixes, and nothing about the registers it leaves
unspecified. -/
structure State.PoweredOn (s : State) : Prop where
  initDone : s.initDone = false
  faultCode : s.faultCode = 0
  txShift : s.txShift = none
  txReadyPending : s.txReadyPending = false
  rxPending : s.rxPending = none
  wireOut : s.wireOut = []

/-- The condition under which a decoded command runs its own rule: an unfaulted block, a permitted port, and the block
initialised unless the command is exempt (30_encoding.md R84). -/
structure State.Ready (s : State) (i : Instr) : Prop where
  unfaulted : s.faultCode = 0
  port : permitted s.context i = true
  init : s.initDone = true ∨ initExempt i = true

/-- What each command can raise (60_exceptions.md R183). -/
def canRaise : Instr → List FaultCause
  | .qempty _ => [.notInit]
  | .qfull _ => [.notInit]
  | .qenq _ _ => [.context, .notInit, .queueFull]
  | .qdeq _ => [.context, .notInit, .queueEmpty]
  | .qreset _ => [.context, .notInit]
  | .submitByte _ => [.context, .notInit, .sinkOverrun]
  | .onReadyForNext => [.context, .notInit]
  | .reinit => [.context]
  | .retrieveByte => [.context, .notInit]
  | .onByteReceived _ => [.context, .notInit]
  | .txstate => [.notInit]
  | .status => []
  | .rxovf => [.notInit]

/-! What no command observes -/

/-- Two states that differ at most in what no command observes: stale slots and index positions (20_memory.md R52,
92_eei_decisions.md D3), the block's unspecified registers before the first REINIT, and the fault's place while there is
none (70_reset_and_hazards.md R230, 10_state.md R30). -/
structure SameView (s t : State) : Prop where
  capRx : s.rxq.topSlot = t.rxq.topSlot
  capTx : s.txq.topSlot = t.txq.topSlot
  initDone : s.initDone = t.initDone
  faultCode : s.faultCode = t.faultCode
  faultPort : s.faultCode ≠ 0 → s.faultPort = t.faultPort
  faultWord : s.faultCode ≠ 0 → s.faultWord = t.faultWord
  rxLive : s.initDone = true → s.rxq.live = t.rxq.live
  txLive : s.initDone = true → s.txq.live = t.txq.live
  txState : s.initDone = true → s.txState = t.txState
  rxOvfCnt : s.initDone = true → s.rxOvfCnt = t.rxOvfCnt
  txShift : s.txShift = t.txShift
  txReadyPending : s.txReadyPending = t.txReadyPending
  rxPending : s.rxPending = t.rxPending
  wireOut : s.wireOut = t.wireOut
  wireIn : s.wireIn = t.wireIn
  irqEnabled : s.irqEnabled = t.irqEnabled
  config : s.config = t.config
  mainline : s.mainline = t.mainline
  irqHarness : s.irqHarness = t.irqHarness
  context : s.context = t.context
  response : s.response = t.response
  schedule : s.schedule = t.schedule
  tick : s.tick = t.tick

/-- Two results with the same view: both go on to states of the same view, or both stop for the same reason. -/
def SameResult (a b : Result) : Prop :=
  match a, b with
  | .next s, .next t => SameView s t
  | .fault e, .fault f => e = f
  | .refused e, .refused f => e = f
  | _, _ => False

/-! The transmit side -/

/-- The words that touch TXQ other than through the state machine (10_state.md R36 premise (b)). -/
def rawTxWord (w : Word) : Bool :=
  match decode w with
  | .cmd (.qenq .txq _) => true
  | .cmd (.qdeq .txq) => true
  | .cmd (.qreset .txq) => true
  | _ => false

/-- Whether a word is REINIT. -/
def reinitWord (w : Word) : Bool := decode w == .cmd .reinit

/-- The words the main-line program has yet to present. -/
def State.remaining (s : State) : List Word := s.mainline.prog.drop s.mainline.idx

/-- Premises (a) to (c) of 10_state.md R36: initialised, no raw transmit-queue word to come, and the system
configuration, where only the bridge handlers drive P_IRQ. -/
structure State.TxPremises (s : State) : Prop where
  init : s.initDone = true
  noRaw : ∀ w ∈ s.remaining, rawTxWord w = false
  system : s.config = .system

/-- Idle implies an empty transmit queue (10_state.md R36). -/
def State.IdleEmpty (s : State) : Prop := s.txState = .idle → s.txq.cnt = 0

/-- Busy matches an outstanding byte or its pending event, never both (10_state.md R37). -/
structure State.BusyMatches (s : State) : Prop where
  busy : s.txState = .busy ↔ (s.txShift ≠ none ∨ s.txReadyPending = true)
  apart : ¬ (s.txShift ≠ none ∧ s.txReadyPending = true)

/-- Premise (d) of 10_state.md R37 for the transition to come: if it is MAIN's turn and the command it issues is a REINIT,
the transmitter is quiet. A REINIT that waits while others move is not being issued. -/
def State.ReinitQuiet (s : State) : Prop :=
  s.nextTurn = .mainline → ∀ w, s.mainline.current = some w → reinitWord w = true →
    s.txShift = none ∧ s.txReadyPending = false

/-- The operands of the SUBMITBYTE words of a list, in order (41_transmit.md R139). -/
def submitted (ws : List Word) : List Byte :=
  ws.filterMap fun w =>
    match decode w with
    | .cmd (.submitByte b) => some b
    | _ => none

/-- The words the main-line program has completed. -/
def State.presented (s : State) : List Word := s.mainline.prog.take s.mainline.idx

/-- Wire order (41_transmit.md R139): the premises of 10_state.md R36, what they give, and what is written and what still
waits together being the submitted bytes in order: `wire_out` followed by the live bytes of TXQ equals the operands of the
SUBMITBYTE commands completed so far. A faulted block meets it too; only there `tx_state` need not match the transmitter
(log 16). -/
structure State.WireOrdered (s : State) : Prop where
  premises : s.TxPremises
  idleEmpty : s.IdleEmpty
  busyMatches : s.faultCode = 0 → s.BusyMatches
  txqWf : s.txq.Wf
  order : s.wireOut ++ s.txq.live = submitted s.presented

/-- Clean launch (70_reset_and_hazards.md R232): power-on, interrupts enabled, a program that starts with REINIT, nothing
presented yet, and the first turn MAIN's, so that no transceiver event precedes that REINIT. -/
structure State.CleanLaunch (s : State) : Prop where
  poweredOn : s.PoweredOn
  irqEnabled : s.irqEnabled = true
  system : s.config = .system
  start : s.mainline.idx = 0
  first : s.mainline.prog.head? = some 0x8000
  window : s.nextTurn = .mainline

/-- The main-line program waits in a command that holds (60_exceptions.md R190). -/
def State.holding (s : State) : Prop := ∃ w, s.mainline.current = some w ∧ s.wouldHold w = true

/-! Queue properties over several commands -/

/-- The port of a queue's producer (10_state.md R24). -/
def producerPort : QueueSel → Port
  | .rxq => .irq
  | .txq => .main

/-- The port of a queue's consumer (10_state.md R24). -/
def consumerPort : QueueSel → Port
  | .rxq => .main
  | .txq => .irq

/-- QENQ of each byte in turn, by the producer. -/
def enqueueAll (sel : QueueSel) : List Byte → State → Result
  | [], s => .next s
  | b :: bs, s => Result.andThen (exec (.qenq sel b) (s.enter (producerPort sel))) (enqueueAll sel bs)

/-- `n` QDEQs by the consumer: the bytes they return, or none when one returns no byte. -/
def dequeueMany (sel : QueueSel) : Nat → State → Option (List Byte)
  | 0, _ => some []
  | n + 1, s =>
    match exec (.qdeq sel) (s.enter (consumerPort sel)) with
    | .next t =>
      match Response.byte? t.response, dequeueMany sel n t with
      | some b, some bs => some (b :: bs)
      | _, _ => none
    | .fault _ => none
    | .refused _ => none

/-! Runs -/

/-- A run taken as far as it goes: every state is the step of the one before, and a state at which the step stops is
repeated from there on. -/
def IsRun (run : Nat → State) : Prop :=
  ∀ n, step (run n) = .next (run (n + 1)) ∨ ((∀ t, step (run n) ≠ .next t) ∧ run (n + 1) = run n)

/-- Weak fairness of MAIN, TX completion and receive delivery (60_exceptions.md R197). -/
def FairTo (t : Turn) (run : Nat → State) : Prop :=
  ∀ n, (∀ m, n ≤ m → (run m).enabled t = true) → ∃ m, n ≤ m ∧ (run m).nextTurn = t

/-- Whether one of the two bridge handlers is enabled. -/
def State.handlerEnabled (s : State) : Bool := s.enabled .irqTx || s.enabled .irqRx

/-- Whether an enabled bridge handler runs at this step. -/
def State.handlerRuns (s : State) : Prop :=
  (s.nextTurn = .irqTx ∧ s.enabled .irqTx = true) ∨ (s.nextTurn = .irqRx ∧ s.enabled .irqRx = true)

/-- The liveness assumption: weak fairness of every agent, the interrupt context as one agent (60_exceptions.md R197). -/
structure WeaklyFair (run : Nat → State) : Prop where
  mainline : FairTo .mainline run
  txComplete : FairTo .txComplete run
  rxDeliver : FairTo .rxDeliver run
  interrupts : ∀ n, (∀ m, n ≤ m → (run m).handlerEnabled = true) → ∃ m, n ≤ m ∧ (run m).handlerRuns

end Sys2Proof.Machine
end

