-- ==== Sys2Proof/Certificates/Slice0/Obligations.lean ====
section
/-! DEFINITION. The statements for the provers, from the numbered rules of spec/. A statement about every state holds in
states no run reaches too; where it needs an invariant, the invariant is a premise and a statement of its own. -/

open Sys2Proof Sys2Proof.Machine

/-! ## Encoding -/

/-- Decoding an encoded well-formed instruction gives it back, and encoding a decoded word gives the word back
(30_encoding.md R70, R71, R75, R82). -/
def Obligations.DecodeEncodeInverse : Prop :=
  (∀ i : Instr, i.wellFormed = true → decode (encode i) = .cmd i) ∧
  ∀ (w : Word) (i : Instr), decode w = .cmd i → encode i = w

/-- At most one row of the opcode table matches any word (30_encoding.md R75, R82). -/
def Obligations.OpcodeRowsDisjoint : Prop :=
  opcodeTable.Pairwise fun r₁ r₂ => ∀ w : Word, ¬ (r₁.hits w = true ∧ r₂.hits w = true)

/-- The reserved words are exactly those with an unassigned operation code or a non-zero must-be-zero field: the table of
R75 and the field rules of R74 and R76 agree on every word (30_encoding.md). -/
def Obligations.ReservedIffIllFormed : Prop :=
  ∀ w : Word, decode w = .reserved ↔ (Fields.ofWord w).wellFormed = false

/-- A word with RSV not 000, Q = 1 in format D or N, or DATA not 0x00 in format QN or N does not decode, and raises
F_RESERVED on an unfaulted block (30_encoding.md R74). -/
def Obligations.MustBeZeroFieldsRaiseReserved : Prop :=
  ∀ (w : Word) (s : State), s.faultCode = 0 →
    ((Fields.ofWord w).rsv ≠ 0 ∨
      ((Fields.ofWord w).q = 1 ∧
        (formatOf (Fields.ofWord w).op = some .d ∨ formatOf (Fields.ofWord w).op = some .n)) ∨
      ((Fields.ofWord w).data ≠ 0 ∧
        (formatOf (Fields.ofWord w).op = some .qn ∨ formatOf (Fields.ofWord w).op = some .n))) →
    decode w = .reserved ∧
    executeWord w s = .next { s with
      faultCode := 1, faultPort := s.context, faultWord := w, response := some ⟨true, 0⟩ }

/-- Words written out from the bit patterns of 30_encoding.md R75 decode to the commands they stand for, and some reserved
neighbours do not decode (95_test_vectors.md L2.1). -/
def Obligations.SpecWordsDecode : Prop :=
  decode 0b0001000100000000 = .cmd (.qempty .txq) ∧
  decode 0b0010000000000000 = .cmd (.qfull .rxq) ∧
  decode 0b0011000101010100 = .cmd (.qenq .txq 0x54) ∧
  decode 0b0100000000000000 = .cmd (.qdeq .rxq) ∧
  decode 0b0101000100000000 = .cmd (.qreset .txq) ∧
  decode 0b0110000001000001 = .cmd (.submitByte 0x41) ∧
  decode 0b1010000011111111 = .cmd (.onByteReceived 0xFF) ∧
  decode 0b1100000000000000 = .cmd .status ∧
  decode 0b0001000000000001 = .reserved ∧
  decode 0b0001001000000000 = .reserved ∧
  decode 0b0110000100000000 = .reserved ∧
  decode 0b0000000000000000 = .reserved ∧
  decode 0b1110000000000000 = .reserved

/-- The text of a command, on either port, assembles to its port and its word (30_encoding.md R80; the text the renderer
picks among the admitted ones is the model's choice, log 13). -/
def Obligations.RenderedLineAssembles : Prop :=
  ∀ (p : Port) (i : Instr), assembleLine (renderLine p i) = some (p, encode i)

/-! ## One step -/

/-- A step runs the decoded instruction. On P_MAIN, when it is MAIN's turn, the block unfaulted or the run a component one
(where the harness goes on after a fault: log 9), and the command at the program index completes with a response, the step
is `exec` of it in the main-line context with the turn used up, the response recorded and the index advanced
(60_exceptions.md R190). On P_IRQ the harness of a component run does the same (R186; its recorded responses are the
model's, log 10). A reserved word presented on either port is answered with an error response, recorded like any other, and
raises F_RESERVED on an unfaulted block (30_encoding.md R84). A command that would hold gives MAIN no step (R190): only the
turn is used up, which is the model's choice (log 6). -/
def Obligations.StepRunsDecodedInstruction : Prop :=
  (∀ (s t : State) (w : Word) (i : Instr) (r : Response),
    s.nextTurn = .mainline → (s.config = .component ∨ s.faultCode = 0) →
    s.mainline.current = some w → decode w = .cmd i →
    exec i (s.passTurn.enter .main) = .next t → t.response = some r →
    step s = .next { t with
      context := .main
      mainline := { s.mainline with idx := s.mainline.idx + 1, responses := s.mainline.responses ++ [r] } }) ∧
  (∀ (s t : State) (w : Word) (i : Instr) (r : Response),
    s.nextTurn = .irqHarness → s.config = .component →
    s.irqHarness.current = some w → decode w = .cmd i →
    exec i (s.passTurn.enter .irq) = .next t → t.response = some r →
    step s = .next { t with
      context := .main
      irqHarness := { s.irqHarness with idx := s.irqHarness.idx + 1, responses := s.irqHarness.responses ++ [r] } }) ∧
  (∀ (s : State) (w : Word), s.nextTurn = .mainline → (s.config = .component ∨ s.faultCode = 0) →
    s.mainline.current = some w → decode w = .reserved →
    step s = .next { s.passTurn with
      faultCode := if s.faultCode = 0 then 1 else s.faultCode
      faultPort := if s.faultCode = 0 then .main else s.faultPort
      faultWord := if s.faultCode = 0 then w else s.faultWord
      response := some ⟨true, 0⟩
      context := .main
      mainline := { s.mainline with
        idx := s.mainline.idx + 1, responses := s.mainline.responses ++ [⟨true, 0⟩] } }) ∧
  (∀ (s : State) (w : Word), s.nextTurn = .irqHarness → s.config = .component →
    s.irqHarness.current = some w → decode w = .reserved →
    step s = .next { s.passTurn with
      faultCode := if s.faultCode = 0 then 1 else s.faultCode
      faultPort := if s.faultCode = 0 then .irq else s.faultPort
      faultWord := if s.faultCode = 0 then w else s.faultWord
      response := some ⟨true, 0⟩
      context := .main
      irqHarness := { s.irqHarness with
        idx := s.irqHarness.idx + 1, responses := s.irqHarness.responses ++ [⟨true, 0⟩] } }) ∧
  (∀ s : State, s.nextTurn = .mainline → s.holding → s.stuck = false → step s = .next s.passTurn)

/-- The order of the checks before a command's own rule, for every word on the current port: a faulted block refuses all
but 0xC000; then F_RESERVED, F_CONTEXT, F_NOT_INIT; then the command's own rule runs, `exec` of the decoded command, and none
of those three faults is recorded (30_encoding.md R84). -/
def Obligations.PrologueOrder : Prop :=
  ∀ (w : Word) (s : State),
    (s.faultCode ≠ 0 → w ≠ 0xC000 → executeWord w s = .next { s with response := some ⟨true, 0⟩ }) ∧
    (s.faultCode ≠ 0 → w = 0xC000 → executeWord w s = .next { s with response := some ⟨false, s.statusView⟩ }) ∧
    (s.faultCode = 0 → decode w = .reserved → executeWord w s = .next { s with
      faultCode := 1, faultPort := s.context, faultWord := w, response := some ⟨true, 0⟩ }) ∧
    (∀ i, s.faultCode = 0 → decode w = .cmd i → permitted s.context i = false → executeWord w s = .next { s with
      faultCode := 2, faultPort := s.context, faultWord := w, response := some ⟨true, 0⟩ }) ∧
    (∀ i, s.faultCode = 0 → decode w = .cmd i → permitted s.context i = true → s.initDone = false →
      i ≠ .reinit → i ≠ .status → executeWord w s = .next { s with
        faultCode := 3, faultPort := s.context, faultWord := w, response := some ⟨true, 0⟩ }) ∧
    (∀ i, s.Ready i → decode w = .cmd i → executeWord w s = exec i s ∧
      ∀ t, executeWord w s = .next t → t.faultCode ≠ 1 ∧ t.faultCode ≠ 2 ∧ t.faultCode ≠ 3)

/-- The port permissions: on an unfaulted block a command raises F_CONTEXT exactly on the ports the table does not mark for
it (30_encoding.md R79). -/
def Obligations.PortPermissions : Prop :=
  ∀ (i : Instr) (s t : State), s.faultCode = 0 → exec i s = .next t →
    (t.faultCode = 2 ↔
      (s.context = .irq ∧ ((∃ b, i = .qenq .txq b) ∨ i = .qdeq .rxq ∨ (∃ q, i = .qreset q) ∨ (∃ b, i = .submitByte b) ∨
        i = .reinit ∨ i = .retrieveByte)) ∨
      (s.context = .main ∧ ((∃ b, i = .qenq .rxq b) ∨ i = .qdeq .txq ∨ i = .onReadyForNext ∨
        ∃ b, i = .onByteReceived b)))

/-- A command that raises a fault writes the fault's code, the port and the word, and nothing else but its error response
(60_exceptions.md R181, R193). -/
def Obligations.FaultingCommandWritesOnlyTheFault : Prop :=
  ∀ (i : Instr) (s t : State), exec i s = .next t → t.faultCode ≠ s.faultCode →
    s.faultCode = 0 ∧ ∃ c : FaultCause, t = { s with
      faultCode := c.code, faultPort := s.context, faultWord := encode i, response := some ⟨true, 0⟩ }

/-- Which faults each command can raise: exactly those of the table (60_exceptions.md R183). -/
def Obligations.FaultsEachCommandCanRaise : Prop :=
  ∀ (i : Instr) (c : FaultCause),
    (∃ s t : State, s.faultCode = 0 ∧ exec i s = .next t ∧ t.faultCode = c.code) ↔ c ∈ canRaise i

/-! ## What each command does -/

/-- QEMPTY and QFULL read only the count, write nothing, and are never both true (40_queue.md R104, R105, R106). -/
def Obligations.QueuePredicatesAnswer : Prop :=
  ∀ (q : QueueSel) (s : State),
    (s.Ready (.qempty q) → exec (.qempty q) s = .next { s with
      response := some ⟨false, if (s.queue q).cnt = 0 then 0x0001 else 0x0000⟩ }) ∧
    (s.Ready (.qfull q) → exec (.qfull q) s = .next { s with
      response := some ⟨false, if (s.queue q).cnt = (s.queue q).topSlot + 1 then 0x0001 else 0x0000⟩ }) ∧
    ¬ ((s.queue q).isEmpty = true ∧ (s.queue q).isFull = true)

/-- QENQ on a queue that is not full stores the byte at the write index, advances it modulo the capacity and increments
the count; the live elements gain the byte at the end, so none is overwritten (40_queue.md R101, R107). -/
def Obligations.QenqAppends : Prop :=
  ∀ (q : QueueSel) (b : Byte) (s : State), s.Ready (.qenq q b) → (s.queue q).Wf → (s.queue q).Stored →
    (s.queue q).cnt < (s.queue q).cap →
    ∃ t, exec (.qenq q b) s = .next t ∧ t.response = some ⟨false, 0x0000⟩ ∧
      (t.queue q).wr = ((s.queue q).wr + 1) % (s.queue q).cap ∧ (t.queue q).cnt = (s.queue q).cnt + 1 ∧
      (t.queue q).rd = (s.queue q).rd ∧ Memory.read (t.queue q).buf (s.queue q).wr = b ∧
      (t.queue q).live = (s.queue q).live ++ [b]

/-- QDEQ on a queue that is not empty returns its oldest byte with bit 8 set, advances the read index modulo the capacity
and decrements the count; the storage and the write index stay (40_queue.md R102, R108). -/
def Obligations.QdeqTakesOldest : Prop :=
  ∀ (q : QueueSel) (s : State), s.Ready (.qdeq q) → (s.queue q).Wf → 0 < (s.queue q).cnt →
    ∃ t v, exec (.qdeq q) s = .next t ∧ t.response = some ⟨false, 0x0100 ||| v.setWidth 16⟩ ∧
      (s.queue q).live = v :: (t.queue q).live ∧
      (t.queue q).rd = ((s.queue q).rd + 1) % (s.queue q).cap ∧ (t.queue q).cnt = (s.queue q).cnt - 1 ∧
      (t.queue q).wr = (s.queue q).wr ∧ (t.queue q).buf = (s.queue q).buf

/-- QENQ on a full queue raises F_QUEUE_FULL and QDEQ on an empty one F_QUEUE_EMPTY, and the queue is unchanged
(40_queue.md R107, R108). -/
def Obligations.QueueBoundFaults : Prop :=
  (∀ (q : QueueSel) (b : Byte) (s : State), s.Ready (.qenq q b) → (s.queue q).cnt = (s.queue q).cap →
    exec (.qenq q b) s = .next { s with
      faultCode := 4, faultPort := s.context, faultWord := encode (.qenq q b), response := some ⟨true, 0⟩ }) ∧
  (∀ (q : QueueSel) (s : State), s.Ready (.qdeq q) → (s.queue q).cnt = 0 →
    exec (.qdeq q) s = .next { s with
      faultCode := 5, faultPort := s.context, faultWord := encode (.qdeq q), response := some ⟨true, 0⟩ })

/-- QRESET empties one queue and touches nothing else: both its indices and its count become 0, the storage and
`tx_state` stay; issued again it changes nothing (40_queue.md R103, R109, R112). -/
def Obligations.QresetEmptiesOneQueue : Prop :=
  ∀ (q : QueueSel) (s : State), s.Ready (.qreset q) →
    ∃ t, exec (.qreset q) s = .next t ∧ exec (.qreset q) t = .next t ∧
      t.queue q = { s.queue q with rd := 0, wr := 0, cnt := 0 } ∧
      t = { s.setQueue q (t.queue q) with response := some ⟨false, 0x0000⟩ } ∧
      (t.queue q).isEmpty = true ∧ (t.queue q).isFull = false

/-- Submitting a byte while Idle hands that byte to the sink in the same transition, with no queue involved, and makes the
state Busy (41_transmit.md R130, R135, R136). -/
def Obligations.SubmitByteIdleWritesSink : Prop :=
  ∀ (b : Byte) (s : State), s.Ready (.submitByte b) → s.txState = .idle → s.txShift = none →
    exec (.submitByte b) s = .next { s with
      txShift := some b, wireOut := s.wireOut ++ [b], txState := .busy, response := some ⟨false, 0x0000⟩ }

/-- Submitting a byte while Busy with space appends it to the transmit queue and touches neither the sink nor the state
(41_transmit.md R130, R137). -/
def Obligations.SubmitByteBusyEnqueues : Prop :=
  ∀ (b : Byte) (s : State), s.Ready (.submitByte b) → s.txState = .busy → s.txq.Wf → s.txq.Stored →
    s.txq.cnt < s.txq.cap →
    ∃ t, exec (.submitByte b) s = .next t ∧ t.response = some ⟨false, 0x0000⟩ ∧ t.txq.live = s.txq.live ++ [b] ∧
      t.wireOut = s.wireOut ∧ t.txShift = s.txShift ∧ t.txState = .busy

/-- SUBMITBYTE does not complete in two cases: Busy with TXQ full holds and writes nothing; Idle while a byte is
outstanding raises F_SINK_OVERRUN before any write (41_transmit.md R130, R135). -/
def Obligations.SubmitByteHoldsOrOverruns : Prop :=
  ∀ (b : Byte) (s : State), s.Ready (.submitByte b) →
    (s.txState = .busy → s.txq.cnt = s.txq.cap → exec (.submitByte b) s = .next { s with response := none }) ∧
    (s.txState = .idle → s.txShift ≠ none → exec (.submitByte b) s = .next { s with
      faultCode := 6, faultPort := s.context, faultWord := encode (.submitByte b), response := some ⟨true, 0⟩ })

/-- ONREADYFORNEXT on an empty TXQ answers "no byte" and makes the state Idle; on a TXQ that is not empty it returns the
oldest byte and leaves Busy; it writes nothing to the sink (41_transmit.md R132, R138). -/
def Obligations.OnReadyForNextDrains : Prop :=
  ∀ s : State, s.Ready .onReadyForNext →
    (s.txq.cnt = 0 → exec .onReadyForNext s = .next { s with txState := .idle, response := some ⟨false, 0x0000⟩ }) ∧
    (s.txq.Wf → 0 < s.txq.cnt → ∃ t v, exec .onReadyForNext s = .next t ∧
      t.response = some ⟨false, 0x0100 ||| v.setWidth 16⟩ ∧ s.txq.live = v :: t.txq.live ∧
      t.txq.cnt = s.txq.cnt - 1 ∧ t.txState = .busy ∧ t.wireOut = s.wireOut ∧ t.txShift = s.txShift)

/-- REINIT: both queues get `rd = wr = cnt = 0` with their storage unchanged, Idle, overflow counter 0, initialised; the
fault registers and the boundary state stay (70_reset_and_hazards.md R231, 42_facade.md R150). -/
def Obligations.ReinitResultState : Prop :=
  ∀ s : State, s.Ready .reinit → exec .reinit s = .next { s with
    rxq := { s.rxq with rd := 0, wr := 0, cnt := 0 }
    txq := { s.txq with rd := 0, wr := 0, cnt := 0 }
    txState := .idle
    rxOvfCnt := 0
    initDone := true
    response := some ⟨false, 0x0000⟩ }

/-- Right after REINIT, from any prior state, QEMPTY on either queue responds 1, TXSTATE responds 0 and STATUS has bits 0,
2 and 5 set and bits 1, 3, 4 and 6 clear (42_facade.md R156). -/
def Obligations.ReadsAfterReinit : Prop :=
  ∀ s : State, s.Ready .reinit → ∃ t, exec .reinit s = .next t ∧
    (∀ q, ∃ u, exec (.qempty q) t = .next u ∧ u.response = some ⟨false, 0x0001⟩) ∧
    (∃ u, exec .txstate t = .next u ∧ u.response = some ⟨false, 0x0000⟩) ∧
    (∃ u v, exec .status t = .next u ∧ u.response = some ⟨false, v⟩ ∧
      v.getLsbD 0 = true ∧ v.getLsbD 2 = true ∧ v.getLsbD 5 = true ∧
      v.getLsbD 1 = false ∧ v.getLsbD 3 = false ∧ v.getLsbD 4 = false ∧ v.getLsbD 6 = false)

/-- RETRIEVEBYTE returns the oldest received byte, and holds while RXQ is empty (42_facade.md R151). -/
def Obligations.RetrieveByteAnswersOrHolds : Prop :=
  ∀ s : State, s.Ready .retrieveByte →
    (s.rxq.cnt = 0 → exec .retrieveByte s = .next { s with response := none }) ∧
    (s.rxq.Wf → 0 < s.rxq.cnt → ∃ t v, exec .retrieveByte s = .next t ∧
      t.response = some ⟨false, 0x0100 ||| v.setWidth 16⟩ ∧ s.rxq.live = v :: t.rxq.live ∧
      t.rxq.rd = (s.rxq.rd + 1) % s.rxq.cap ∧ t.rxq.cnt = s.rxq.cnt - 1)

/-- ONBYTERECEIVED appends the byte to RXQ and answers "accepted"; on a full RXQ it drops the new byte, keeps the queue,
counts the loss up to 0xFFFF and answers "dropped", and raises no fault (42_facade.md R152, 60_exceptions.md R200,
10_state.md R29). -/
def Obligations.OnByteReceivedAcceptsOrDrops : Prop :=
  ∀ (b : Byte) (s : State), s.Ready (.onByteReceived b) →
    (s.rxq.Wf → s.rxq.Stored → s.rxq.cnt < s.rxq.cap → ∃ t, exec (.onByteReceived b) s = .next t ∧
      t.response = some ⟨false, 0x0000⟩ ∧ t.rxq.live = s.rxq.live ++ [b] ∧ t.rxOvfCnt = s.rxOvfCnt) ∧
    (s.rxq.cnt = s.rxq.cap → ∃ c : Word, c.toNat = min (s.rxOvfCnt.toNat + 1) 0xFFFF ∧
      exec (.onByteReceived b) s = .next { s with rxOvfCnt := c, response := some ⟨false, 0x0001⟩ })

/-- On an empty RXQ RETRIEVEBYTE holds; and ONBYTERECEIVED b and then RETRIEVEBYTE answers b, both from that state and from
the state the hold leaves, where the RETRIEVEBYTE is the retry of the held one (42_facade.md R157). -/
def Obligations.ReceiveRoundTrip : Prop :=
  ∀ (b : Byte) (s : State), s.faultCode = 0 → s.initDone = true → s.rxq.Wf → s.rxq.Stored → s.rxq.cnt = 0 →
    ∃ h, exec .retrieveByte (s.enter .main) = .next h ∧ h.response = none ∧
      ∀ v, v = s ∨ v = h → ∃ t u, exec (.onByteReceived b) (v.enter .irq) = .next t ∧
        t.response = some ⟨false, 0x0000⟩ ∧ exec .retrieveByte (t.enter .main) = .next u ∧
        u.response = some ⟨false, 0x0100 ||| b.setWidth 16⟩ ∧ u.rxq.cnt = 0

/-- TXSTATE answers the transmission state (Idle 0, Busy 1) and RXOVF the overflow counter; neither writes anything
(41_transmit.md R134, 42_facade.md R154). -/
def Obligations.StateReadsAnswer : Prop :=
  ∀ s : State,
    (s.Ready .txstate → exec .txstate s = .next { s with
      response := some ⟨false, if s.txState = .busy then 0x0001 else 0x0000⟩ }) ∧
    (s.Ready .rxovf → exec .rxovf s = .next { s with response := some ⟨false, s.rxOvfCnt⟩ })

/-- STATUS answers in every state, on either port, faulted or not, initialised or not, with the fields of the STATUS view,
and writes nothing (10_state.md R31, 42_facade.md R153). -/
def Obligations.StatusViewFields : Prop :=
  ∀ s : State, ∃ v : Word, exec .status s = .next { s with response := some ⟨false, v⟩ } ∧
    v.getLsbD 0 = (s.initDone && decide (s.rxq.cnt = 0)) ∧
    v.getLsbD 1 = (s.initDone && decide (s.rxq.cnt = s.rxq.cap)) ∧
    v.getLsbD 2 = (s.initDone && decide (s.txq.cnt = 0)) ∧
    v.getLsbD 3 = (s.initDone && decide (s.txq.cnt = s.txq.cap)) ∧
    v.getLsbD 4 = (s.initDone && decide (s.txState = .busy)) ∧
    v.getLsbD 5 = s.initDone ∧
    v.getLsbD 6 = (s.initDone && decide (s.rxOvfCnt ≠ 0)) ∧
    v.getLsbD 7 = decide (s.faultCode ≠ 0) ∧
    v.extractLsb' 8 4 = s.faultCode ∧
    v.extractLsb' 12 4 = 0

/-! ## What each command leaves unchanged -/

/-- QEMPTY, QFULL, TXSTATE, STATUS and RXOVF write nothing but their response and, on a fault, the fault registers; every
byte of storage reads as before (10_state.md R39, 20_memory.md R55). -/
def Obligations.ReadCommandsFrame : Prop :=
  ∀ (i : Instr) (s t : State),
    ((∃ q, i = .qempty q) ∨ (∃ q, i = .qfull q) ∨ i = .txstate ∨ i = .status ∨ i = .rxovf) →
    exec i s = .next t → s.SameButAnswer t ∧ s.SameStorage t

/-- QENQ, QDEQ and QRESET of a queue leave everything outside that queue unchanged but the response and, on a fault, the
fault registers; the capacity stays; QENQ keeps the read index and every byte but the one at the old write index; QDEQ keeps
the write index; QDEQ and QRESET keep every byte (10_state.md R25, R39, 40_queue.md R101 to R103). -/
def Obligations.QueueCommandsFrame : Prop :=
  ∀ (q : QueueSel) (b : Byte) (s t : State),
    (exec (.qenq q b) s = .next t → (s.setQueue q (t.queue q)).SameButAnswer t ∧
      (t.queue q).topSlot = (s.queue q).topSlot ∧ (t.queue q).rd = (s.queue q).rd ∧
      s.SameStorageBut q (s.queue q).wr t) ∧
    (exec (.qdeq q) s = .next t → (s.setQueue q (t.queue q)).SameButAnswer t ∧
      (t.queue q).topSlot = (s.queue q).topSlot ∧ (t.queue q).wr = (s.queue q).wr ∧ s.SameStorage t) ∧
    (exec (.qreset q) s = .next t → (s.setQueue q (t.queue q)).SameButAnswer t ∧
      (t.queue q).topSlot = (s.queue q).topSlot ∧ s.SameStorage t)

/-- SUBMITBYTE leaves everything unchanged but the transmit queue's write index and count, the byte at the old write index,
`tx_state`, `tx_shift`, `wire_out`, the response and, on a fault, the fault registers; it writes the queue only when Busy
and the sink only when Idle (10_state.md R39, 41_transmit.md R130). -/
def Obligations.SubmitByteFrame : Prop :=
  ∀ (b : Byte) (s t : State), exec (.submitByte b) s = .next t →
    State.SameButAnswer
      { s with
        txq := { s.txq with buf := t.txq.buf, wr := t.txq.wr, cnt := t.txq.cnt }
        txState := t.txState
        txShift := t.txShift
        wireOut := t.wireOut } t ∧
    s.SameStorageBut .txq s.txq.wr t ∧
    (s.txState = .idle → t.txq = s.txq) ∧
    (s.txState = .busy → t.txShift = s.txShift ∧ t.wireOut = s.wireOut ∧ t.txState = s.txState)

/-- ONREADYFORNEXT leaves everything unchanged but the transmit queue's read index and count, `tx_state`, the response and,
on a fault, the fault registers; every byte of storage and the boundary state stay (10_state.md R39, 41_transmit.md R132). -/
def Obligations.OnReadyForNextFrame : Prop :=
  ∀ s t : State, exec .onReadyForNext s = .next t →
    State.SameButAnswer
      { s with
        txq := { s.txq with rd := t.txq.rd, cnt := t.txq.cnt }
        txState := t.txState } t ∧ s.SameStorage t

/-- REINIT leaves everything unchanged but both queues' indices and counts, `tx_state`, the overflow counter, `init_done`,
the response and, on a fault, the fault registers: the storage and all boundary state stay (42_facade.md R150). -/
def Obligations.ReinitFrame : Prop :=
  ∀ s t : State, exec .reinit s = .next t →
    State.SameButAnswer
      { s with
        rxq := { s.rxq with rd := t.rxq.rd, wr := t.rxq.wr, cnt := t.rxq.cnt }
        txq := { s.txq with rd := t.txq.rd, wr := t.txq.wr, cnt := t.txq.cnt }
        txState := t.txState
        rxOvfCnt := t.rxOvfCnt
        initDone := t.initDone } t ∧ s.SameStorage t

/-- RETRIEVEBYTE leaves everything unchanged but RXQ's read index and count, ONBYTERECEIVED but RXQ's write index and
count, the byte at its old write index and the overflow counter; beside these the response and, on a fault, the fault
registers (10_state.md R39, 42_facade.md R151, R152). -/
def Obligations.ReceiveCommandsFrame : Prop :=
  ∀ (b : Byte) (s t : State),
    (exec .retrieveByte s = .next t →
      State.SameButAnswer { s with rxq := { s.rxq with rd := t.rxq.rd, cnt := t.rxq.cnt } } t ∧ s.SameStorage t) ∧
    (exec (.onByteReceived b) s = .next t →
      State.SameButAnswer
        { s with
          rxq := { s.rxq with buf := t.rxq.buf, wr := t.rxq.wr, cnt := t.rxq.cnt }
          rxOvfCnt := t.rxOvfCnt } t ∧ s.SameStorageBut .rxq s.rxq.wr t)

/-- A command whose response is not an error leaves the fault registers as they were (10_state.md R39, 30_encoding.md
R77). -/
def Obligations.FaultRegistersOnlyOnError : Prop :=
  ∀ (i : Instr) (s t : State), exec i s = .next t → t.response ≠ some ⟨true, 0⟩ →
    t.faultCode = s.faultCode ∧ t.faultPort = s.faultPort ∧ t.faultWord = s.faultWord

/-! ## The whole machine -/

/-- Only SUBMITBYTE (Busy with TXQ full) and RETRIEVEBYTE (RXQ empty) hold, and no command on P_IRQ ever holds
(42_facade.md R155). -/
def Obligations.OnlyBlockingCommandsHold : Prop :=
  ∀ (i : Instr) (s t : State), exec i s = .next t →
    (t.response = none ↔ s.Ready i ∧
      ((∃ b, i = .submitByte b ∧ s.txState = .busy ∧ s.txq.cnt = s.txq.cap) ∨ (i = .retrieveByte ∧ s.rxq.cnt = 0))) ∧
    (s.context = .irq → t.response ≠ none)

/-- No transition clears `init_done`, and only a REINIT sets it: if a step sets it, it was the main-line turn and the
command presented was 0x8000 (10_state.md R28). -/
def Obligations.InitDoneOnlyByReinit : Prop :=
  ∀ s t : State, step s = .next t →
    (s.initDone = true → t.initDone = true) ∧
    (s.initDone = false → t.initDone = true → s.nextTurn = .mainline ∧ s.mainline.current = some 0x8000)

/-- Once a fault is recorded, no transition changes the fault registers or any other block register or writes the sink,
REINIT included (10_state.md R30, 60_exceptions.md R182). -/
def Obligations.FaultedBlockKeepsRegisters : Prop :=
  ∀ s t : State, s.faultCode ≠ 0 → step s = .next t →
    t.faultCode = s.faultCode ∧ t.faultPort = s.faultPort ∧ t.faultWord = s.faultWord ∧ t.rxq = s.rxq ∧
    t.txq = s.txq ∧ t.txState = s.txState ∧ t.initDone = s.initDone ∧ t.rxOvfCnt = s.rxOvfCnt ∧ t.wireOut = s.wireOut

/-- The capacities are fixed for the life of an instance, and no transition changes the interrupt enable (00_scope.md R6,
60_exceptions.md R184). -/
def Obligations.CapacitiesAndEnableFixed : Prop :=
  ∀ s t : State, step s = .next t →
    t.rxq.topSlot = s.rxq.topSlot ∧ t.txq.topSlot = s.txq.topSlot ∧ t.irqEnabled = s.irqEnabled

/-- Every step keeps the machine invariant: canonical storage, the range and position invariants of both queues, only
assigned fault codes, one response per completed command, the main-line context between transitions (10_state.md R22, R23,
R33, 60_exceptions.md R180, R191). -/
def Obligations.StepKeepsInvariant : Prop :=
  ∀ s t : State, s.Inv → step s = .next t → t.Inv

/-- Every power-on state with the model's values for the unspecified registers meets the machine invariant and what
70_reset_and_hazards.md R230 fixes, and `State.reset` is one of them. The values of the unspecified registers are the
model's choice (log 2, 3, 12). -/
def Obligations.ResetMeetsInvariant : Prop :=
  (∀ capRx capTx : Nat, (State.powerOn capRx capTx).Inv ∧ (State.powerOn capRx capTx).PoweredOn) ∧
  State.reset.Inv ∧ State.reset.PoweredOn

/-- Under the machine invariant a step answers a next state, or stops because no agent has a step in a system run that
has not ended well; it never reaches a slot that does not exist and never refuses (20_memory.md R51, 60_exceptions.md
R198). The stop is the model's form of the spec's stuck runs (log 7). -/
def Obligations.StepStopsOnlyWhenStuck : Prop :=
  ∀ s : State, s.Inv → (∃ t, step s = .next t) ∨ (s.stuck = true ∧ step s = .fault .stuck)

/-- A system run that has ended well is quiescent: no agent has a step (60_exceptions.md R198). That `step` there still
answers, and only uses up the turn, is the model's choice: the spec has no turns and no such step (log 6, 7). -/
def Obligations.EndedRunIsQuiescent : Prop :=
  ∀ s : State, s.config = .system → s.endsWell = true →
    (∀ turn, s.enabled turn = false) ∧ step s = .next s.passTurn

/-- No command, handler or event observes the stale slots, the index positions, the registers left unspecified before the
first REINIT, or the fault's place while there is none: from two states that differ only in these, the step gives the same
kind of result, and next states that again differ only in these (20_memory.md R52, 70_reset_and_hazards.md R230,
10_state.md R30). -/
def Obligations.UnobservedStateStaysUnobserved : Prop :=
  ∀ s t : State, s.Inv → t.Inv → SameView s t → SameResult (step s) (step t)

/-- After power-on, and before REINIT, every permitted command but REINIT and STATUS raises F_NOT_INIT, and STATUS answers
0x0000, whatever the unspecified registers hold (70_reset_and_hazards.md R230, 42_facade.md R153). -/
def Obligations.PowerOnCommandsFault : Prop :=
  ∀ s : State, s.PoweredOn →
    (∀ i, permitted s.context i = true → i ≠ .reinit → i ≠ .status → exec i s = .next { s with
      faultCode := 3, faultPort := s.context, faultWord := encode i, response := some ⟨true, 0⟩ }) ∧
    exec .status s = .next { s with response := some ⟨false, 0x0000⟩ }

/-! ## Queues over several transitions -/

/-- N bytes enqueued into an empty queue, N at most the capacity, and then N dequeues: the bytes come out in the order they
went in, for either queue (40_queue.md R110). -/
def Obligations.FifoOrder : Prop :=
  ∀ (q : QueueSel) (bs : List Byte) (s : State), s.faultCode = 0 → s.initDone = true → (s.queue q).Wf →
    (s.queue q).Stored → (s.queue q).cnt = 0 → bs.length ≤ (s.queue q).cap →
    ∃ t, enqueueAll q bs s = .next t ∧ dequeueMany q bs.length t = some bs

/-- After exactly CAP enqueues from empty with no dequeue the queue is full, and the next QENQ raises F_QUEUE_FULL and
leaves the queue unchanged (40_queue.md R111). -/
def Obligations.CapacityIsReached : Prop :=
  ∀ (q : QueueSel) (bs : List Byte) (b : Byte) (s : State), s.faultCode = 0 → s.initDone = true → (s.queue q).Wf →
    (s.queue q).Stored → (s.queue q).cnt = 0 → bs.length = (s.queue q).cap →
    ∃ t u, enqueueAll q bs s = .next t ∧ (t.queue q).isFull = true ∧
      exec (.qenq q b) (t.enter (producerPort q)) = .next u ∧ u.faultCode = 4 ∧ u.queue q = t.queue q

/-- Any transition changes the live elements of a queue in one of four ways only: not at all, one byte added at the end, the
oldest byte taken from the front, or all discarded by a QRESET of that queue or a REINIT on P_MAIN (20_memory.md R62,
10_state.md R23). -/
def Obligations.LiveElementsMoveInOrder : Prop :=
  ∀ (s t : State) (q : QueueSel), s.Inv → s.initDone = true → step s = .next t →
    (t.queue q).live = (s.queue q).live ∨ (∃ b, (t.queue q).live = (s.queue q).live ++ [b]) ∨
    (∃ b, (s.queue q).live = b :: (t.queue q).live) ∨
    ((t.queue q).live = [] ∧ s.nextTurn = .mainline ∧ ∃ w, s.mainline.current = some w ∧
      (decode w = .cmd (.qreset q) ∨ decode w = .cmd .reinit))

/-- A producer's "not full" survives every command of the other port, and a consumer's "not empty" every command of the
other port that is no QRESET and no REINIT (20_memory.md R61, 70_reset_and_hazards.md R243). -/
def Obligations.SingleSidedChecksAreStable : Prop :=
  ∀ (i : Instr) (s t : State) (q : QueueSel), exec i s = .next t → (s.queue q).Wf →
    (s.context ≠ producerPort q → (s.queue q).isFull = false → (t.queue q).isFull = false) ∧
    (s.context ≠ consumerPort q → (∀ r, i ≠ .qreset r) → i ≠ .reinit → (s.queue q).isEmpty = false →
      (t.queue q).isEmpty = false)

/-! ## The bridge handlers and the transceiver -/

/-- The TX bridge handler. On an initialised, unfaulted block: TXQ empty, it sets Idle and clears the event and writes
nothing to the sink; TXQ not empty and the transmitter free, it hands the oldest byte to the sink and clears the event;
TXQ not empty and a byte outstanding, F_SINK_OVERRUN is recorded with word 0x7000 and P_IRQ, the byte is gone from TXQ and
the event stays pending (60_exceptions.md R187, R181). Before the first REINIT it records F_NOT_INIT and clears the event
(70_reset_and_hazards.md R242). On a faulted block its command is refused, and it clears the event and changes nothing else
(60_exceptions.md R182). The fields `response` and `context` of the next states are the model's (log 10, 11). -/
def Obligations.TxBridgeHandler : Prop :=
  ∀ s : State,
    (s.faultCode = 0 → s.initDone = true → s.txq.cnt = 0 → irqTxStep s = .next { s with
      txState := .idle, txReadyPending := false, context := .main, response := some ⟨false, 0x0000⟩ }) ∧
    (s.faultCode = 0 → s.initDone = true → s.txq.Wf → 0 < s.txq.cnt → s.txShift = none →
      ∃ t v, irqTxStep s = .next t ∧ s.txq.live = v :: t.txq.live ∧
        t.wireOut = s.wireOut ++ [v] ∧ t.txShift = some v ∧ t.txState = .busy ∧ t.txReadyPending = false ∧
        t.faultCode = 0 ∧ t.context = .main) ∧
    (s.faultCode = 0 → s.initDone = true → s.txq.Wf → 0 < s.txq.cnt → s.txShift ≠ none →
      ∃ t v, irqTxStep s = .next t ∧ s.txq.live = v :: t.txq.live ∧
        t.faultCode = 6 ∧ t.faultPort = .irq ∧ t.faultWord = 0x7000 ∧ t.txReadyPending = s.txReadyPending ∧
        t.wireOut = s.wireOut ∧ t.txShift = s.txShift ∧ t.context = .main) ∧
    (s.faultCode = 0 → s.initDone = false → irqTxStep s = .next { s with
      faultCode := 3, faultPort := .irq, faultWord := 0x7000, response := some ⟨true, 0⟩,
      txReadyPending := false, context := .main }) ∧
    (s.faultCode ≠ 0 → irqTxStep s = .next { s with
      response := some ⟨true, 0⟩, txReadyPending := false, context := .main })

/-- The RX bridge handler takes the pending byte: on an initialised, unfaulted block it goes into RXQ, or is dropped and
counted when RXQ is full; before the first REINIT the handler records F_NOT_INIT; in each case the event is cleared and
main-line code goes on (60_exceptions.md R188, R191, 70_reset_and_hazards.md R242). On a faulted block its command is
refused, and it clears the event and changes nothing else (60_exceptions.md R182). The fields `response` and `context` of the
next states are the model's (log 10, 11). -/
def Obligations.RxBridgeHandler : Prop :=
  ∀ (s : State) (b : Byte), s.rxPending = some b →
    (s.faultCode = 0 → s.initDone = true → s.rxq.Wf → s.rxq.Stored → s.rxq.cnt < s.rxq.cap →
      ∃ t, irqRxStep s = .next t ∧
        t.rxq.live = s.rxq.live ++ [b] ∧ t.rxPending = none ∧ t.faultCode = 0 ∧ t.context = .main) ∧
    (s.faultCode = 0 → s.initDone = true → s.rxq.cnt = s.rxq.cap → ∃ t, irqRxStep s = .next t ∧ t.rxq = s.rxq ∧
      t.rxOvfCnt.toNat = min (s.rxOvfCnt.toNat + 1) 0xFFFF ∧ t.rxPending = none ∧ t.faultCode = 0 ∧
      t.context = .main) ∧
    (s.faultCode = 0 → s.initDone = false → irqRxStep s = .next { s with
      faultCode := 3, faultPort := .irq, faultWord := 0xA000 ||| b.setWidth 16, response := some ⟨true, 0⟩,
      rxPending := none, context := .main }) ∧
    (s.faultCode ≠ 0 → irqRxStep s = .next { s with
      response := some ⟨true, 0⟩, rxPending := none, context := .main })

/-- The transceiver's two events: completion takes the outstanding byte and raises the ready event; delivery takes the
line's next byte, only while none is pending (60_exceptions.md R195, R196). Over all transitions of any run: the ready event
is set only by a completion and cleared only by the TX bridge handler, and the pending byte is set only by a delivery and
goes only by the RX bridge handler (R185). That a turn of the receiver while a byte is pending is used up, in a run that is
not stuck, is the model's choice (log 6, 7). -/
def Obligations.TransceiverEvents : Prop :=
  ∀ s : State,
    (s.config = .system → s.nextTurn = .txComplete → s.txShift ≠ none → step s = .next { s.passTurn with
      txShift := none, txReadyPending := true }) ∧
    (∀ b rest, s.config = .system → s.nextTurn = .rxDeliver → s.rxPending = none → s.wireIn = b :: rest →
      step s = .next { s.passTurn with rxPending := some b, wireIn := rest }) ∧
    (s.config = .system → s.nextTurn = .rxDeliver → s.rxPending ≠ none → s.stuck = false →
      step s = .next s.passTurn) ∧
    ∀ t : State, step s = .next t →
      (s.txReadyPending = false → t.txReadyPending = true → s.nextTurn = .txComplete ∧ s.txShift ≠ none) ∧
      (s.txReadyPending = true → t.txReadyPending = false → s.nextTurn = .irqTx ∧ s.irqEnabled = true) ∧
      (s.rxPending = none → ∀ b, t.rxPending = some b → s.nextTurn = .rxDeliver ∧ s.wireIn.head? = some b) ∧
      (∀ b, s.rxPending = some b → t.rxPending ≠ some b →
        t.rxPending = none ∧ s.nextTurn = .irqRx ∧ s.irqEnabled = true)

/-! ## The transmit side -/

/-- Idle implies an empty transmit queue: under the premises of 10_state.md R36 REINIT establishes it and every transition
keeps it. -/
def Obligations.IdleMeansEmptyTxq : Prop :=
  (∀ s t : State, s.Ready .reinit → exec .reinit s = .next t → t.IdleEmpty) ∧
  ∀ s t : State, s.TxPremises → s.IdleEmpty → step s = .next t → t.TxPremises ∧ t.IdleEmpty

/-- Busy matches an outstanding byte or its pending event, never both: under the premises of 10_state.md R37, on an
unfaulted block, every transition keeps it and none raises F_SINK_OVERRUN. Premise (d) asks only that a REINIT this very
transition issues finds the transmitter quiet. That the block is unfaulted is a premise the rule leaves unsaid (log 16). -/
def Obligations.BusyMatchesTransmitter : Prop :=
  ∀ s t : State, s.TxPremises → s.faultCode = 0 → s.IdleEmpty → s.BusyMatches → s.ReinitQuiet → step s = .next t →
    t.BusyMatches ∧ t.faultCode ≠ 6

/-- Wire order: what was written and what waits in TXQ are together the submitted bytes in the order they were submitted;
under the premises of 10_state.md R37, which allow a later REINIT issued while the transmitter is quiet, every transition
keeps this, one that records a fault and one of a faulted block included (41_transmit.md R139). -/
def Obligations.WireOrderKept : Prop :=
  ∀ s t : State, s.Inv → s.WireOrdered → s.ReinitQuiet → step s = .next t → t.WireOrdered

/-- After every transition under the premises of 10_state.md R37, one that records a fault or issues a quiet REINIT
included, the bytes written are a prefix of the submitted ones, and when the run has then ended well they are all of the
program's submitted bytes (41_transmit.md R139). -/
def Obligations.WireIsPrefixOfSubmitted : Prop :=
  ∀ s t : State, s.Inv → s.WireOrdered → s.ReinitQuiet → step s = .next t →
    t.wireOut <+: submitted t.presented ∧ (t.endsWell = true → t.wireOut = submitted t.mainline.prog)

/-- From a clean launch the first REINIT establishes wire order for a program without raw transmit-queue words, whatever the
line will deliver and whether or not a later REINIT is to come (41_transmit.md R139, 70_reset_and_hazards.md R232). -/
def Obligations.CleanLaunchEstablishesWireOrder : Prop :=
  ∀ s : State, s.CleanLaunch → (∀ w ∈ s.mainline.prog.tail, rawTxWord w = false) →
    ∃ t, step s = .next t ∧ t.WireOrdered

/-- REINIT while a byte is outstanding and then SUBMITBYTE: the Idle path finds the transmitter busy and records
F_SINK_OVERRUN (70_reset_and_hazards.md R236, trace 1). -/
def Obligations.ReinitWhileTransmittingOverruns : Prop :=
  ∀ (s : State) (b : Byte), s.Ready .reinit → s.txShift ≠ none →
    ∃ t u, exec .reinit s = .next t ∧ exec (.submitByte b) t = .next u ∧ u.faultCode = 6 ∧ u.faultPort = .main ∧
      u.faultWord = encode (.submitByte b) ∧ u.wireOut = s.wireOut

/-! ## Holds -/

/-- With interrupts disabled no hold ever ends: in a system run a held main-line command is still held after any transition,
at the same program index (70_reset_and_hazards.md R235). -/
def Obligations.HoldWithoutInterruptsNeverEnds : Prop :=
  ∀ s t : State, s.config = .system → s.irqEnabled = false → s.holding → step s = .next t →
    t.holding ∧ t.mainline = s.mainline ∧ t.irqEnabled = false ∧ t.config = .system

/-- A held SUBMITBYTE eventually completes: in every weakly fair system run with interrupts enabled, from an unfaulted state
that meets the premises of 10_state.md R36 and R37 and whose main-line command is a SUBMITBYTE, the program index advances
past it (60_exceptions.md R201, R197). The spec's fairness is the predicate `WeaklyFair` (log 8), and a run that stops
(log 7) repeats its last state. -/
def Obligations.HeldSubmitEventuallyCompletes : Prop :=
  ∀ (run : Nat → State) (w : Word) (b : Byte), IsRun run → WeaklyFair run → (run 0).Inv → (run 0).TxPremises →
    (run 0).faultCode = 0 → (run 0).IdleEmpty → (run 0).BusyMatches → (run 0).irqEnabled = true →
    (run 0).mainline.current = some w → decode w = .cmd (.submitByte b) →
    ∃ n, (run n).mainline.idx = (run 0).mainline.idx + 1

/-- A held RETRIEVEBYTE completes if and only if a byte is later accepted into RXQ, in every weakly fair system run from an
unfaulted, initialised state that meets the premises of 10_state.md R36 and R37 (60_exceptions.md R201, R197). The spec's
fairness is the predicate `WeaklyFair` (log 8), and a run that stops (log 7) repeats its last state. -/
def Obligations.HeldRetrieveCompletesIffByteAccepted : Prop :=
  ∀ (run : Nat → State) (w : Word), IsRun run → WeaklyFair run → (run 0).Inv → (run 0).TxPremises →
    (run 0).faultCode = 0 → (run 0).IdleEmpty → (run 0).BusyMatches → (run 0).irqEnabled = true →
    (run 0).mainline.current = some w → decode w = .cmd .retrieveByte → (run 0).rxq.cnt = 0 →
    ((∃ n, (run n).mainline.idx = (run 0).mainline.idx + 1) ↔ ∃ n, 0 < (run n).rxq.cnt)
end

