-- ==== Sys2Proof/Laws/State.lean ====
section
/-! SUPPORT. What each named update of the state leaves in each field: one lemma a field and update, each true by
definition. -/

namespace Sys2Proof.Machine

variable (s : State)

/-! `State.respond` -/

@[simp] theorem State.respond_rxq (v : Word) : (s.respond v).rxq = s.rxq := rfl
@[simp] theorem State.respond_txq (v : Word) : (s.respond v).txq = s.txq := rfl
@[simp] theorem State.respond_txState (v : Word) : (s.respond v).txState = s.txState := rfl
@[simp] theorem State.respond_initDone (v : Word) : (s.respond v).initDone = s.initDone := rfl
@[simp] theorem State.respond_rxOvfCnt (v : Word) : (s.respond v).rxOvfCnt = s.rxOvfCnt := rfl
@[simp] theorem State.respond_faultCode (v : Word) : (s.respond v).faultCode = s.faultCode := rfl
@[simp] theorem State.respond_faultPort (v : Word) : (s.respond v).faultPort = s.faultPort := rfl
@[simp] theorem State.respond_faultWord (v : Word) : (s.respond v).faultWord = s.faultWord := rfl
@[simp] theorem State.respond_txShift (v : Word) : (s.respond v).txShift = s.txShift := rfl
@[simp] theorem State.respond_txReadyPending (v : Word) : (s.respond v).txReadyPending = s.txReadyPending := rfl
@[simp] theorem State.respond_rxPending (v : Word) : (s.respond v).rxPending = s.rxPending := rfl
@[simp] theorem State.respond_wireOut (v : Word) : (s.respond v).wireOut = s.wireOut := rfl
@[simp] theorem State.respond_wireIn (v : Word) : (s.respond v).wireIn = s.wireIn := rfl
@[simp] theorem State.respond_irqEnabled (v : Word) : (s.respond v).irqEnabled = s.irqEnabled := rfl
@[simp] theorem State.respond_config (v : Word) : (s.respond v).config = s.config := rfl
@[simp] theorem State.respond_mainline (v : Word) : (s.respond v).mainline = s.mainline := rfl
@[simp] theorem State.respond_irqHarness (v : Word) : (s.respond v).irqHarness = s.irqHarness := rfl
@[simp] theorem State.respond_context (v : Word) : (s.respond v).context = s.context := rfl
@[simp] theorem State.respond_response (v : Word) : (s.respond v).response = some ⟨false, v⟩ := rfl
@[simp] theorem State.respond_schedule (v : Word) : (s.respond v).schedule = s.schedule := rfl
@[simp] theorem State.respond_tick (v : Word) : (s.respond v).tick = s.tick := rfl

/-! `State.respondErr` -/

@[simp] theorem State.respondErr_rxq : s.respondErr.rxq = s.rxq := rfl
@[simp] theorem State.respondErr_txq : s.respondErr.txq = s.txq := rfl
@[simp] theorem State.respondErr_txState : s.respondErr.txState = s.txState := rfl
@[simp] theorem State.respondErr_initDone : s.respondErr.initDone = s.initDone := rfl
@[simp] theorem State.respondErr_rxOvfCnt : s.respondErr.rxOvfCnt = s.rxOvfCnt := rfl
@[simp] theorem State.respondErr_faultCode : s.respondErr.faultCode = s.faultCode := rfl
@[simp] theorem State.respondErr_faultPort : s.respondErr.faultPort = s.faultPort := rfl
@[simp] theorem State.respondErr_faultWord : s.respondErr.faultWord = s.faultWord := rfl
@[simp] theorem State.respondErr_txShift : s.respondErr.txShift = s.txShift := rfl
@[simp] theorem State.respondErr_txReadyPending : s.respondErr.txReadyPending = s.txReadyPending := rfl
@[simp] theorem State.respondErr_rxPending : s.respondErr.rxPending = s.rxPending := rfl
@[simp] theorem State.respondErr_wireOut : s.respondErr.wireOut = s.wireOut := rfl
@[simp] theorem State.respondErr_wireIn : s.respondErr.wireIn = s.wireIn := rfl
@[simp] theorem State.respondErr_irqEnabled : s.respondErr.irqEnabled = s.irqEnabled := rfl
@[simp] theorem State.respondErr_config : s.respondErr.config = s.config := rfl
@[simp] theorem State.respondErr_mainline : s.respondErr.mainline = s.mainline := rfl
@[simp] theorem State.respondErr_irqHarness : s.respondErr.irqHarness = s.irqHarness := rfl
@[simp] theorem State.respondErr_context : s.respondErr.context = s.context := rfl
@[simp] theorem State.respondErr_response : s.respondErr.response = some ⟨true, 0⟩ := rfl
@[simp] theorem State.respondErr_schedule : s.respondErr.schedule = s.schedule := rfl
@[simp] theorem State.respondErr_tick : s.respondErr.tick = s.tick := rfl

/-! `State.hold` -/

@[simp] theorem State.hold_rxq : s.hold.rxq = s.rxq := rfl
@[simp] theorem State.hold_txq : s.hold.txq = s.txq := rfl
@[simp] theorem State.hold_txState : s.hold.txState = s.txState := rfl
@[simp] theorem State.hold_initDone : s.hold.initDone = s.initDone := rfl
@[simp] theorem State.hold_rxOvfCnt : s.hold.rxOvfCnt = s.rxOvfCnt := rfl
@[simp] theorem State.hold_faultCode : s.hold.faultCode = s.faultCode := rfl
@[simp] theorem State.hold_faultPort : s.hold.faultPort = s.faultPort := rfl
@[simp] theorem State.hold_faultWord : s.hold.faultWord = s.faultWord := rfl
@[simp] theorem State.hold_txShift : s.hold.txShift = s.txShift := rfl
@[simp] theorem State.hold_txReadyPending : s.hold.txReadyPending = s.txReadyPending := rfl
@[simp] theorem State.hold_rxPending : s.hold.rxPending = s.rxPending := rfl
@[simp] theorem State.hold_wireOut : s.hold.wireOut = s.wireOut := rfl
@[simp] theorem State.hold_wireIn : s.hold.wireIn = s.wireIn := rfl
@[simp] theorem State.hold_irqEnabled : s.hold.irqEnabled = s.irqEnabled := rfl
@[simp] theorem State.hold_config : s.hold.config = s.config := rfl
@[simp] theorem State.hold_mainline : s.hold.mainline = s.mainline := rfl
@[simp] theorem State.hold_irqHarness : s.hold.irqHarness = s.irqHarness := rfl
@[simp] theorem State.hold_context : s.hold.context = s.context := rfl
@[simp] theorem State.hold_response : s.hold.response = none := rfl
@[simp] theorem State.hold_schedule : s.hold.schedule = s.schedule := rfl
@[simp] theorem State.hold_tick : s.hold.tick = s.tick := rfl

/-! `State.enter` -/

@[simp] theorem State.enter_rxq (p : Port) : (s.enter p).rxq = s.rxq := rfl
@[simp] theorem State.enter_txq (p : Port) : (s.enter p).txq = s.txq := rfl
@[simp] theorem State.enter_txState (p : Port) : (s.enter p).txState = s.txState := rfl
@[simp] theorem State.enter_initDone (p : Port) : (s.enter p).initDone = s.initDone := rfl
@[simp] theorem State.enter_rxOvfCnt (p : Port) : (s.enter p).rxOvfCnt = s.rxOvfCnt := rfl
@[simp] theorem State.enter_faultCode (p : Port) : (s.enter p).faultCode = s.faultCode := rfl
@[simp] theorem State.enter_faultPort (p : Port) : (s.enter p).faultPort = s.faultPort := rfl
@[simp] theorem State.enter_faultWord (p : Port) : (s.enter p).faultWord = s.faultWord := rfl
@[simp] theorem State.enter_txShift (p : Port) : (s.enter p).txShift = s.txShift := rfl
@[simp] theorem State.enter_txReadyPending (p : Port) : (s.enter p).txReadyPending = s.txReadyPending := rfl
@[simp] theorem State.enter_rxPending (p : Port) : (s.enter p).rxPending = s.rxPending := rfl
@[simp] theorem State.enter_wireOut (p : Port) : (s.enter p).wireOut = s.wireOut := rfl
@[simp] theorem State.enter_wireIn (p : Port) : (s.enter p).wireIn = s.wireIn := rfl
@[simp] theorem State.enter_irqEnabled (p : Port) : (s.enter p).irqEnabled = s.irqEnabled := rfl
@[simp] theorem State.enter_config (p : Port) : (s.enter p).config = s.config := rfl
@[simp] theorem State.enter_mainline (p : Port) : (s.enter p).mainline = s.mainline := rfl
@[simp] theorem State.enter_irqHarness (p : Port) : (s.enter p).irqHarness = s.irqHarness := rfl
@[simp] theorem State.enter_context (p : Port) : (s.enter p).context = p := rfl
@[simp] theorem State.enter_response (p : Port) : (s.enter p).response = s.response := rfl
@[simp] theorem State.enter_schedule (p : Port) : (s.enter p).schedule = s.schedule := rfl
@[simp] theorem State.enter_tick (p : Port) : (s.enter p).tick = s.tick := rfl

/-! `State.leave` -/

@[simp] theorem State.leave_rxq : s.leave.rxq = s.rxq := rfl
@[simp] theorem State.leave_txq : s.leave.txq = s.txq := rfl
@[simp] theorem State.leave_txState : s.leave.txState = s.txState := rfl
@[simp] theorem State.leave_initDone : s.leave.initDone = s.initDone := rfl
@[simp] theorem State.leave_rxOvfCnt : s.leave.rxOvfCnt = s.rxOvfCnt := rfl
@[simp] theorem State.leave_faultCode : s.leave.faultCode = s.faultCode := rfl
@[simp] theorem State.leave_faultPort : s.leave.faultPort = s.faultPort := rfl
@[simp] theorem State.leave_faultWord : s.leave.faultWord = s.faultWord := rfl
@[simp] theorem State.leave_txShift : s.leave.txShift = s.txShift := rfl
@[simp] theorem State.leave_txReadyPending : s.leave.txReadyPending = s.txReadyPending := rfl
@[simp] theorem State.leave_rxPending : s.leave.rxPending = s.rxPending := rfl
@[simp] theorem State.leave_wireOut : s.leave.wireOut = s.wireOut := rfl
@[simp] theorem State.leave_wireIn : s.leave.wireIn = s.wireIn := rfl
@[simp] theorem State.leave_irqEnabled : s.leave.irqEnabled = s.irqEnabled := rfl
@[simp] theorem State.leave_config : s.leave.config = s.config := rfl
@[simp] theorem State.leave_mainline : s.leave.mainline = s.mainline := rfl
@[simp] theorem State.leave_irqHarness : s.leave.irqHarness = s.irqHarness := rfl
@[simp] theorem State.leave_context : s.leave.context = .main := rfl
@[simp] theorem State.leave_response : s.leave.response = s.response := rfl
@[simp] theorem State.leave_schedule : s.leave.schedule = s.schedule := rfl
@[simp] theorem State.leave_tick : s.leave.tick = s.tick := rfl

/-! `State.raise` -/

@[simp] theorem State.raise_rxq (c : FaultCause) (w : Word) : (s.raise c w).rxq = s.rxq := rfl
@[simp] theorem State.raise_txq (c : FaultCause) (w : Word) : (s.raise c w).txq = s.txq := rfl
@[simp] theorem State.raise_txState (c : FaultCause) (w : Word) : (s.raise c w).txState = s.txState := rfl
@[simp] theorem State.raise_initDone (c : FaultCause) (w : Word) : (s.raise c w).initDone = s.initDone := rfl
@[simp] theorem State.raise_rxOvfCnt (c : FaultCause) (w : Word) : (s.raise c w).rxOvfCnt = s.rxOvfCnt := rfl
@[simp] theorem State.raise_faultCode (c : FaultCause) (w : Word) :
    (s.raise c w).faultCode = if s.faultCode = 0 then c.code else s.faultCode := rfl
@[simp] theorem State.raise_faultPort (c : FaultCause) (w : Word) :
    (s.raise c w).faultPort = if s.faultCode = 0 then s.context else s.faultPort := rfl
@[simp] theorem State.raise_faultWord (c : FaultCause) (w : Word) :
    (s.raise c w).faultWord = if s.faultCode = 0 then w else s.faultWord := rfl
@[simp] theorem State.raise_txShift (c : FaultCause) (w : Word) : (s.raise c w).txShift = s.txShift := rfl
@[simp] theorem State.raise_txReadyPending (c : FaultCause) (w : Word) : (s.raise c w).txReadyPending = s.txReadyPending := rfl
@[simp] theorem State.raise_rxPending (c : FaultCause) (w : Word) : (s.raise c w).rxPending = s.rxPending := rfl
@[simp] theorem State.raise_wireOut (c : FaultCause) (w : Word) : (s.raise c w).wireOut = s.wireOut := rfl
@[simp] theorem State.raise_wireIn (c : FaultCause) (w : Word) : (s.raise c w).wireIn = s.wireIn := rfl
@[simp] theorem State.raise_irqEnabled (c : FaultCause) (w : Word) : (s.raise c w).irqEnabled = s.irqEnabled := rfl
@[simp] theorem State.raise_config (c : FaultCause) (w : Word) : (s.raise c w).config = s.config := rfl
@[simp] theorem State.raise_mainline (c : FaultCause) (w : Word) : (s.raise c w).mainline = s.mainline := rfl
@[simp] theorem State.raise_irqHarness (c : FaultCause) (w : Word) : (s.raise c w).irqHarness = s.irqHarness := rfl
@[simp] theorem State.raise_context (c : FaultCause) (w : Word) : (s.raise c w).context = s.context := rfl
@[simp] theorem State.raise_response (c : FaultCause) (w : Word) : (s.raise c w).response = some ⟨true, 0⟩ := rfl
@[simp] theorem State.raise_schedule (c : FaultCause) (w : Word) : (s.raise c w).schedule = s.schedule := rfl
@[simp] theorem State.raise_tick (c : FaultCause) (w : Word) : (s.raise c w).tick = s.tick := rfl

/-! `State.passTurn` -/

@[simp] theorem State.passTurn_rxq : s.passTurn.rxq = s.rxq := rfl
@[simp] theorem State.passTurn_txq : s.passTurn.txq = s.txq := rfl
@[simp] theorem State.passTurn_txState : s.passTurn.txState = s.txState := rfl
@[simp] theorem State.passTurn_initDone : s.passTurn.initDone = s.initDone := rfl
@[simp] theorem State.passTurn_rxOvfCnt : s.passTurn.rxOvfCnt = s.rxOvfCnt := rfl
@[simp] theorem State.passTurn_faultCode : s.passTurn.faultCode = s.faultCode := rfl
@[simp] theorem State.passTurn_faultPort : s.passTurn.faultPort = s.faultPort := rfl
@[simp] theorem State.passTurn_faultWord : s.passTurn.faultWord = s.faultWord := rfl
@[simp] theorem State.passTurn_txShift : s.passTurn.txShift = s.txShift := rfl
@[simp] theorem State.passTurn_txReadyPending : s.passTurn.txReadyPending = s.txReadyPending := rfl
@[simp] theorem State.passTurn_rxPending : s.passTurn.rxPending = s.rxPending := rfl
@[simp] theorem State.passTurn_wireOut : s.passTurn.wireOut = s.wireOut := rfl
@[simp] theorem State.passTurn_wireIn : s.passTurn.wireIn = s.wireIn := rfl
@[simp] theorem State.passTurn_irqEnabled : s.passTurn.irqEnabled = s.irqEnabled := rfl
@[simp] theorem State.passTurn_config : s.passTurn.config = s.config := rfl
@[simp] theorem State.passTurn_mainline : s.passTurn.mainline = s.mainline := rfl
@[simp] theorem State.passTurn_irqHarness : s.passTurn.irqHarness = s.irqHarness := rfl
@[simp] theorem State.passTurn_context : s.passTurn.context = s.context := rfl
@[simp] theorem State.passTurn_response : s.passTurn.response = s.response := rfl
@[simp] theorem State.passTurn_schedule : s.passTurn.schedule = s.schedule.tail := rfl
@[simp] theorem State.passTurn_tick : s.passTurn.tick = s.tick + 1 := rfl

/-! `State.setQueue` -/

variable (sel : QueueSel) (q : Queue)

@[simp] theorem State.setQueue_rxq_rxq : (s.setQueue .rxq q).rxq = q := rfl
@[simp] theorem State.setQueue_rxq_txq : (s.setQueue .rxq q).txq = s.txq := rfl
@[simp] theorem State.setQueue_txq_rxq : (s.setQueue .txq q).rxq = s.rxq := rfl
@[simp] theorem State.setQueue_txq_txq : (s.setQueue .txq q).txq = q := rfl
@[simp] theorem State.setQueue_txState : (s.setQueue sel q).txState = s.txState := by cases sel <;> rfl
@[simp] theorem State.setQueue_initDone : (s.setQueue sel q).initDone = s.initDone := by cases sel <;> rfl
@[simp] theorem State.setQueue_rxOvfCnt : (s.setQueue sel q).rxOvfCnt = s.rxOvfCnt := by cases sel <;> rfl
@[simp] theorem State.setQueue_faultCode : (s.setQueue sel q).faultCode = s.faultCode := by cases sel <;> rfl
@[simp] theorem State.setQueue_faultPort : (s.setQueue sel q).faultPort = s.faultPort := by cases sel <;> rfl
@[simp] theorem State.setQueue_faultWord : (s.setQueue sel q).faultWord = s.faultWord := by cases sel <;> rfl
@[simp] theorem State.setQueue_txShift : (s.setQueue sel q).txShift = s.txShift := by cases sel <;> rfl
@[simp] theorem State.setQueue_txReadyPending : (s.setQueue sel q).txReadyPending = s.txReadyPending := by cases sel <;> rfl
@[simp] theorem State.setQueue_rxPending : (s.setQueue sel q).rxPending = s.rxPending := by cases sel <;> rfl
@[simp] theorem State.setQueue_wireOut : (s.setQueue sel q).wireOut = s.wireOut := by cases sel <;> rfl
@[simp] theorem State.setQueue_wireIn : (s.setQueue sel q).wireIn = s.wireIn := by cases sel <;> rfl
@[simp] theorem State.setQueue_irqEnabled : (s.setQueue sel q).irqEnabled = s.irqEnabled := by cases sel <;> rfl
@[simp] theorem State.setQueue_config : (s.setQueue sel q).config = s.config := by cases sel <;> rfl
@[simp] theorem State.setQueue_mainline : (s.setQueue sel q).mainline = s.mainline := by cases sel <;> rfl
@[simp] theorem State.setQueue_irqHarness : (s.setQueue sel q).irqHarness = s.irqHarness := by cases sel <;> rfl
@[simp] theorem State.setQueue_context : (s.setQueue sel q).context = s.context := by cases sel <;> rfl
@[simp] theorem State.setQueue_response : (s.setQueue sel q).response = s.response := by cases sel <;> rfl
@[simp] theorem State.setQueue_schedule : (s.setQueue sel q).schedule = s.schedule := by cases sel <;> rfl
@[simp] theorem State.setQueue_tick : (s.setQueue sel q).tick = s.tick := by cases sel <;> rfl

/-- The queue an operand names is the one it was set to. -/
@[simp] theorem State.queue_setQueue : (s.setQueue sel q).queue sel = q := by cases sel <;> rfl

/-- The other queue stays. -/
theorem State.queue_setQueue_of_ne {other : QueueSel} (h : other ≠ sel) : (s.setQueue sel q).queue other = s.queue other := by
  cases sel <;> cases other <;> simp_all [State.queue]

@[simp] theorem State.queue_rxq : s.queue .rxq = s.rxq := rfl
@[simp] theorem State.queue_txq : s.queue .txq = s.txq := rfl

end Sys2Proof.Machine
end

