-- ==== Sys2Proof/Laws/Queue.lean ====
section
/-! SUPPORT. The queue helpers of 40_queue.md R101 to R103: what each answers, and what it does to the invariants of
10_state.md R22 and R23, to the storage and to the live elements. -/

namespace Sys2Proof.Machine

variable {q q' : Queue} {v : Byte}

theorem Queue.cap_pos (q : Queue) : 0 < q.cap := Nat.succ_pos _

theorem Queue.lt_cap_iff {n : Nat} : n < q.cap ↔ n ≤ q.topSlot := Nat.lt_succ_iff

/-- What an enqueue answers. -/
theorem Queue.enqueue_eq_some_iff : q.enqueue v = some q' ↔
    q.wr < q.cap ∧ q' = { q with buf := Memory.write q.buf q.wr v, wr := q.advance q.wr, cnt := q.cnt + 1 } := by
  unfold Queue.enqueue Queue.memWrite
  by_cases h : q.wr ≤ q.topSlot <;> simp [h, Queue.lt_cap_iff, eq_comm]

/-- What a dequeue answers. -/
theorem Queue.dequeue_eq_some_iff : q.dequeue = some (v, q') ↔
    q.rd < q.cap ∧ v = Memory.read q.buf q.rd ∧ q' = { q with rd := q.advance q.rd, cnt := q.cnt - 1 } := by
  unfold Queue.dequeue Queue.memRead
  by_cases h : q.rd ≤ q.topSlot <;> simp [h, Queue.lt_cap_iff, eq_comm]

/-- An enqueue keeps the storage canonical and in range. -/
theorem Queue.Stored.enqueue (h : q.Stored) (he : q.enqueue v = some q') : q'.Stored := by
  obtain ⟨hw, rfl⟩ := Queue.enqueue_eq_some_iff.mp he
  refine ⟨Memory.wf_write h.canonical _ _, fun c hc => ?_⟩
  rcases Memory.mem_write hc with h1 | h1
  · exact h1.trans_le (Queue.lt_cap_iff.mp hw)
  · exact h.inRange c h1

/-- A dequeue does not touch the storage. -/
theorem Queue.Stored.dequeue (h : q.Stored) (he : q.dequeue = some (v, q')) : q'.Stored := by
  obtain ⟨-, -, rfl⟩ := Queue.dequeue_eq_some_iff.mp he
  exact ⟨h.canonical, h.inRange⟩

theorem Queue.Stored.resetFields (h : q.Stored) : q.resetFields.Stored := ⟨h.canonical, h.inRange⟩

/-- An enqueue under its precondition keeps the range and position invariants. -/
theorem Queue.Wf.enqueue (h : q.Wf) (hc : q.cnt < q.cap) (he : q.enqueue v = some q') : q'.Wf := by
  obtain ⟨-, rfl⟩ := Queue.enqueue_eq_some_iff.mp he
  refine ⟨h.rd_lt, Nat.mod_lt _ q.cap_pos, hc, ?_⟩
  change (q.wr + 1) % q.cap = (q.rd + (q.cnt + 1)) % q.cap
  rw [h.position, Nat.mod_add_mod, Nat.add_assoc]

/-- A dequeue under its precondition keeps the range and position invariants. -/
theorem Queue.Wf.dequeue (h : q.Wf) (hc : 0 < q.cnt) (he : q.dequeue = some (v, q')) : q'.Wf := by
  obtain ⟨-, -, rfl⟩ := Queue.dequeue_eq_some_iff.mp he
  refine ⟨Nat.mod_lt _ q.cap_pos, h.wr_lt, (Nat.sub_le _ _).trans h.cnt_le, ?_⟩
  change q.wr = ((q.rd + 1) % q.cap + (q.cnt - 1)) % q.cap
  rw [h.position, Nat.mod_add_mod]
  congr 1
  omega

theorem Queue.Wf.resetFields (q : Queue) : q.resetFields.Wf :=
  ⟨q.cap_pos, q.cap_pos, Nat.zero_le _, rfl⟩

@[simp] theorem Queue.live_resetFields (q : Queue) : q.resetFields.live = [] := rfl

@[simp] theorem Queue.length_live (q : Queue) : q.live.length = q.cnt := by simp [Queue.live]

/-- Two different positions of the live range are two different slots. -/
theorem Queue.slot_ne {rd cap k n : Nat} (hk : k < n) (hn : n < cap) : (rd + k) % cap ≠ (rd + n) % cap := by
  intro he
  have h : rd + k ≡ rd + n [MOD cap] := he
  have h' : k ≡ n [MOD cap] := Nat.ModEq.add_left_cancel' rd h
  have := Nat.ModEq.eq_of_lt_of_lt h' (by omega) hn
  omega

/-- An enqueue appends its byte to the live elements: none is overwritten (40_queue.md R101). -/
theorem Queue.Wf.live_enqueue (h : q.Wf) (hs : q.Stored) (hc : q.cnt < q.cap) (he : q.enqueue v = some q') :
    q'.live = q.live ++ [v] := by
  obtain ⟨-, rfl⟩ := Queue.enqueue_eq_some_iff.mp he
  have hlast : Memory.read (Memory.write q.buf q.wr v) ((q.rd + q.cnt) % q.cap) = v := by
    rw [h.position]
    exact Memory.read_write_same hs.canonical _ _
  change (List.range (q.cnt + 1)).map (fun k => Memory.read (Memory.write q.buf q.wr v) ((q.rd + k) % q.cap)) = _
  rw [List.range_succ, List.map_append, List.map_singleton, hlast]
  congr 1
  refine List.map_congr_left fun k hk => ?_
  rw [h.position]
  exact Memory.read_write_other _ _ (Queue.slot_ne (List.mem_range.mp hk) hc)

/-- A dequeue takes the oldest live element (40_queue.md R102). -/
theorem Queue.Wf.live_dequeue (h : q.Wf) (hc : 0 < q.cnt) (he : q.dequeue = some (v, q')) : q.live = v :: q'.live := by
  obtain ⟨-, rfl, rfl⟩ := Queue.dequeue_eq_some_iff.mp he
  obtain ⟨n, hn⟩ : ∃ n, q.cnt = n + 1 := ⟨q.cnt - 1, by omega⟩
  unfold Queue.live
  rw [hn, List.range_succ_eq_map, List.map_cons, List.map_map]
  congr 1
  · rw [Nat.add_zero, Nat.mod_eq_of_lt h.rd_lt]
  · refine List.map_congr_left fun k _ => ?_
    change Memory.read q.buf ((q.rd + (k + 1)) % q.cap) = Memory.read q.buf (((q.rd + 1) % q.cap + k) % q.cap)
    rw [Nat.mod_add_mod, Nat.add_assoc, Nat.add_comm 1 k]

/-- Under the invariants and its precondition an enqueue answers. -/
theorem Queue.Wf.enqueue_answers (h : q.Wf) (v : Byte) : q.enqueue v =
    some { q with buf := Memory.write q.buf q.wr v, wr := q.advance q.wr, cnt := q.cnt + 1 } :=
  Queue.enqueue_eq_some_iff.mpr ⟨h.wr_lt, rfl⟩

/-- Under the invariants a dequeue answers. -/
theorem Queue.Wf.dequeue_answers (h : q.Wf) : q.dequeue =
    some (Memory.read q.buf q.rd, { q with rd := q.advance q.rd, cnt := q.cnt - 1 }) :=
  Queue.dequeue_eq_some_iff.mpr ⟨h.rd_lt, rfl, rfl⟩

/-- A queue that is not empty starts with the byte at its read index. -/
theorem Queue.Wf.head_live (h : q.Wf) (hc : 0 < q.cnt) : q.live.head? = some (Memory.read q.buf q.rd) := by
  simp [h.live_dequeue hc h.dequeue_answers]

theorem Queue.isEmpty_iff : q.isEmpty = true ↔ q.cnt = 0 := by simp [Queue.isEmpty]

theorem Queue.isFull_iff : q.isFull = true ↔ q.cnt = q.cap := by simp [Queue.isFull]

/-- A queue that is not full has room. -/
theorem Queue.Wf.lt_cap_of_not_full (h : q.Wf) (hf : q.isFull = false) : q.cnt < q.cap := by
  have := h.cnt_le
  simp [Queue.isFull] at hf
  omega

/-- A queue that is not empty holds an element. -/
theorem Queue.pos_of_not_empty (h : q.isEmpty = false) : 0 < q.cnt := by
  simp [Queue.isEmpty] at h
  omega

end Sys2Proof.Machine
end

