-- ==== Sys2Proof/Laws/Ops.lean ====
section
/-! SUPPORT. What each shared operation can do: the prologue, storage results, the sink, the two storage operations on the
state. Cited instead of unfolding them. -/

namespace Sys2Proof.Machine

variable {s t : State} {i : Instr} {body : State → Result}

/-- A ready command runs its own rule (30_encoding.md R84). -/
theorem prologue_of_ready (h : s.Ready i) : prologue i s body = body s := by
  obtain ⟨h1, h2, h3⟩ := h
  unfold prologue
  rcases h3 with h3 | h3 <;> simp [h1, h2, h3]

/-- STATUS runs on every block (42_facade.md R153). -/
theorem prologue_status : prologue .status s body = body s := by
  unfold prologue permitted initExempt
  by_cases h : s.faultCode = 0 <;> simp [h]

/-- A faulted block refuses every other command (60_exceptions.md R182). -/
theorem prologue_of_faulted (h : s.faultCode ≠ 0) (hi : i ≠ .status) : prologue i s body = .next s.respondErr := by
  rw [prologue, if_pos h, if_neg hi]

/-- A command on a port that does not permit it raises F_CONTEXT (30_encoding.md R84). -/
theorem prologue_of_not_permitted (h : s.faultCode = 0) (hp : permitted s.context i = false) :
    prologue i s body = .next (s.raise .context (encode i)) := by
  simp [prologue, h, hp]

/-- A command before the first REINIT raises F_NOT_INIT (30_encoding.md R84). -/
theorem prologue_of_not_init (h : s.faultCode = 0) (hp : permitted s.context i = true) (hn : s.initDone = false)
    (he : initExempt i = false) : prologue i s body = .next (s.raise .notInit (encode i)) := by
  simp [prologue, h, hp, hn, he]

/-- The ways through the prologue: refused by a faulted block, one of the two prologue faults, or the command's own rule,
which a command other than STATUS reaches only when ready. -/
theorem prologue_cases (i : Instr) (s : State) (body : State → Result) :
    (s.faultCode ≠ 0 ∧ i ≠ .status ∧ prologue i s body = .next s.respondErr) ∨
    (s.faultCode = 0 ∧ permitted s.context i = false ∧ prologue i s body = .next (s.raise .context (encode i))) ∨
    (s.faultCode = 0 ∧ permitted s.context i = true ∧ s.initDone = false ∧ initExempt i = false ∧
      prologue i s body = .next (s.raise .notInit (encode i))) ∨
    ((i = .status ∨ s.Ready i) ∧ prologue i s body = body s) := by
  by_cases hi : i = .status
  · subst hi
    exact .inr (.inr (.inr ⟨.inl rfl, prologue_status⟩))
  by_cases hf : s.faultCode = 0
  · by_cases hp : permitted s.context i = true
    · by_cases hn : s.initDone = false ∧ initExempt i = false
      · exact .inr (.inr (.inl ⟨hf, hp, hn.1, hn.2, prologue_of_not_init hf hp hn.1 hn.2⟩))
      · have hr : s.Ready i := ⟨hf, hp, by
          cases hd : s.initDone <;> cases he : initExempt i <;> simp_all⟩
        exact .inr (.inr (.inr ⟨.inr hr, prologue_of_ready hr⟩))
    · have hp' : permitted s.context i = false := by simpa using hp
      exact .inr (.inl ⟨hf, hp', prologue_of_not_permitted hf hp'⟩)
  · exact .inl ⟨hf, hi, prologue_of_faulted hf hi⟩

theorem ofStorage_eq_next_iff {o : Option State} : ofStorage o = .next t ↔ o = some t := by
  cases o <;> simp [ofStorage]

theorem andThen_eq_next_iff {r : Result} {f : State → Result} :
    Result.andThen r f = .next t ↔ ∃ u, r = .next u ∧ f u = .next t := by
  cases r <;> simp [Result.andThen]

/-- What a sink write answers (41_transmit.md R135). -/
theorem State.sinkWrite_eq_some_iff {b : Byte} : s.sinkWrite b = some t ↔
    s.txShift = none ∧ t = { s with txShift := some b, wireOut := s.wireOut ++ [b] } := by
  unfold State.sinkWrite
  cases h : s.txShift <;> simp [eq_comm]

theorem State.sinkWrite_eq_none_iff {b : Byte} : s.sinkWrite b = none ↔ s.txShift ≠ none := by
  unfold State.sinkWrite
  cases h : s.txShift <;> simp

theorem State.enqueue_eq_some_iff {sel : QueueSel} {v : Byte} : s.enqueue sel v = some t ↔
    ∃ q, (s.queue sel).enqueue v = some q ∧ t = s.setQueue sel q := by
  unfold State.enqueue
  cases h : (s.queue sel).enqueue v <;> simp [eq_comm]

theorem State.dequeue_eq_some_iff {sel : QueueSel} {v : Byte} : s.dequeue sel = some (v, t) ↔
    ∃ q, (s.queue sel).dequeue = some (v, q) ∧ t = s.setQueue sel q := by
  unfold State.dequeue
  cases h : (s.queue sel).dequeue with
  | none => simp
  | some p =>
    obtain ⟨w, q⟩ := p
    simp only [Option.some.injEq, Prod.mk.injEq]
    constructor
    · rintro ⟨rfl, rfl⟩
      exact ⟨q, ⟨rfl, rfl⟩, rfl⟩
    · rintro ⟨q', ⟨rfl, rfl⟩, rfl⟩
      exact ⟨rfl, rfl⟩

/-- The saturating counter never wraps (10_state.md R29). -/
theorem satSucc_toNat (c : Word) : (satSucc c).toNat = min (c.toNat + 1) 0xFFFF := by
  unfold satSucc
  rw [BitVec.toNat_ofNat]
  omega

end Sys2Proof.Machine
end

