-- ==== Sys2Proof/Laws/Exec.lean ====
section
/-! SUPPORT. What a command can do, said once: `exec_next` lists every way `exec` answers a next state, and later proofs
cite it instead of unfolding the meanings. -/

namespace Sys2Proof.Machine

/-- The effect of a command's own rule when it completes or holds: the next state in terms of the state before
(40_queue.md R105 to R109, 41_transmit.md R130 to R134, 42_facade.md R150 to R154). -/
def Ran (i : Instr) (s t : State) : Prop :=
  match i with
  | .qempty q => t = s.respond (boolValue (s.queue q).isEmpty)
  | .qfull q => t = s.respond (boolValue (s.queue q).isFull)
  | .qenq q b => (s.queue q).isFull = false ∧ ∃ Q, (s.queue q).enqueue b = some Q ∧ t = (s.setQueue q Q).respond 0x0000
  | .qdeq q => (s.queue q).isEmpty = false ∧
      ∃ v Q, (s.queue q).dequeue = some (v, Q) ∧ t = (s.setQueue q Q).respond (byteValue v)
  | .qreset q => t = (s.setQueue q (s.queue q).resetFields).respond 0x0000
  | .submitByte b =>
      (s.txState = .idle ∧ s.txShift = none ∧
        t = State.respond 0x0000 { s with txShift := some b, wireOut := s.wireOut ++ [b], txState := .busy }) ∨
      (s.txState = .busy ∧ s.txq.isFull = true ∧ t = s.hold) ∨
      (s.txState = .busy ∧ s.txq.isFull = false ∧ ∃ Q, s.txq.enqueue b = some Q ∧
        t = State.respond 0x0000 { s with txq := Q })
  | .onReadyForNext =>
      (s.txq.isEmpty = true ∧ t = State.respond 0x0000 { s with txState := .idle }) ∨
      (s.txq.isEmpty = false ∧ ∃ v Q, s.txq.dequeue = some (v, Q) ∧
        t = State.respond (byteValue v) { s with txq := Q, txState := .busy })
  | .reinit => t = State.respond 0x0000
      { s with rxq := s.rxq.resetFields, txq := s.txq.resetFields, txState := .idle, rxOvfCnt := 0, initDone := true }
  | .retrieveByte =>
      (s.rxq.isEmpty = true ∧ t = s.hold) ∨
      (s.rxq.isEmpty = false ∧ ∃ v Q, s.rxq.dequeue = some (v, Q) ∧
        t = State.respond (byteValue v) { s with rxq := Q })
  | .onByteReceived b =>
      (s.rxq.isFull = true ∧ t = State.respond 0x0001 { s with rxOvfCnt := satSucc s.rxOvfCnt }) ∨
      (s.rxq.isFull = false ∧ ∃ Q, s.rxq.enqueue b = some Q ∧ t = State.respond 0x0000 { s with rxq := Q })
  | .txstate => t = s.respond (stateValue s.txState)
  | .status => t = s.respond s.statusView
  | .rxovf => t = s.respond s.rxOvfCnt

/-- The fault a command's own rule raises, and when (40_queue.md R107, R108, 41_transmit.md R135). -/
def OwnFault (i : Instr) (s : State) (c : FaultCause) : Prop :=
  match i with
  | .qenq q _ => (s.queue q).isFull = true ∧ c = .queueFull
  | .qdeq q => (s.queue q).isEmpty = true ∧ c = .queueEmpty
  | .submitByte _ => s.txState = .idle ∧ s.txShift ≠ none ∧ c = .sinkOverrun
  | .qempty _ => False
  | .qfull _ => False
  | .qreset _ => False
  | .onReadyForNext => False
  | .reinit => False
  | .retrieveByte => False
  | .onByteReceived _ => False
  | .txstate => False
  | .status => False
  | .rxovf => False

/-- The ways a command answers a next state. -/
inductive Answer (i : Instr) (s t : State) : Prop where
  /-- refused by a faulted block (60_exceptions.md R182) -/
  | refused (faulted : s.faultCode ≠ 0) (notStatus : i ≠ .status) (result : t = s.respondErr)
  /-- F_CONTEXT -/
  | context (unfaulted : s.faultCode = 0) (port : permitted s.context i = false)
      (result : t = s.raise .context (encode i))
  /-- F_NOT_INIT -/
  | notInit (unfaulted : s.faultCode = 0) (port : permitted s.context i = true) (init : s.initDone = false)
      (exempt : initExempt i = false) (result : t = s.raise .notInit (encode i))
  /-- the fault of the command's own rule -/
  | own (ready : s.Ready i) (c : FaultCause) (cause : OwnFault i s c) (result : t = s.raise c (encode i))
  /-- the command's own rule -/
  | ran (ready : i = .status ∨ s.Ready i) (result : Ran i s t)

theorem exec_ran_or_own {i : Instr} {s t : State} (hr : i = .status ∨ s.Ready i) (h : exec i s = .next t) :
    (∃ c, s.Ready i ∧ OwnFault i s c ∧ t = s.raise c (encode i)) ∨ Ran i s t := by
  cases i with
  | status =>
    simp only [exec, execStatus, prologue_status, Host.Outcome.next.injEq] at h
    exact .inr h.symm
  | qempty q =>
    simp only [exec, execQempty, prologue_of_ready (hr.resolve_left (by simp)), Host.Outcome.next.injEq] at h
    exact .inr h.symm
  | qfull q =>
    simp only [exec, execQfull, prologue_of_ready (hr.resolve_left (by simp)), Host.Outcome.next.injEq] at h
    exact .inr h.symm
  | qreset q =>
    simp only [exec, execQreset, prologue_of_ready (hr.resolve_left (by simp)), Host.Outcome.next.injEq] at h
    exact .inr h.symm
  | reinit =>
    simp only [exec, execReinit, prologue_of_ready (hr.resolve_left (by simp)), Host.Outcome.next.injEq] at h
    exact .inr h.symm
  | txstate =>
    simp only [exec, execTxstate, prologue_of_ready (hr.resolve_left (by simp)), Host.Outcome.next.injEq] at h
    exact .inr h.symm
  | rxovf =>
    simp only [exec, execRxovf, prologue_of_ready (hr.resolve_left (by simp)), Host.Outcome.next.injEq] at h
    exact .inr h.symm
  | qenq q b =>
    have hr' := hr.resolve_left (by simp)
    simp only [exec, execQenq, prologue_of_ready hr'] at h
    split at h
    · rename_i hf
      exact .inl ⟨.queueFull, hr', ⟨hf, rfl⟩, by simpa using h.symm⟩
    · rename_i hf
      obtain ⟨u, hu, rfl⟩ := Option.map_eq_some_iff.mp (ofStorage_eq_next_iff.mp h)
      obtain ⟨Q, hQ, rfl⟩ := State.enqueue_eq_some_iff.mp hu
      exact .inr ⟨by simpa using hf, Q, hQ, rfl⟩
  | qdeq q =>
    have hr' := hr.resolve_left (by simp)
    simp only [exec, execQdeq, prologue_of_ready hr'] at h
    split at h
    · rename_i hf
      exact .inl ⟨.queueEmpty, hr', ⟨hf, rfl⟩, by simpa using h.symm⟩
    · rename_i hf
      obtain ⟨⟨v, u⟩, hu, rfl⟩ := Option.map_eq_some_iff.mp (ofStorage_eq_next_iff.mp h)
      obtain ⟨Q, hQ, rfl⟩ := State.dequeue_eq_some_iff.mp hu
      exact .inr ⟨by simpa using hf, v, Q, hQ, rfl⟩
  | submitByte b =>
    have hr' := hr.resolve_left (by simp)
    simp only [exec, execSubmitByte, prologue_of_ready hr'] at h
    cases hs : s.txState with
    | idle =>
      simp only [hs] at h
      cases hw : s.sinkWrite b with
      | none =>
        simp only [hw, Host.Outcome.next.injEq] at h
        exact .inl ⟨.sinkOverrun, hr', ⟨hs, State.sinkWrite_eq_none_iff.mp hw, rfl⟩, h.symm⟩
      | some u =>
        simp only [hw, Host.Outcome.next.injEq] at h
        obtain ⟨hn, rfl⟩ := State.sinkWrite_eq_some_iff.mp hw
        exact .inr (.inl ⟨hs, hn, h.symm⟩)
    | busy =>
      simp only [hs] at h
      split at h
      · rename_i hf
        exact .inr (.inr (.inl ⟨hs, hf, by simpa using h.symm⟩))
      · rename_i hf
        obtain ⟨u, hu, rfl⟩ := Option.map_eq_some_iff.mp (ofStorage_eq_next_iff.mp h)
        obtain ⟨Q, hQ, rfl⟩ := State.enqueue_eq_some_iff.mp hu
        exact .inr (.inr (.inr ⟨hs, by simpa using hf, Q, hQ, rfl⟩))
  | onReadyForNext =>
    simp only [exec, execOnReadyForNext, prologue_of_ready (hr.resolve_left (by simp))] at h
    split at h
    · rename_i hf
      exact .inr (.inl ⟨hf, by simpa using h.symm⟩)
    · rename_i hf
      obtain ⟨⟨v, u⟩, hu, rfl⟩ := Option.map_eq_some_iff.mp (ofStorage_eq_next_iff.mp h)
      obtain ⟨Q, hQ, rfl⟩ := State.dequeue_eq_some_iff.mp hu
      exact .inr (.inr ⟨by simpa using hf, v, Q, hQ, rfl⟩)
  | retrieveByte =>
    simp only [exec, execRetrieveByte, prologue_of_ready (hr.resolve_left (by simp))] at h
    split at h
    · rename_i hf
      exact .inr (.inl ⟨hf, by simpa using h.symm⟩)
    · rename_i hf
      obtain ⟨⟨v, u⟩, hu, rfl⟩ := Option.map_eq_some_iff.mp (ofStorage_eq_next_iff.mp h)
      obtain ⟨Q, hQ, rfl⟩ := State.dequeue_eq_some_iff.mp hu
      exact .inr (.inr ⟨by simpa using hf, v, Q, hQ, rfl⟩)
  | onByteReceived b =>
    simp only [exec, execOnByteReceived, prologue_of_ready (hr.resolve_left (by simp))] at h
    split at h
    · rename_i hf
      exact .inr (.inl ⟨hf, by simpa [boolValue] using h.symm⟩)
    · rename_i hf
      obtain ⟨u, hu, rfl⟩ := Option.map_eq_some_iff.mp (ofStorage_eq_next_iff.mp h)
      obtain ⟨Q, hQ, rfl⟩ := State.enqueue_eq_some_iff.mp hu
      exact .inr (.inr ⟨by simpa using hf, Q, hQ, rfl⟩)

/-- Every command's meaning starts with the prologue. -/
theorem exec_eq_prologue (i : Instr) : ∃ body : State → Result, ∀ s, exec i s = prologue i s body := by
  cases i <;> exact ⟨_, fun _ => rfl⟩

/-- A faulted block refuses every command but STATUS (60_exceptions.md R182). -/
theorem exec_of_faulted {i : Instr} {s : State} (h : s.faultCode ≠ 0) (hi : i ≠ .status) :
    exec i s = .next s.respondErr := by
  obtain ⟨body, hb⟩ := exec_eq_prologue i
  rw [hb, prologue_of_faulted h hi]

/-- A permitted command before the first REINIT raises F_NOT_INIT, unless it is exempt (30_encoding.md R84). -/
theorem exec_of_not_init {i : Instr} {s : State} (h : s.faultCode = 0) (hp : permitted s.context i = true)
    (hn : s.initDone = false) (he : initExempt i = false) : exec i s = .next (s.raise .notInit (encode i)) := by
  obtain ⟨body, hb⟩ := exec_eq_prologue i
  rw [hb, prologue_of_not_init h hp hn he]

/-- Everything a command can do when it answers a next state. -/
theorem exec_next {i : Instr} {s t : State} (h : exec i s = .next t) : Answer i s t := by
  obtain ⟨body, hb⟩ := exec_eq_prologue i
  rcases prologue_cases i s body with ⟨hf, hi, hp⟩ | ⟨hf, hp', hp⟩ | ⟨hf, hp', hn, he, hp⟩ | ⟨hr, -⟩
  · rw [hb, hp, Host.Outcome.next.injEq] at h
    exact .refused hf hi h.symm
  · rw [hb, hp, Host.Outcome.next.injEq] at h
    exact .context hf hp' h.symm
  · rw [hb, hp, Host.Outcome.next.injEq] at h
    exact .notInit hf hp' hn he h.symm
  · rcases exec_ran_or_own hr h with ⟨c, hr', hc, rfl⟩ | hran
    · exact .own hr' c hc rfl
    · exact .ran hr hran

/-- What no command changes: the capacities, the boundary state but `tx_shift` and `wire_out`, the agents, the context and
the order of turns (10_state.md R39). -/
structure KeepsBoundary (s t : State) : Prop where
  capRx : t.rxq.topSlot = s.rxq.topSlot
  capTx : t.txq.topSlot = s.txq.topSlot
  txReadyPending : t.txReadyPending = s.txReadyPending
  rxPending : t.rxPending = s.rxPending
  wireIn : t.wireIn = s.wireIn
  irqEnabled : t.irqEnabled = s.irqEnabled
  config : t.config = s.config
  mainline : t.mainline = s.mainline
  irqHarness : t.irqHarness = s.irqHarness
  context : t.context = s.context
  schedule : t.schedule = s.schedule
  tick : t.tick = s.tick

theorem raise_keepsBoundary (s : State) (c : FaultCause) (w : Word) : KeepsBoundary s (s.raise c w) := by
  constructor <;> rfl

theorem ran_keepsBoundary {i : Instr} {s t : State} (h : Ran i s t) : KeepsBoundary s t := by
  cases i with
  | qenq q b =>
    obtain ⟨-, Q, hQ, rfl⟩ := h
    obtain ⟨-, rfl⟩ := Queue.enqueue_eq_some_iff.mp hQ
    cases q <;> constructor <;> rfl
  | qdeq q =>
    obtain ⟨-, v, Q, hQ, rfl⟩ := h
    obtain ⟨-, -, rfl⟩ := Queue.dequeue_eq_some_iff.mp hQ
    cases q <;> constructor <;> rfl
  | qreset q =>
    simp only [Ran] at h
    subst h
    cases q <;> constructor <;> rfl
  | submitByte b =>
    rcases h with ⟨-, -, rfl⟩ | ⟨-, -, rfl⟩ | ⟨-, -, Q, hQ, rfl⟩
    · constructor <;> rfl
    · constructor <;> rfl
    · obtain ⟨-, rfl⟩ := Queue.enqueue_eq_some_iff.mp hQ
      constructor <;> rfl
  | onReadyForNext =>
    rcases h with ⟨-, rfl⟩ | ⟨-, v, Q, hQ, rfl⟩
    · constructor <;> rfl
    · obtain ⟨-, -, rfl⟩ := Queue.dequeue_eq_some_iff.mp hQ
      constructor <;> rfl
  | retrieveByte =>
    rcases h with ⟨-, rfl⟩ | ⟨-, v, Q, hQ, rfl⟩
    · constructor <;> rfl
    · obtain ⟨-, -, rfl⟩ := Queue.dequeue_eq_some_iff.mp hQ
      constructor <;> rfl
  | onByteReceived b =>
    rcases h with ⟨-, rfl⟩ | ⟨-, Q, hQ, rfl⟩
    · constructor <;> rfl
    · obtain ⟨-, rfl⟩ := Queue.enqueue_eq_some_iff.mp hQ
      constructor <;> rfl
  | _ =>
    simp only [Ran] at h
    subst h
    constructor <;> rfl

theorem exec_keepsBoundary {i : Instr} {s t : State} (h : exec i s = .next t) : KeepsBoundary s t := by
  rcases exec_next h with ⟨-, -, rfl⟩ | ⟨-, -, rfl⟩ | ⟨-, -, -, -, rfl⟩ | ⟨-, c, -, rfl⟩ | ⟨-, hran⟩
  · constructor <;> rfl
  · exact raise_keepsBoundary _ _ _
  · exact raise_keepsBoundary _ _ _
  · exact raise_keepsBoundary _ _ _
  · exact ran_keepsBoundary hran

/-- A command that runs its own rule touches no fault register. -/
theorem ran_faultCode {i : Instr} {s t : State} (h : Ran i s t) : t.faultCode = s.faultCode := by
  cases i with
  | qenq q b =>
    obtain ⟨-, Q, -, rfl⟩ := h
    simp
  | qdeq q =>
    obtain ⟨-, v, Q, -, rfl⟩ := h
    simp
  | submitByte b => rcases h with ⟨-, -, rfl⟩ | ⟨-, -, rfl⟩ | ⟨-, -, Q, -, rfl⟩ <;> rfl
  | onReadyForNext => rcases h with ⟨-, rfl⟩ | ⟨-, v, Q, -, rfl⟩ <;> rfl
  | retrieveByte => rcases h with ⟨-, rfl⟩ | ⟨-, v, Q, -, rfl⟩ <;> rfl
  | onByteReceived b => rcases h with ⟨-, rfl⟩ | ⟨-, Q, -, rfl⟩ <;> rfl
  | _ =>
    simp only [Ran] at h
    subst h
    simp

/-- A ready command whose own rule gives a next state answers it. -/
theorem exec_of_ran {i : Instr} {s t : State} (hr : s.Ready i) (h : Ran i s t) : exec i s = .next t := by
  cases i with
  | qempty q => simp only [exec, execQempty, prologue_of_ready hr]; exact congrArg _ h.symm
  | qfull q => simp only [exec, execQfull, prologue_of_ready hr]; exact congrArg _ h.symm
  | qreset q => simp only [exec, execQreset, prologue_of_ready hr]; exact congrArg _ h.symm
  | reinit => simp only [exec, execReinit, prologue_of_ready hr]; exact congrArg _ h.symm
  | txstate => simp only [exec, execTxstate, prologue_of_ready hr]; exact congrArg _ h.symm
  | status => simp only [exec, execStatus, prologue_of_ready hr]; exact congrArg _ h.symm
  | rxovf => simp only [exec, execRxovf, prologue_of_ready hr]; exact congrArg _ h.symm
  | qenq q b =>
    obtain ⟨hf, Q, hQ, rfl⟩ := h
    simp [exec, execQenq, prologue_of_ready hr, hf, State.enqueue, hQ, ofStorage]
  | qdeq q =>
    obtain ⟨hf, v, Q, hQ, rfl⟩ := h
    simp [exec, execQdeq, prologue_of_ready hr, hf, State.dequeue, hQ, ofStorage]
  | submitByte b =>
    rcases h with ⟨hi, hn, rfl⟩ | ⟨hb, hf, rfl⟩ | ⟨hb, hf, Q, hQ, rfl⟩
    · simp [exec, execSubmitByte, prologue_of_ready hr, hi, State.sinkWrite, hn]
    · simp [exec, execSubmitByte, prologue_of_ready hr, hb, hf]
    · simp [exec, execSubmitByte, prologue_of_ready hr, hb, hf, State.enqueue, hQ, ofStorage, State.setQueue]
  | onReadyForNext =>
    rcases h with ⟨hf, rfl⟩ | ⟨hf, v, Q, hQ, rfl⟩
    · simp [exec, execOnReadyForNext, prologue_of_ready hr, hf]
    · simp [exec, execOnReadyForNext, prologue_of_ready hr, hf, State.dequeue, hQ, ofStorage, State.setQueue]
  | retrieveByte =>
    rcases h with ⟨hf, rfl⟩ | ⟨hf, v, Q, hQ, rfl⟩
    · simp [exec, execRetrieveByte, prologue_of_ready hr, hf]
    · simp [exec, execRetrieveByte, prologue_of_ready hr, hf, State.dequeue, hQ, ofStorage, State.setQueue]
  | onByteReceived b =>
    rcases h with ⟨hf, rfl⟩ | ⟨hf, Q, hQ, rfl⟩
    · simp [exec, execOnByteReceived, prologue_of_ready hr, hf, boolValue]
    · simp [exec, execOnByteReceived, prologue_of_ready hr, hf, State.enqueue, hQ, ofStorage, State.setQueue, boolValue]

/-- A ready command whose own rule raises a fault answers the state the raise leaves. -/
theorem exec_of_ownFault {i : Instr} {s : State} {c : FaultCause} (hr : s.Ready i) (h : OwnFault i s c) :
    exec i s = .next (s.raise c (encode i)) := by
  cases i with
  | qenq q b =>
    obtain ⟨hf, rfl⟩ := h
    simp [exec, execQenq, prologue_of_ready hr, hf]
  | qdeq q =>
    obtain ⟨hf, rfl⟩ := h
    simp [exec, execQdeq, prologue_of_ready hr, hf]
  | submitByte b =>
    obtain ⟨hi, hn, rfl⟩ := h
    simp [exec, execSubmitByte, prologue_of_ready hr, hi, State.sinkWrite_eq_none_iff.mpr hn]
  | _ => exact h.elim

/-- STATUS answers on every block. -/
theorem exec_status (s : State) : exec .status s = .next (s.respond s.statusView) := by
  simp only [exec, execStatus, prologue_status]

/-- Where the invariants of both queues hold, or the block is not initialised, a command answers a next state: it reaches
no slot that does not exist (20_memory.md R51). -/
theorem exec_answers (i : Instr) {s : State} (hr : s.initDone = true → s.rxq.Wf) (ht : s.initDone = true → s.txq.Wf) :
    ∃ t, exec i s = .next t := by
  obtain ⟨body, hb⟩ := exec_eq_prologue i
  rcases prologue_cases i s body with ⟨-, -, hp⟩ | ⟨-, -, hp⟩ | ⟨-, -, -, -, hp⟩ | ⟨hready, -⟩
  · exact ⟨_, (hb s).trans hp⟩
  · exact ⟨_, (hb s).trans hp⟩
  · exact ⟨_, (hb s).trans hp⟩
  · by_cases hs : i = .status
    · exact ⟨_, hs ▸ exec_status s⟩
    have hR : s.Ready i := hready.resolve_left hs
    by_cases he : initExempt i = true
    · cases i with
      | reinit => exact ⟨_, exec_of_ran hR rfl⟩
      | status => exact absurd rfl hs
      | _ => exact absurd he (by simp [initExempt])
    have hi : s.initDone = true := hR.init.resolve_right he
    have hq : ∀ q, (s.queue q).Wf := fun q => by cases q; exacts [hr hi, ht hi]
    cases i with
    | qempty q => exact ⟨_, exec_of_ran hR rfl⟩
    | qfull q => exact ⟨_, exec_of_ran hR rfl⟩
    | qreset q => exact ⟨_, exec_of_ran hR rfl⟩
    | reinit => exact ⟨_, exec_of_ran hR rfl⟩
    | txstate => exact ⟨_, exec_of_ran hR rfl⟩
    | status => exact ⟨_, exec_of_ran hR rfl⟩
    | rxovf => exact ⟨_, exec_of_ran hR rfl⟩
    | qenq q b =>
      cases hf : (s.queue q).isFull with
      | true => exact ⟨_, exec_of_ownFault hR ⟨hf, rfl⟩⟩
      | false => exact ⟨_, exec_of_ran hR ⟨hf, _, (hq q).enqueue_answers b, rfl⟩⟩
    | qdeq q =>
      cases hf : (s.queue q).isEmpty with
      | true => exact ⟨_, exec_of_ownFault hR ⟨hf, rfl⟩⟩
      | false => exact ⟨_, exec_of_ran hR ⟨hf, _, _, (hq q).dequeue_answers, rfl⟩⟩
    | submitByte b =>
      cases hb : s.txState with
      | idle =>
        by_cases hn : s.txShift = none
        · exact ⟨_, exec_of_ran hR (.inl ⟨hb, hn, rfl⟩)⟩
        · exact ⟨_, exec_of_ownFault hR ⟨hb, hn, rfl⟩⟩
      | busy =>
        cases hf : s.txq.isFull with
        | true => exact ⟨_, exec_of_ran hR (.inr (.inl ⟨hb, hf, rfl⟩))⟩
        | false => exact ⟨_, exec_of_ran hR (.inr (.inr ⟨hb, hf, _, (hq .txq).enqueue_answers b, rfl⟩))⟩
    | onReadyForNext =>
      cases hf : s.txq.isEmpty with
      | true => exact ⟨_, exec_of_ran hR (.inl ⟨hf, rfl⟩)⟩
      | false => exact ⟨_, exec_of_ran hR (.inr ⟨hf, _, _, (hq .txq).dequeue_answers, rfl⟩)⟩
    | retrieveByte =>
      cases hf : s.rxq.isEmpty with
      | true => exact ⟨_, exec_of_ran hR (.inl ⟨hf, rfl⟩)⟩
      | false => exact ⟨_, exec_of_ran hR (.inr ⟨hf, _, _, (hq .rxq).dequeue_answers, rfl⟩)⟩
    | onByteReceived b =>
      cases hf : s.rxq.isFull with
      | true => exact ⟨_, exec_of_ran hR (.inl ⟨hf, rfl⟩)⟩
      | false => exact ⟨_, exec_of_ran hR (.inr ⟨hf, _, (hq .rxq).enqueue_answers b, rfl⟩)⟩

/-- Raising the first fault records it (60_exceptions.md R181). -/
theorem State.raise_of_unfaulted {s : State} (h : s.faultCode = 0) (c : FaultCause) (w : Word) : s.raise c w =
    { s with faultCode := c.code, faultPort := s.context, faultWord := w, response := some ⟨true, 0⟩ } := by
  simp only [State.raise, if_pos h]

/-- Raising on a faulted block records nothing (60_exceptions.md R181). -/
theorem State.raise_of_faulted {s : State} (h : s.faultCode ≠ 0) (c : FaultCause) (w : Word) :
    s.raise c w = s.respondErr := by
  simp only [State.raise, if_neg h, State.respondErr]

/-- A command answers no response only where it holds: SUBMITBYTE while Busy with TXQ full, RETRIEVEBYTE while RXQ is
empty. -/
theorem exec_no_response {i : Instr} {s t : State} (h : exec i s = .next t) (hn : t.response = none) : s.Ready i ∧
    ((∃ b, i = .submitByte b ∧ s.txState = .busy ∧ s.txq.isFull = true) ∨
      (i = .retrieveByte ∧ s.rxq.isEmpty = true)) := by
  rcases exec_next h with ⟨-, -, rfl⟩ | ⟨-, -, rfl⟩ | ⟨-, -, -, -, rfl⟩ | ⟨-, c, -, rfl⟩ | ⟨hr, hran⟩
  iterate 4 simp at hn
  cases i with
  | qenq q b =>
    obtain ⟨-, Q, -, rfl⟩ := hran
    simp at hn
  | qdeq q =>
    obtain ⟨-, v, Q, -, rfl⟩ := hran
    simp at hn
  | submitByte b =>
    rcases hran with ⟨-, -, rfl⟩ | ⟨hb, hf, -⟩ | ⟨-, -, Q, -, rfl⟩
    · simp at hn
    · exact ⟨hr.resolve_left (by simp), .inl ⟨b, rfl, hb, hf⟩⟩
    · simp at hn
  | onReadyForNext => rcases hran with ⟨-, rfl⟩ | ⟨-, v, Q, -, rfl⟩ <;> simp at hn
  | retrieveByte =>
    rcases hran with ⟨he, -⟩ | ⟨-, v, Q, -, rfl⟩
    · exact ⟨hr.resolve_left (by simp), .inr ⟨rfl, he⟩⟩
    · simp at hn
  | onByteReceived b => rcases hran with ⟨-, rfl⟩ | ⟨-, Q, -, rfl⟩ <;> simp at hn
  | _ =>
    simp only [Ran] at hran
    subst hran
    simp at hn

end Sys2Proof.Machine
end

