-- ==== Sys2Proof/Laws/Step.lean ====
section
/-! SUPPORT. What a step can do, said once: `step_next` gives the turn's transition, and one lemma for each agent gives what
that transition can be. -/

namespace Sys2Proof.Machine

variable {s t : State}

/-! Presented words -/

/-- What a presented word can do: the command it decodes to, or F_RESERVED (30_encoding.md R84). -/
theorem executeWord_next {w : Word} (h : executeWord w s = .next t) :
    (∃ i, decode w = .cmd i ∧ exec i s = .next t) ∨ (decode w = .reserved ∧ t = s.raise .reserved w) := by
  unfold executeWord at h
  cases hd : decode w with
  | cmd i =>
    rw [hd] at h
    exact .inl ⟨i, rfl, h⟩
  | reserved =>
    rw [hd] at h
    exact .inr ⟨rfl, (Host.Outcome.next.inj h).symm⟩

theorem execute_of_decode {p : Port} {w : Word} {i : Instr} (h : decode w = .cmd i) (s : State) :
    execute p w s = exec i (s.enter p) := by simp [execute, executeWord, h]

/-- The TX bridge handler's word is ONREADYFORNEXT (60_exceptions.md R187). -/
theorem execute_readyWord (s : State) : execute .irq readyWord s = exec .onReadyForNext (s.enter .irq) :=
  execute_of_decode (by decide) s

set_option maxRecDepth 20000 in
theorem decode_receivedWord : ∀ b : Byte, decode (receivedWord b) = .cmd (.onByteReceived b) := by
  decide

/-- The RX bridge handler's word is ONBYTERECEIVED b (60_exceptions.md R188). -/
theorem execute_receivedWord (b : Byte) (s : State) :
    execute .irq (receivedWord b) s = exec (.onByteReceived b) (s.enter .irq) :=
  execute_of_decode (decode_receivedWord b) s

set_option maxRecDepth 20000 in
theorem byte_of_byteValue : ∀ b : Byte, Response.byte? (some ⟨false, byteValue b⟩) = some b := by
  decide

@[simp] theorem byte_of_error (v : Word) : Response.byte? (some ⟨true, v⟩) = none := rfl

@[simp] theorem byte_of_none : Response.byte? none = none := rfl

@[simp] theorem byte_of_zero : Response.byte? (some ⟨false, 0x0000⟩) = none := by decide

/-! Agents -/

theorem mainStep_next (h : mainStep s = .next t) : (s.mainline.current = none ∧ t = s) ∨
    ∃ w u, s.mainline.current = some w ∧ execute .main w s = .next u ∧
      t = { u.leave with mainline := u.mainline.complete u.response } := by
  unfold mainStep at h
  cases hw : s.mainline.current with
  | none =>
    rw [hw] at h
    exact .inl ⟨rfl, (Host.Outcome.next.inj h).symm⟩
  | some w =>
    rw [hw] at h
    obtain ⟨u, hu, ht⟩ := andThen_eq_next_iff.mp h
    exact .inr ⟨w, u, rfl, hu, (Host.Outcome.next.inj ht).symm⟩

theorem harnessStep_next (h : harnessStep s = .next t) : (s.irqHarness.current = none ∧ t = s) ∨
    ∃ w u, s.irqHarness.current = some w ∧ execute .irq w s = .next u ∧
      t = { u.leave with irqHarness := u.irqHarness.complete u.response } := by
  unfold harnessStep at h
  cases hw : s.irqHarness.current with
  | none =>
    rw [hw] at h
    exact .inl ⟨rfl, (Host.Outcome.next.inj h).symm⟩
  | some w =>
    rw [hw] at h
    obtain ⟨u, hu, ht⟩ := andThen_eq_next_iff.mp h
    exact .inr ⟨w, u, rfl, hu, (Host.Outcome.next.inj ht).symm⟩

/-- The TX bridge handler: nothing returned, a byte written, or a byte the sink cannot take (60_exceptions.md R187). -/
theorem irqTxStep_next (h : irqTxStep s = .next t) : ∃ u, exec .onReadyForNext (s.enter .irq) = .next u ∧
    ((Response.byte? u.response = none ∧ t = State.leave { u with txReadyPending := false }) ∨
      ∃ b, Response.byte? u.response = some b ∧
        ((u.txShift ≠ none ∧ t = (u.raise .sinkOverrun readyWord).leave) ∨
          (u.txShift = none ∧ t = State.leave
            { u with txShift := some b, wireOut := u.wireOut ++ [b], txReadyPending := false }))) := by
  unfold irqTxStep at h
  rw [execute_readyWord] at h
  obtain ⟨u, hu, h⟩ := andThen_eq_next_iff.mp h
  refine ⟨u, hu, ?_⟩
  cases hb : Response.byte? u.response with
  | none =>
    simp only [hb, Host.Outcome.next.injEq] at h
    exact .inl ⟨rfl, h.symm⟩
  | some b =>
    simp only [hb] at h
    cases hw : u.sinkWrite b with
    | none =>
      simp only [hw, Host.Outcome.next.injEq] at h
      exact .inr ⟨b, rfl, .inl ⟨State.sinkWrite_eq_none_iff.mp hw, h.symm⟩⟩
    | some v =>
      simp only [hw, Host.Outcome.next.injEq] at h
      obtain ⟨hn, rfl⟩ := State.sinkWrite_eq_some_iff.mp hw
      exact .inr ⟨b, rfl, .inr ⟨hn, h.symm⟩⟩

theorem irqRxStep_next (h : irqRxStep s = .next t) : (s.rxPending = none ∧ t = s) ∨
    ∃ b u, s.rxPending = some b ∧ exec (.onByteReceived b) (s.enter .irq) = .next u ∧
      t = State.leave { u with rxPending := none } := by
  unfold irqRxStep at h
  cases hb : s.rxPending with
  | none =>
    rw [hb] at h
    exact .inl ⟨rfl, (Host.Outcome.next.inj h).symm⟩
  | some b =>
    simp only [hb, execute_receivedWord] at h
    obtain ⟨u, hu, ht⟩ := andThen_eq_next_iff.mp h
    exact .inr ⟨b, u, rfl, hu, (Host.Outcome.next.inj ht).symm⟩

theorem rxDeliverStep_next (h : rxDeliverStep s = .next t) : (s.wireIn = [] ∧ t = s) ∨
    ∃ b rest, s.wireIn = b :: rest ∧ t = { s with rxPending := some b, wireIn := rest } := by
  unfold rxDeliverStep at h
  cases hw : s.wireIn with
  | nil =>
    rw [hw] at h
    exact .inl ⟨rfl, (Host.Outcome.next.inj h).symm⟩
  | cons b rest =>
    rw [hw] at h
    exact .inr ⟨b, rest, rfl, (Host.Outcome.next.inj h).symm⟩

/-! Holding and turns -/

/-- When a word presented on P_MAIN holds, in terms of the registers (60_exceptions.md R190, 42_facade.md R155). -/
structure HoldsNow (w : Word) (s : State) : Prop where
  unfaulted : s.faultCode = 0
  init : s.initDone = true
  reason : (∃ b, decode w = .cmd (.submitByte b) ∧ s.txState = .busy ∧ s.txq.isFull = true) ∨
    (decode w = .cmd .retrieveByte ∧ s.rxq.isEmpty = true)

theorem wouldHold_iff {w : Word} : s.wouldHold w = true ↔ HoldsNow w s := by
  constructor
  · intro h
    unfold State.wouldHold at h
    cases he : execute .main w s with
    | next t =>
      simp only [he, Option.isNone_iff_eq_none] at h
      rcases executeWord_next he with ⟨i, hd, hx⟩ | ⟨-, rfl⟩
      · obtain ⟨hR, hwhy⟩ := exec_no_response hx h
        have hin : initExempt i = false := by rcases hwhy with ⟨b, rfl, -⟩ | ⟨rfl, -⟩ <;> rfl
        refine ⟨hR.unfaulted, hR.init.resolve_right (by simp [hin]), ?_⟩
        rcases hwhy with ⟨b, rfl, hb⟩ | ⟨rfl, hb⟩
        · exact .inl ⟨b, hd, hb⟩
        · exact .inr ⟨hd, hb⟩
      · simp at h
    | fault e => simp [he] at h
    | refused e => simp [he] at h
  · rintro ⟨hu, hi, ⟨b, hd, hb, hf⟩ | ⟨hd, hf⟩⟩
    · have hx : execute .main w s = .next (s.enter .main).hold := by
        rw [execute_of_decode hd]
        exact exec_of_ran ⟨hu, rfl, .inl hi⟩ (.inr (.inl ⟨hb, hf, rfl⟩))
      simp [State.wouldHold, hx]
    · have hx : execute .main w s = .next (s.enter .main).hold := by
        rw [execute_of_decode hd]
        exact exec_of_ran ⟨hu, rfl, .inl hi⟩ (.inl ⟨hf, rfl⟩)
      simp [State.wouldHold, hx]

/-- Using up a turn changes neither what holds nor who is enabled. -/
theorem wouldHold_passTurn (w : Word) : s.passTurn.wouldHold w = s.wouldHold w := by
  rw [Bool.eq_iff_iff, wouldHold_iff, wouldHold_iff]
  constructor <;> rintro ⟨hu, hi, hr⟩ <;> exact ⟨hu, hi, hr⟩

theorem enabled_passTurn (u : Turn) : s.passTurn.enabled u = s.enabled u := by
  cases u <;> simp [State.enabled, State.mainReady, wouldHold_passTurn]

/-- A run in which some agent is enabled is not stuck. -/
theorem not_stuck_of_enabled {u : Turn} (h : s.enabled u = true) : s.stuck = false := by
  have hq : s.quiescent = false := by
    cases hq : s.quiescent with
    | false => rfl
    | true =>
      simp only [State.quiescent, Turn.all, List.all_cons, List.all_nil, Bool.and_true, Bool.and_eq_true,
        Bool.not_eq_true'] at hq
      cases u <;> simp_all
  simp [State.stuck, hq]

/-- An enabled agent whose turn it is takes its transition. -/
theorem step_of_enabled (h : s.enabled s.nextTurn = true) : step s = act s.nextTurn s.passTurn := by
  simp [step, transition, not_stuck_of_enabled h, takeTurn, enabled_passTurn, h]

/-! The step -/

/-- Everything a step can do when it answers a next state: the turn passes, or its agent, which is enabled, takes its
transition. -/
theorem step_next (h : step s = .next t) : s.stuck = false ∧
    ((s.enabled s.nextTurn = false ∧ t = s.passTurn) ∨
      (s.enabled s.nextTurn = true ∧ act s.nextTurn s.passTurn = .next t)) := by
  unfold step transition at h
  cases hs : s.stuck with
  | true => simp [hs] at h
  | false =>
    simp only [hs, Bool.false_eq_true, if_false, takeTurn] at h
    refine ⟨rfl, ?_⟩
    rw [← enabled_passTurn]
    cases he : s.passTurn.enabled s.nextTurn with
    | true => exact .inr ⟨rfl, by simpa [he] using h⟩
    | false => exact .inl ⟨rfl, by simpa [he] using h.symm⟩

/-- What a presented word did on its port: the command it decodes to, or F_RESERVED (30_encoding.md R84). -/
inductive Presented (p : Port) (w : Word) (s u : State) : Prop where
  | command (i : Instr) (decoded : decode w = .cmd i) (result : exec i (s.enter p) = .next u)
  | reserved (decoded : decode w = .reserved) (result : u = (s.enter p).raise .reserved w)

theorem execute_next {p : Port} {w : Word} {u : State} (h : execute p w s = .next u) : Presented p w s u := by
  rcases executeWord_next h with ⟨i, hd, hx⟩ | ⟨hd, hu⟩
  · exact .command i hd hx
  · exact .reserved hd hu

/-- No presented word changes the boundary state but `tx_shift` and `wire_out`. -/
theorem Presented.keepsBoundary {p : Port} {w : Word} {u : State} (h : Presented p w s u) :
    KeepsBoundary (s.enter p) u := by
  rcases h with ⟨i, -, hx⟩ | ⟨-, rfl⟩
  · exact exec_keepsBoundary hx
  · exact raise_keepsBoundary _ _ _

/-- No word presented on P_IRQ holds. -/
theorem Presented.answered_irq {w : Word} {u : State} (h : Presented .irq w s u) : ∃ r, u.response = some r := by
  rcases h with ⟨i, -, hx⟩ | ⟨-, rfl⟩
  · cases hr : u.response with
    | some r => exact ⟨r, rfl⟩
    | none =>
      obtain ⟨hR, ⟨b, rfl, -⟩ | ⟨rfl, -⟩⟩ := exec_no_response hx hr <;> exact absurd hR.port (by simp [permitted])
  · exact ⟨_, rfl⟩

/-- Everything a step can do when it answers a next state, by agent. -/
inductive StepCases (s t : State) : Prop where
  /-- the agent whose turn it is has no step -/
  | passed (idle : s.enabled s.nextTurn = false) (result : t = s.passTurn)
  /-- a command completes on P_MAIN -/
  | mainline (turn : s.nextTurn = .mainline) (running : s.config = .component ∨ s.faultCode = 0) (w : Word)
      (current : s.mainline.current = some w) (u : State) (r : Response)
      (presented : Presented .main w s.passTurn u) (answered : u.response = some r)
      (result : t = { u with
        context := .main
        mainline := { s.mainline with idx := s.mainline.idx + 1, responses := s.mainline.responses ++ [r] } })
  /-- a command completes on P_IRQ in a component run -/
  | harness (turn : s.nextTurn = .irqHarness) (component : s.config = .component) (w : Word)
      (current : s.irqHarness.current = some w) (u : State) (r : Response)
      (presented : Presented .irq w s.passTurn u) (answered : u.response = some r)
      (result : t = { u with
        context := .main
        irqHarness := { s.irqHarness with idx := s.irqHarness.idx + 1, responses := s.irqHarness.responses ++ [r] } })
  /-- the TX bridge handler -/
  | irqTx (turn : s.nextTurn = .irqTx) (system : s.config = .system) (irq : s.irqEnabled = true)
      (pending : s.txReadyPending = true) (u : State)
      (presented : exec .onReadyForNext (s.passTurn.enter .irq) = .next u)
      (result : (Response.byte? u.response = none ∧ t = State.leave { u with txReadyPending := false }) ∨
        ∃ b, Response.byte? u.response = some b ∧
          ((u.txShift ≠ none ∧ t = (u.raise .sinkOverrun readyWord).leave) ∨
            (u.txShift = none ∧ t = State.leave
              { u with txShift := some b, wireOut := u.wireOut ++ [b], txReadyPending := false })))
  /-- the RX bridge handler -/
  | irqRx (turn : s.nextTurn = .irqRx) (system : s.config = .system) (irq : s.irqEnabled = true) (b : Byte)
      (pending : s.rxPending = some b) (u : State)
      (presented : exec (.onByteReceived b) (s.passTurn.enter .irq) = .next u)
      (result : t = State.leave { u with rxPending := none })
  /-- the transceiver completes the outstanding byte -/
  | txComplete (turn : s.nextTurn = .txComplete) (system : s.config = .system) (outstanding : s.txShift ≠ none)
      (result : t = { s.passTurn with txShift := none, txReadyPending := true })
  /-- the transceiver delivers the line's next byte -/
  | rxDeliver (turn : s.nextTurn = .rxDeliver) (system : s.config = .system) (free : s.rxPending = none) (b : Byte)
      (rest : List Byte) (line : s.wireIn = b :: rest)
      (result : t = { s.passTurn with rxPending := some b, wireIn := rest })

theorem step_cases (h : step s = .next t) : StepCases s t := by
  obtain ⟨-, ⟨he, rfl⟩ | ⟨he, ha⟩⟩ := step_next h
  · exact .passed he rfl
  cases hn : s.nextTurn with
  | mainline =>
    rw [hn] at ha he
    simp only [State.enabled, Bool.and_eq_true, Bool.or_eq_true, beq_iff_eq] at he
    rcases mainStep_next ha with ⟨hc, -⟩ | ⟨w, u, hc, hx, rfl⟩
    · rw [State.passTurn_mainline] at hc
      simp [State.mainReady, hc] at he
    · rw [State.passTurn_mainline] at hc
      have hw : s.passTurn.wouldHold w = false := by
        rw [wouldHold_passTurn]
        simpa [State.mainReady, hc] using he.2
      have hp := execute_next hx
      cases hr : u.response with
      | none => simp [State.wouldHold, hx, hr] at hw
      | some r =>
        refine .mainline hn he.1 w hc u r hp hr ?_
        have hc' : u.mainline.complete (some r) = s.mainline.complete (some r) := by
          rw [hp.keepsBoundary.mainline]
          rfl
        rw [hc']
        rfl
  | irqHarness =>
    rw [hn] at ha he
    simp only [State.enabled, Bool.and_eq_true, beq_iff_eq] at he
    rcases harnessStep_next ha with ⟨hc, -⟩ | ⟨w, u, hc, hx, rfl⟩
    · rw [State.passTurn_irqHarness] at hc
      simp [hc] at he
    · rw [State.passTurn_irqHarness] at hc
      have hp := execute_next hx
      obtain ⟨r, hr⟩ := hp.answered_irq
      refine .harness hn he.1 w hc u r hp hr ?_
      have hc' : u.irqHarness.complete u.response = s.irqHarness.complete (some r) := by
        rw [hr, hp.keepsBoundary.irqHarness]
        rfl
      rw [hc']
      rfl
  | irqTx =>
    rw [hn] at ha he
    simp only [State.enabled, Bool.and_eq_true, beq_iff_eq] at he
    obtain ⟨u, hu, hr⟩ := irqTxStep_next ha
    exact .irqTx hn he.1.1 he.1.2 he.2 u hu hr
  | irqRx =>
    rw [hn] at ha he
    simp only [State.enabled, Bool.and_eq_true, beq_iff_eq] at he
    rcases irqRxStep_next ha with ⟨hc, -⟩ | ⟨b, u, hb, hu, rfl⟩
    · rw [State.passTurn_rxPending] at hc
      simp [hc] at he
    · exact .irqRx hn he.1.1 he.1.2 b hb u hu rfl
  | txComplete =>
    rw [hn] at ha he
    simp only [State.enabled, Bool.and_eq_true, beq_iff_eq] at he
    exact .txComplete hn he.1 (Option.isSome_iff_ne_none.mp he.2) (Host.Outcome.next.inj ha).symm
  | rxDeliver =>
    rw [hn] at ha he
    simp only [State.enabled, Bool.and_eq_true, beq_iff_eq, Option.isNone_iff_eq_none] at he
    rcases rxDeliverStep_next ha with ⟨hc, -⟩ | ⟨b, rest, hl, rfl⟩
    · rw [State.passTurn_wireIn] at hc
      simp [hc] at he
    · exact .rxDeliver hn he.1.1 he.1.2 b rest hl rfl

end Sys2Proof.Machine
end

