-- ==== Sys2Proof/Laws/Moves.lean ====
section
/-! SUPPORT. What a command and a step can do to one queue and to `init_done`, said once. -/

namespace Sys2Proof.Machine

/-- The ways a command changes a queue (40_queue.md R101 to R103). -/
inductive QueueMove (q q' : Queue) : Prop where
  | same (result : q' = q)
  | enqueued (b : Byte) (room : q.isFull = false) (result : q.enqueue b = some q')
  | dequeued (v : Byte) (some : q.isEmpty = false) (result : q.dequeue = .some (v, q'))
  | reset (result : q' = q.resetFields)

theorem QueueMove.stored {q q' : Queue} (h : QueueMove q q') (hs : q.Stored) : q'.Stored := by
  rcases h with rfl | ⟨b, -, h⟩ | ⟨v, -, h⟩ | rfl
  · exact hs
  · exact hs.enqueue h
  · exact hs.dequeue h
  · exact hs.resetFields

theorem QueueMove.wf {q q' : Queue} (h : QueueMove q q') (hw : q.Wf) : q'.Wf := by
  rcases h with rfl | ⟨b, hf, h⟩ | ⟨v, he, h⟩ | rfl
  · exact hw
  · exact hw.enqueue (hw.lt_cap_of_not_full hf) h
  · exact hw.dequeue (Queue.pos_of_not_empty he) h
  · exact Queue.Wf.resetFields q

/-- What a command does to each queue and to `init_done`: only REINIT sets `init_done`, and then both queues are reset. -/
structure CommandMove (i : Instr) (s t : State) : Prop where
  move : ∀ sel, QueueMove (s.queue sel) (t.queue sel)
  init : t.initDone = s.initDone ∨ (i = .reinit ∧ t.initDone = true ∧ ∀ sel, t.queue sel = (s.queue sel).resetFields)

theorem CommandMove.of_same {i : Instr} {s t : State} (hr : t.rxq = s.rxq) (ht : t.txq = s.txq)
    (hi : t.initDone = s.initDone) : CommandMove i s t :=
  ⟨fun sel => by cases sel; exacts [.same hr, .same ht], .inl hi⟩

/-- A command that replaces one queue by a move of it. -/
theorem CommandMove.of_set {i : Instr} {s t : State} {sel : QueueSel} {Q : Queue} (hm : QueueMove (s.queue sel) Q)
    (hq : ∀ o, t.queue o = (s.setQueue sel Q).queue o) (hi : t.initDone = s.initDone) : CommandMove i s t := by
  refine ⟨fun o => ?_, .inl hi⟩
  rw [hq]
  by_cases ho : o = sel
  · subst ho
    simpa using hm
  · rw [State.queue_setQueue_of_ne _ _ _ ho]
    exact .same rfl

theorem exec_move {i : Instr} {s t : State} (h : exec i s = .next t) : CommandMove i s t := by
  rcases exec_next h with ⟨-, -, rfl⟩ | ⟨-, -, rfl⟩ | ⟨-, -, -, -, rfl⟩ | ⟨-, c, -, rfl⟩ | ⟨-, hran⟩
  iterate 4 exact .of_same rfl rfl rfl
  cases i with
  | qenq q b =>
    obtain ⟨hf, Q, hQ, rfl⟩ := hran
    exact .of_set (.enqueued b hf hQ) (fun o => by cases o <;> rfl) (by simp)
  | qdeq q =>
    obtain ⟨he, v, Q, hQ, rfl⟩ := hran
    exact .of_set (.dequeued v he hQ) (fun o => by cases o <;> rfl) (by simp)
  | qreset q =>
    simp only [Ran] at hran
    subst hran
    exact .of_set (.reset rfl) (fun o => by cases o <;> rfl) (by simp)
  | submitByte b =>
    rcases hran with ⟨-, -, rfl⟩ | ⟨-, -, rfl⟩ | ⟨-, hf, Q, hQ, rfl⟩
    · exact .of_same rfl rfl rfl
    · exact .of_same rfl rfl rfl
    · exact .of_set (sel := .txq) (.enqueued b hf hQ) (fun o => by cases o <;> rfl) rfl
  | onReadyForNext =>
    rcases hran with ⟨-, rfl⟩ | ⟨he, v, Q, hQ, rfl⟩
    · exact .of_same rfl rfl rfl
    · exact .of_set (sel := .txq) (.dequeued v he hQ) (fun o => by cases o <;> rfl) rfl
  | retrieveByte =>
    rcases hran with ⟨-, rfl⟩ | ⟨he, v, Q, hQ, rfl⟩
    · exact .of_same rfl rfl rfl
    · exact .of_set (sel := .rxq) (.dequeued v he hQ) (fun o => by cases o <;> rfl) rfl
  | onByteReceived b =>
    rcases hran with ⟨-, rfl⟩ | ⟨hf, Q, hQ, rfl⟩
    · exact .of_same rfl rfl rfl
    · exact .of_set (sel := .rxq) (.enqueued b hf hQ) (fun o => by cases o <;> rfl) rfl
  | reinit =>
    simp only [Ran] at hran
    subst hran
    exact ⟨fun o => by cases o <;> exact .reset rfl, .inr (⟨rfl, rfl, fun o => by cases o <;> rfl⟩)⟩
  | _ =>
    simp only [Ran] at hran
    subst hran
    exact .of_same rfl rfl rfl

end Sys2Proof.Machine
end

