-- ==== Sys2Proof/Laws/PerInstr.lean ====
section
/-! SUPPORT. Per-instruction laws of the syntax: the fields of every command are legal (30_encoding.md R70, R71, R74). -/

namespace Sys2Proof.Laws.FieldsLegal

/-- Every command's fields are well formed. -/
def Statement (i : Instr) : Prop := i.wellFormed = true

theorem qempty (q : QueueSel) : Statement (.qempty q) := by cases q <;> rfl

theorem qfull (q : QueueSel) : Statement (.qfull q) := by cases q <;> rfl

theorem qenq (q : QueueSel) (b : Byte) : Statement (.qenq q b) := by cases q <;> rfl

theorem qdeq (q : QueueSel) : Statement (.qdeq q) := by cases q <;> rfl

theorem qreset (q : QueueSel) : Statement (.qreset q) := by cases q <;> rfl

theorem submitByte (b : Byte) : Statement (.submitByte b) := rfl

theorem onReadyForNext : Statement .onReadyForNext := rfl

theorem reinit : Statement .reinit := rfl

theorem retrieveByte : Statement .retrieveByte := rfl

theorem onByteReceived (b : Byte) : Statement (.onByteReceived b) := rfl

theorem txstate : Statement .txstate := rfl

theorem status : Statement .status := rfl

theorem rxovf : Statement .rxovf := rfl

end Sys2Proof.Laws.FieldsLegal
end

