-- ==== Sys2Proof/Laws/Program.lean ====
section
/-! SUPPORT. What a step does to the main-line program, the run's parameters and the queues, said once (60_exceptions.md
R184, R186, R190). -/

namespace Sys2Proof.Machine

variable {s t : State}

/-- No step changes the program; the index stays or advances by one (60_exceptions.md R190). -/
theorem step_program (h : step s = .next t) : t.mainline.prog = s.mainline.prog ∧
    (t.mainline.idx = s.mainline.idx ∨ t.mainline.idx = s.mainline.idx + 1) := by
  rcases step_cases h with ⟨-, rfl⟩ | ⟨-, -, w, -, u, r, -, -, rfl⟩ | ⟨-, -, w, -, u, r, hp, -, rfl⟩ |
    ⟨-, -, -, -, u, hx, h2⟩ | ⟨-, -, -, b, -, u, hx, rfl⟩ | ⟨-, -, -, rfl⟩ | ⟨-, -, -, b, rest, -, rfl⟩
  · exact ⟨rfl, .inl rfl⟩
  · exact ⟨rfl, .inr rfl⟩
  · have hk : u.mainline = s.mainline := hp.keepsBoundary.mainline
    simp [hk]
  · have hk : u.mainline = s.mainline := (exec_keepsBoundary hx).mainline
    rcases h2 with ⟨-, rfl⟩ | ⟨b, -, ⟨-, rfl⟩ | ⟨-, rfl⟩⟩ <;> simp [hk]
  · have hk : u.mainline = s.mainline := (exec_keepsBoundary hx).mainline
    simp [hk]
  · exact ⟨rfl, .inl rfl⟩
  · exact ⟨rfl, .inl rfl⟩

/-- No step changes the configuration (60_exceptions.md R186). -/
theorem step_config (h : step s = .next t) : t.config = s.config := by
  rcases step_cases h with ⟨-, rfl⟩ | ⟨-, -, w, -, u, r, hp, -, rfl⟩ | ⟨-, -, w, -, u, r, hp, -, rfl⟩ |
    ⟨-, -, -, -, u, hx, h2⟩ | ⟨-, -, -, b, -, u, hx, rfl⟩ | ⟨-, -, -, rfl⟩ | ⟨-, -, -, b, rest, -, rfl⟩
  · rfl
  · exact hp.keepsBoundary.config
  · exact hp.keepsBoundary.config
  · have hk := (exec_keepsBoundary hx).config
    rcases h2 with ⟨-, rfl⟩ | ⟨b, -, ⟨-, rfl⟩ | ⟨-, rfl⟩⟩ <;> exact hk
  · exact (exec_keepsBoundary hx).config
  · rfl
  · rfl

/-- The word presented next is the first of those that remain. -/
theorem remaining_of_current {w : Word} (h : s.mainline.current = some w) :
    s.remaining = w :: s.mainline.prog.drop (s.mainline.idx + 1) := by
  obtain ⟨hl, rfl⟩ := List.getElem?_eq_some_iff.mp h
  exact List.drop_eq_getElem_cons hl

theorem current_mem_remaining {w : Word} (h : s.mainline.current = some w) : w ∈ s.remaining := by
  simp [remaining_of_current h]

/-- A step leaves no word to come that was not to come before. -/
theorem step_remaining (h : step s = .next t) {w : Word} (hw : w ∈ t.remaining) : w ∈ s.remaining := by
  obtain ⟨hp, hi | hi⟩ := step_program h
  · simpa [State.remaining, hp, hi] using hw
  · simp only [State.remaining, hp, hi, ← List.drop_drop] at hw
    exact List.mem_of_mem_drop hw

/-- When the index advances, the word presented joins the completed ones. -/
theorem presented_of_advance {w : Word} (h : s.mainline.current = some w) (hp : t.mainline.prog = s.mainline.prog)
    (hi : t.mainline.idx = s.mainline.idx + 1) : t.presented = s.presented ++ [w] := by
  have h' : s.mainline.prog[s.mainline.idx]? = some w := h
  simp [State.presented, hp, hi, List.take_add_one, h']

theorem submitted_append (ws vs : List Word) : submitted (ws ++ vs) = submitted ws ++ submitted vs := by
  simp [submitted, List.filterMap_append]

/-- A presented word changes each queue by a move. -/
theorem Presented.move {p : Port} {w : Word} {u : State} (h : Presented p w s u) (sel : QueueSel) :
    QueueMove (s.queue sel) (u.queue sel) := by
  rcases h with ⟨i, -, hx⟩ | ⟨-, rfl⟩
  · have := (exec_move hx).move sel
    cases sel <;> exact this
  · cases sel <;> exact .same rfl

/-- A step changes each queue by a move. -/
theorem step_queue (h : step s = .next t) (sel : QueueSel) : QueueMove (s.queue sel) (t.queue sel) := by
  rcases step_cases h with ⟨-, rfl⟩ | ⟨-, -, w, -, u, r, hp, -, rfl⟩ | ⟨-, -, w, -, u, r, hp, -, rfl⟩ |
    ⟨-, -, -, -, u, hx, h2⟩ | ⟨-, -, -, b, -, u, hx, rfl⟩ | ⟨-, -, -, rfl⟩ | ⟨-, -, -, b, rest, -, rfl⟩
  · cases sel <;> exact .same rfl
  · have := hp.move sel
    cases sel <;> exact this
  · have := hp.move sel
    cases sel <;> exact this
  · have := (exec_move hx).move sel
    rcases h2 with ⟨-, rfl⟩ | ⟨b, -, ⟨-, rfl⟩ | ⟨-, rfl⟩⟩ <;> cases sel <;> exact this
  · have := (exec_move hx).move sel
    cases sel <;> exact this
  · cases sel <;> exact .same rfl
  · cases sel <;> exact .same rfl

end Sys2Proof.Machine
end

