-- ==== Sys2Proof/Laws/Transmit.lean ====
section
/-! SUPPORT. What a command on P_MAIN and a step do on the transmit side, said once (41_transmit.md R130 to R137,
60_exceptions.md R187, R195). -/

namespace Sys2Proof.Machine

variable {s t : State} {i : Instr}

/-- Nothing on the transmit side of the block, and nothing at the sink, changed. -/
structure TxSame (s t : State) : Prop where
  txq : t.txq = s.txq
  txState : t.txState = s.txState
  txShift : t.txShift = s.txShift
  wireOut : t.wireOut = s.wireOut

/-- What a command on P_MAIN does on the transmit side. -/
inductive TxCommand (i : Instr) (s t : State) : Prop where
  /-- nothing: another command, or a SUBMITBYTE that faults or holds -/
  | same (result : TxSame s t)
      (submit : ∀ b, i = .submitByte b → t.response = none ∨ s.faultCode ≠ 0 ∨ s.initDone = false ∨
        (s.txState = .idle ∧ s.txShift ≠ none))
      (overrun : t.faultCode = 6 → s.faultCode = 6 ∨ (s.txState = .idle ∧ s.txShift ≠ none))
  /-- SUBMITBYTE while Idle (41_transmit.md R136) -/
  | written (b : Byte) (submit : i = .submitByte b) (idle : s.txState = .idle) (free : s.txShift = none)
      (txq : t.txq = s.txq) (txState : t.txState = .busy) (txShift : t.txShift = some b)
      (wireOut : t.wireOut = s.wireOut ++ [b]) (faultCode : t.faultCode = s.faultCode)
  /-- SUBMITBYTE while Busy (41_transmit.md R137) -/
  | queued (b : Byte) (submit : i = .submitByte b) (busy : s.txState = .busy) (room : s.txq.isFull = false)
      (txq : s.txq.enqueue b = some t.txq) (txState : t.txState = .busy) (txShift : t.txShift = s.txShift)
      (wireOut : t.wireOut = s.wireOut) (faultCode : t.faultCode = s.faultCode)
  /-- REINIT (42_facade.md R150) -/
  | reinit (isReinit : i = .reinit) (txq : t.txq = s.txq.resetFields) (txState : t.txState = .idle)
      (txShift : t.txShift = s.txShift) (wireOut : t.wireOut = s.wireOut) (faultCode : t.faultCode = s.faultCode)
  /-- a command that touches TXQ other than through the state machine (10_state.md R36) -/
  | raw (touches : (∃ b, i = .qenq .txq b) ∨ i = .qreset .txq)

theorem exec_main_transmit (h : exec i s = .next t) (hc : s.context = .main) : TxCommand i s t := by
  rcases exec_next h with ⟨hf, -, rfl⟩ | ⟨hf, hp, rfl⟩ | ⟨hf, -, hn, -, rfl⟩ | ⟨hr, c, hown, rfl⟩ | ⟨hr, hran⟩
  · exact .same ⟨rfl, rfl, rfl, rfl⟩ (fun _ _ => .inr (.inl hf)) .inl
  · refine .same ⟨rfl, rfl, rfl, rfl⟩ ?_ fun h6 => ?_
    · rintro b rfl
      simp [hc, permitted] at hp
    · simp [State.raise_of_unfaulted hf, FaultCause.code] at h6
  · refine .same ⟨rfl, rfl, rfl, rfl⟩ (fun _ _ => .inr (.inr (.inl hn))) fun h6 => ?_
    simp [State.raise_of_unfaulted hf, FaultCause.code] at h6
  · cases i <;> simp only [OwnFault] at hown
    · exact .same ⟨rfl, rfl, rfl, rfl⟩ (by simp) (by simp [State.raise_of_unfaulted hr.unfaulted, hown.2, FaultCause.code])
    · exact .same ⟨rfl, rfl, rfl, rfl⟩ (by simp) (by simp [State.raise_of_unfaulted hr.unfaulted, hown.2, FaultCause.code])
    · exact .same ⟨rfl, rfl, rfl, rfl⟩ (fun _ _ => .inr (.inr (.inr ⟨hown.1, hown.2.1⟩))) fun _ =>
        .inr ⟨hown.1, hown.2.1⟩
  have hs6 : t.faultCode = 6 → s.faultCode = 6 ∨ (s.txState = .idle ∧ s.txShift ≠ none) := fun h6 =>
    .inl (ran_faultCode hran ▸ h6)
  cases i with
  | qenq q b =>
    cases q with
    | rxq =>
      obtain ⟨-, Q, -, rfl⟩ := hran
      exact .same ⟨rfl, rfl, rfl, rfl⟩ (by simp) hs6
    | txq => exact .raw (.inl ⟨b, rfl⟩)
  | qdeq q =>
    cases q with
    | rxq =>
      obtain ⟨-, v, Q, -, rfl⟩ := hran
      exact .same ⟨rfl, rfl, rfl, rfl⟩ (by simp) hs6
    | txq => exact absurd (hr.resolve_left (by simp)).port (by simp [hc, permitted])
  | qreset q =>
    cases q with
    | rxq =>
      simp only [Ran] at hran
      subst hran
      exact .same ⟨rfl, rfl, rfl, rfl⟩ (by simp) hs6
    | txq => exact .raw (.inr rfl)
  | submitByte b =>
    rcases hran with ⟨hi, hn, rfl⟩ | ⟨-, -, rfl⟩ | ⟨hb, hf, Q, hQ, rfl⟩
    · exact .written b rfl hi hn rfl rfl rfl rfl rfl
    · exact .same ⟨rfl, rfl, rfl, rfl⟩ (fun _ _ => .inl rfl) hs6
    · exact .queued b rfl hb hf hQ hb rfl rfl rfl
  | onReadyForNext => exact absurd (hr.resolve_left (by simp)).port (by simp [hc, permitted])
  | onByteReceived b => exact absurd (hr.resolve_left (by simp)).port (by simp [hc, permitted])
  | retrieveByte =>
    rcases hran with ⟨-, rfl⟩ | ⟨-, v, Q, -, rfl⟩ <;> exact .same ⟨rfl, rfl, rfl, rfl⟩ (by simp) hs6
  | reinit =>
    simp only [Ran] at hran
    subst hran
    exact .reinit rfl rfl rfl rfl rfl rfl
  | _ =>
    simp only [Ran] at hran
    subst hran
    exact .same ⟨rfl, rfl, rfl, rfl⟩ (by simp) hs6

theorem exec_onByteReceived_transmit {b : Byte} (h : exec (.onByteReceived b) s = .next t) : TxSame s t := by
  rcases exec_next h with ⟨-, -, rfl⟩ | ⟨-, -, rfl⟩ | ⟨-, -, -, -, rfl⟩ | ⟨-, c, -, rfl⟩ | ⟨-, hran⟩
  iterate 4 exact ⟨rfl, rfl, rfl, rfl⟩
  rcases hran with ⟨-, rfl⟩ | ⟨-, Q, -, rfl⟩ <;> exact ⟨rfl, rfl, rfl, rfl⟩

/-- Everything a step of a system run on an initialised, unfaulted block does on the transmit side. -/
inductive TxStep (s t : State) : Prop where
  /-- nothing, and no command of the program completes -/
  | same (result : TxSame s t) (pending : t.txReadyPending = s.txReadyPending) (mainline : t.mainline = s.mainline)
      (faultCode : t.faultCode = 0)
  /-- a command of the program completes -/
  | command (turn : s.nextTurn = .mainline) (w : Word) (current : s.mainline.current = some w) (i : Instr) (decoded : decode w = .cmd i)
      (result : TxCommand i s t) (answered : t.response ≠ none) (pending : t.txReadyPending = s.txReadyPending)
      (prog : t.mainline.prog = s.mainline.prog) (idx : t.mainline.idx = s.mainline.idx + 1)
  /-- a reserved word of the program is presented -/
  | reserved (turn : s.nextTurn = .mainline) (w : Word) (current : s.mainline.current = some w) (decoded : decode w = .reserved) (result : TxSame s t)
      (pending : t.txReadyPending = s.txReadyPending) (prog : t.mainline.prog = s.mainline.prog)
      (idx : t.mainline.idx = s.mainline.idx + 1) (faultCode : t.faultCode = 1)
  /-- TX completion -/
  | completed (outstanding : s.txShift ≠ none) (txq : t.txq = s.txq) (txState : t.txState = s.txState)
      (txShift : t.txShift = none) (pending : t.txReadyPending = true) (wireOut : t.wireOut = s.wireOut)
      (mainline : t.mainline = s.mainline) (faultCode : t.faultCode = 0)
  /-- the TX bridge handler finds TXQ empty -/
  | drained (event : s.txReadyPending = true) (none : s.txq.cnt = 0) (txq : t.txq = s.txq) (txState : t.txState = .idle)
      (txShift : t.txShift = s.txShift) (pending : t.txReadyPending = false) (wireOut : t.wireOut = s.wireOut)
      (mainline : t.mainline = s.mainline) (faultCode : t.faultCode = 0)
  /-- the TX bridge handler takes a byte from TXQ -/
  | taken (event : s.txReadyPending = true) (some : s.txq.isEmpty = false) (v : Byte)
      (txq : s.txq.dequeue = .some (v, t.txq)) (txState : t.txState = .busy) (mainline : t.mainline = s.mainline)
      (sink : (s.txShift ≠ .none ∧ t.faultCode = 6) ∨ (s.txShift = .none ∧ t.txShift = .some v ∧
        t.wireOut = s.wireOut ++ [v] ∧ t.txReadyPending = false ∧ t.faultCode = 0))

theorem step_transmit (h : step s = .next t) (hs : s.config = .system) (hi : s.initDone = true) (hf : s.faultCode = 0) :
    TxStep s t := by
  rcases step_cases h with ⟨-, rfl⟩ | ⟨hturn, -, w, hw, u, r, hp, hr, rfl⟩ | ⟨-, hc, -⟩ | ⟨-, -, -, hpend, u, hx, h2⟩ |
    ⟨-, -, -, b, -, u, hx, rfl⟩ | ⟨-, -, ho, rfl⟩ | ⟨-, -, -, b, rest, -, rfl⟩
  · exact .same ⟨rfl, rfl, rfl, rfl⟩ rfl rfl hf
  · have hk := hp.keepsBoundary
    rcases hp with ⟨i, hd, hx⟩ | ⟨hd, rfl⟩
    · refine .command hturn w hw i hd ?_ (by simp [hr]) hk.txReadyPending rfl rfl
      rcases exec_main_transmit hx rfl with ⟨⟨h1, h2, h3, h4⟩, h5, h6⟩ | ⟨b, h1, h2, h3, h4, h5, h6, h7, h8⟩ |
        ⟨b, h1, h2, h3, h4, h5, h6, h7, h8⟩ | ⟨h1, h2, h3, h4, h5, h6⟩ | h1
      · exact .same ⟨h1, h2, h3, h4⟩ h5 h6
      · exact .written b h1 h2 h3 h4 h5 h6 h7 h8
      · exact .queued b h1 h2 h3 h4 h5 h6 h7 h8
      · exact .reinit h1 h2 h3 h4 h5 h6
      · exact .raw h1
    · refine .reserved hturn w hw hd ⟨rfl, rfl, rfl, rfl⟩ rfl rfl rfl ?_
      have hf' : (s.passTurn.enter .main).faultCode = 0 := hf
      rw [State.raise_of_unfaulted hf']
      rfl
  · simp [hs] at hc
  · have hk : u.mainline = s.mainline := (exec_keepsBoundary hx).mainline
    rcases exec_next hx with ⟨hn, -, -⟩ | ⟨-, hn, -⟩ | ⟨-, -, hn, -, -⟩ | ⟨-, c, hn, -⟩ | ⟨-, hran⟩
    · exact absurd hf hn
    · simp [permitted] at hn
    · simp [hi] at hn
    · exact hn.elim
    · rcases hran with ⟨he, rfl⟩ | ⟨he, v, Q, hQ, rfl⟩
      · rcases h2 with ⟨-, rfl⟩ | ⟨b, hb, -⟩
        · exact .drained hpend (Queue.isEmpty_iff.mp he) rfl rfl rfl rfl rfl rfl hf
        · simp only [State.respond_response] at hb
          rw [byte_of_zero] at hb
          simp at hb
      · simp only [State.respond_response, byte_of_byteValue] at h2
        rcases h2 with ⟨hb, -⟩ | ⟨b, hb, ⟨hn, rfl⟩ | ⟨hn, rfl⟩⟩
        · simp at hb
        · refine .taken hpend he v hQ rfl rfl (.inl ⟨hn, ?_⟩)
          rw [State.raise_of_unfaulted (by simpa using hf)]
          rfl
        · cases hb
          exact .taken hpend he v hQ rfl rfl (.inr ⟨hn, rfl, rfl, rfl, hf⟩)
  · have hk := exec_keepsBoundary hx
    obtain ⟨h1, h2, h3, h4⟩ := exec_onByteReceived_transmit hx
    refine .same ⟨h1, h2, h3, h4⟩ hk.txReadyPending hk.mainline ?_
    rcases exec_next hx with ⟨hn, -, -⟩ | ⟨-, hn, -⟩ | ⟨-, -, hn, -, -⟩ | ⟨-, c, hn, -⟩ | ⟨-, hran⟩
    · exact absurd hf hn
    · simp [permitted] at hn
    · simp [hi] at hn
    · exact hn.elim
    · exact (ran_faultCode hran).trans hf
  · exact .completed ho rfl rfl rfl rfl rfl rfl hf
  · exact .same ⟨rfl, rfl, rfl, rfl⟩ rfl rfl hf

end Sys2Proof.Machine
end

