-- ==== Sys2Proof/Tests/Slice0.lean ====
section
/-! SUPPORT. Tests on small states, with the expected results of 95_test_vectors.md and of the encoding tables of
30_encoding.md, and for each obligation with hypotheses a witness that something meets them. -/

namespace Sys2Proof.Tests

open Sys2Proof Sys2Proof.Machine

/-- A field of the next state, if the result is one. -/
def after {α : Type} (r : Result) (f : State → α) : Option α :=
  match r with
  | .next s => some (f s)
  | .fault _ => none
  | .refused _ => none

/-- Just after REINIT from power-on with CAP_RX = CAP_TX = 4 (95_test_vectors.md, Conventions). -/
def fresh : State := { State.powerOn 3 3 with initDone := true }

/-- The same with capacity 1 for both queues. -/
def fresh1 : State := { State.powerOn 0 0 with initDone := true }

/-- A queue as the vectors write it: rd, wr, cnt and the live bytes. -/
structure Shape where
  rd : Nat
  wr : Nat
  cnt : Nat
  live : List Byte
deriving DecidableEq, Repr

def shape (q : Queue) : Shape := ⟨q.rd, q.wr, q.cnt, q.live⟩

/-- The fault registers. -/
def faultOf (s : State) : BitVec 4 × Port × Word := (s.faultCode, s.faultPort, s.faultWord)

/-! Ill-formed fields: one for each check (30_encoding.md R70, R71, R74, R76) -/

theorem test_wellFormed_accepts : (Fields.ofWord 0x3154).wellFormed = true := by decide

theorem test_wellFormed_refuses_rsv : (Fields.ofWord 0x1200).wellFormed = false := by decide

theorem test_wellFormed_refuses_q_in_D : (Fields.ofWord 0x6100).wellFormed = false := by decide

theorem test_wellFormed_refuses_q_in_N : (Fields.ofWord 0x7100).wellFormed = false := by decide

theorem test_wellFormed_refuses_data_in_QN : (Fields.ofWord 0x1001).wellFormed = false := by decide

theorem test_wellFormed_refuses_data_in_N : (Fields.ofWord 0x7001).wellFormed = false := by decide

theorem test_wellFormed_refuses_op_0 : (Fields.ofWord 0x0000).wellFormed = false := by decide

theorem test_wellFormed_refuses_op_E : (Fields.ofWord 0xE000).wellFormed = false := by decide

theorem test_wellFormed_refuses_op_F : (Fields.ofWord 0xF000).wellFormed = false := by decide

/-! Decoding, each word written bit by bit from 30_encoding.md R75 -/

theorem test_decode_qempty : decode 0b0001000100000000 = .cmd (.qempty .txq) := by decide

theorem test_decode_qfull : decode 0b0010000000000000 = .cmd (.qfull .rxq) := by decide

theorem test_decode_qenq : decode 0b0011000101010100 = .cmd (.qenq .txq 0x54) := by decide

theorem test_decode_qdeq : decode 0b0100000000000000 = .cmd (.qdeq .rxq) := by decide

theorem test_decode_qreset : decode 0b0101000100000000 = .cmd (.qreset .txq) := by decide

theorem test_decode_submitByte : decode 0b0110000010000001 = .cmd (.submitByte 0x81) := by decide

theorem test_decode_onReadyForNext : decode 0b0111000000000000 = .cmd .onReadyForNext := by decide

theorem test_decode_reinit : decode 0b1000000000000000 = .cmd .reinit := by decide

theorem test_decode_retrieveByte : decode 0b1001000000000000 = .cmd .retrieveByte := by decide

theorem test_decode_onByteReceived : decode 0b1010000001011000 = .cmd (.onByteReceived 0x58) := by decide

theorem test_decode_txstate : decode 0b1011000000000000 = .cmd .txstate := by decide

theorem test_decode_status : decode 0b1100000000000000 = .cmd .status := by decide

theorem test_decode_rxovf : decode 0b1101000000000000 = .cmd .rxovf := by decide

/-- The reserved words of 95_test_vectors.md L2.1. -/
theorem test_decode_reserved : [0x0000, 0x1001, 0x1200, 0x3E00, 0x4180, 0x6100, 0x7001, 0x7100, 0x8800, 0xC100, 0xE000,
    0xFFFF].all (fun w => decode w == .reserved) = true := by decide

theorem test_encode_qenq : encode (.qenq .txq 0xFF) = 0x31FF := by decide

theorem test_decodeTableWord : decodeTableWord 16 0xA0FF = some (.onByteReceived 0xFF) := by decide

/-! The assembler (30_encoding.md R80) -/

theorem test_assemble_qenq : assembleLine "IRQ: qenq RXQ, 0x54".toList = some (.irq, 0x3054) := by decide

theorem test_assemble_source_name : assembleLine "submitByte 65".toList = some (.main, 0x6041) := by decide

theorem test_assemble_refuses : assembleLine "QENQ RXQ".toList = none := by decide

/-! The queue family (95_test_vectors.md L2.3) -/

theorem test_qempty_on_empty : after (exec (.qempty .txq) fresh1) (·.response) = some (some ⟨false, 0x0001⟩) := by decide

/-- Q1 step 5: with CAP 1 a queue of one byte is full. -/
theorem test_qfull_cap_1 :
    after (exec (.qfull .txq) { fresh1 with txq := { fresh1.txq with cnt := 1 } }) (·.response) =
      some (some ⟨false, 0x0001⟩) := by decide

/-- RXQ as after Q2 step 5: (2,3,1) with buf = [10 11 12]. -/
def q2 : State :=
  { fresh with rxq := { topSlot := 3, buf := [(0, 0x10), (1, 0x11), (2, 0x12)], rd := 2, wr := 3, cnt := 1 } }

/-- Q2 step 6: the write index wraps. -/
theorem test_qenq_wraps : after (exec (.qenq .rxq 0x13) (q2.enter .irq)) (fun t => (t.response, shape t.rxq)) =
    some (some ⟨false, 0x0000⟩, ⟨2, 0, 2, [0x12, 0x13]⟩) := by decide

/-- Q3: a full queue. -/
theorem test_qenq_full :
    after (exec (.qenq .rxq 0x16) (State.enter .irq { q2 with rxq := { q2.rxq with wr := 2, cnt := 4 } }))
      (fun t => (t.response, faultOf t, t.rxq.cnt)) =
    some (some ⟨true, 0x0000⟩, (4, .irq, 0x3016), 4) := by decide

/-- Q2 step 11: the read index wraps. -/
theorem test_qdeq_wraps :
    after (exec (.qdeq .rxq)
      { fresh with rxq :=
        { topSlot := 3, buf := [(0, 0x14), (1, 0x15), (2, 0x12), (3, 0x13)], rd := 3, wr := 2, cnt := 3 } })
      (fun t => (t.response, shape t.rxq)) = some (some ⟨false, 0x0113⟩, ⟨0, 2, 2, [0x14, 0x15]⟩) := by decide

/-- L2.2: an empty queue. -/
theorem test_qdeq_empty : after (exec (.qdeq .rxq) fresh) (fun t => (t.response, faultOf t)) =
    some (some ⟨true, 0x0000⟩, (5, .main, 0x4000)) := by decide

/-- Q4: CAP 2, TXQ(1,0,1)[54] with buf = [41 54]; the storage stays. -/
theorem test_qreset_keeps_storage :
    after (exec (.qreset .txq)
      { fresh with txq := { topSlot := 1, buf := [(0, 0x41), (1, 0x54)], rd := 1, wr := 0, cnt := 1 } })
      (fun t => (shape t.txq, t.txq.buf)) = some (⟨0, 0, 0, []⟩, [(0, 0x41), (1, 0x54)]) := by decide

/-! The transmit family (95_test_vectors.md L1.4, L2.4) -/

theorem test_submitByte_idle :
    after (exec (.submitByte 0x41) fresh) (fun t => (t.response, t.wireOut, t.txShift, t.txState, t.txq.cnt)) =
    some (some ⟨false, 0x0000⟩, [0x41], some 0x41, .busy, 0) := by decide

/-- TXQ full with two bytes, CAP 2, Busy: as in T3 step 4. -/
def busyFull : State :=
  { fresh with
    txq := { topSlot := 1, buf := [(0, 0x32), (1, 0x33)], rd := 0, wr := 0, cnt := 2 }
    txState := .busy
    txShift := some 0x31
    wireOut := [0x31] }

theorem test_submitByte_holds : after (exec (.submitByte 0x34) busyFull) (fun t => (t.response, shape t.txq, t.wireOut)) =
    some (none, ⟨0, 0, 2, [0x32, 0x33]⟩, [0x31]) := by decide

/-- T3 step 6, the command's part: the oldest byte, still Busy. -/
theorem test_onReadyForNext_byte :
    after (exec .onReadyForNext (busyFull.enter .irq)) (fun t => (t.response, shape t.txq, t.txState)) =
    some (some ⟨false, 0x0132⟩, ⟨1, 0, 1, [0x33]⟩, .busy) := by decide

/-- L1.6 step 3: drained, so Idle. -/
theorem test_onReadyForNext_none :
    after (exec .onReadyForNext (State.enter .irq { fresh with txState := .busy })) (fun t => (t.response, t.txState)) =
    some (some ⟨false, 0x0000⟩, .idle) := by decide

theorem test_txstate_busy : after (exec .txstate busyFull) (·.response) = some (some ⟨false, 0x0001⟩) := by decide

/-! The facade family (95_test_vectors.md L1.3, L1.8, L2.5) -/

/-- L1.3: REINIT from a rich state; the outstanding byte stays. -/
theorem test_reinit :
    after (exec .reinit { busyFull with rxOvfCnt := 7 })
      (fun t => (shape t.txq, t.txState, t.rxOvfCnt, t.txShift)) =
    some (⟨0, 0, 0, []⟩, .idle, 0, some 0x31) := by decide

theorem test_retrieveByte_holds : after (exec .retrieveByte fresh) (fun t => (t.response, shape t.rxq)) =
    some (none, ⟨0, 0, 0, []⟩) := by decide

/-- F3 step 5. -/
theorem test_retrieveByte_byte :
    after (exec .retrieveByte { fresh1 with rxq := { topSlot := 0, buf := [(0, 0xFF)], rd := 0, wr := 0, cnt := 1 } })
      (fun t => (t.response, shape t.rxq)) = some (some ⟨false, 0x01FF⟩, ⟨0, 0, 0, []⟩) := by decide

/-- F4: a full RXQ drops the byte, and the counter saturates. -/
theorem test_onByteReceived_saturates :
    after (exec (.onByteReceived 0x02)
      (State.enter .irq { fresh1 with rxq := { fresh1.rxq with cnt := 1 }, rxOvfCnt := 0xFFFF }))
      (fun t => (t.response, t.rxOvfCnt, t.faultCode)) = some (some ⟨false, 0x0001⟩, 0xFFFF, 0) := by decide

/-- F2: a zero byte is stored. -/
theorem test_onByteReceived_zero :
    after (exec (.onByteReceived 0x00) (fresh.enter .irq)) (fun t => (t.response, shape t.rxq)) =
    some (some ⟨false, 0x0000⟩, ⟨0, 1, 1, [0x00]⟩) := by decide

/-- F5: CAP 1, TXQ full, Busy. -/
theorem test_status_busy_full :
    after (exec .status { fresh1 with txState := .busy, txq := { fresh1.txq with cnt := 1 } }) (·.response) =
    some (some ⟨false, 0x0039⟩) := by decide

/-- P4: STATUS of a faulted block, on the other port too. -/
theorem test_status_faulted :
    after (exec .status (State.enter .irq { fresh with faultCode := 5 })) (·.response) = some (some ⟨false, 0x05A5⟩) := by
  decide

theorem test_rxovf : after (exec .rxovf { fresh with rxOvfCnt := 0xFFFF }) (·.response) =
    some (some ⟨false, 0xFFFF⟩) := by decide

/-! The prologue (95_test_vectors.md L2.2), from power-on -/

theorem test_reserved_before_init :
    after (execute .main 0x1001 (State.powerOn 3 3)) (fun t => (t.response, faultOf t)) =
    some (some ⟨true, 0x0000⟩, (1, .main, 0x1001)) := by decide

theorem test_context_before_init :
    after (execute .irq 0x6041 (State.powerOn 3 3)) (fun t => (t.response, faultOf t)) =
    some (some ⟨true, 0x0000⟩, (2, .irq, 0x6041)) := by decide

theorem test_not_init :
    after (execute .irq 0xA058 (State.powerOn 3 3)) (fun t => (t.response, faultOf t)) =
    some (some ⟨true, 0x0000⟩, (3, .irq, 0xA058)) := by decide

theorem test_status_at_power_on : after (execute .main 0xC000 (State.powerOn 3 3)) (·.response) =
    some (some ⟨false, 0x0000⟩) := by decide

/-! Steps -/

/-- A step runs the command presented, from reset (95_test_vectors.md L2.2, last row). -/
theorem test_step_reinit :
    after (step (State.reset.withFetchWord 16 0x8000)) (fun t => (t.mainline.responses, t.initDone)) =
    some ([⟨false, 0x0000⟩], true) := by decide

/-- A command only P_IRQ permits is presented there. -/
theorem test_step_onByteReceived :
    after (step (State.withFetchWord fresh 16 0xA058)) (fun t => (t.irqHarness.responses, shape t.rxq)) =
    some ([⟨false, 0x0000⟩], ⟨0, 1, 1, [0x58]⟩) := by decide

/-- T3 step 6: the TX bridge handler. -/
theorem test_step_irqTx :
    after (step { busyFull with txShift := none, txReadyPending := true, schedule := [.irqTx] })
      (fun t => (t.wireOut, t.txShift, t.txReadyPending, shape t.txq)) =
    some ([0x31, 0x32], some 0x32, false, ⟨1, 0, 1, [0x33]⟩) := by decide

/-- F6 step 3: the RX bridge handler. -/
theorem test_step_irqRx :
    after (step { fresh with rxPending := some 0x58, wireIn := [0x59], schedule := [.irqRx] })
      (fun t => (shape t.rxq, t.rxPending, t.wireIn)) = some (⟨0, 1, 1, [0x58]⟩, none, [0x59]) := by decide

/-! ## Witnesses: the hypotheses of each obligation are met by something -/

/-- The queue conditions of an empty queue of capacity 4. -/
theorem fresh_queue (q : QueueSel) : (fresh.queue q).Wf ∧ (fresh.queue q).Stored := by
  cases q <;> exact ⟨⟨by decide, by decide, by decide, by decide⟩, ⟨by decide, by decide⟩⟩

/-- The same of RXQ with one byte at slot 2 and the write index at the last slot. -/
theorem q2_rxq : q2.rxq.Wf ∧ q2.rxq.Stored := ⟨⟨by decide, by decide, by decide, by decide⟩, ⟨by decide, by decide⟩⟩

/-- The same of a full TXQ of capacity 2. -/
theorem busyFull_txq : busyFull.txq.Wf ∧ busyFull.txq.Stored :=
  ⟨⟨by decide, by decide, by decide, by decide⟩, ⟨by decide, by decide⟩⟩

/-- TXQ with one free slot, the last one, Busy. -/
def busyOneFree : State :=
  { busyFull with txq := { topSlot := 1, buf := [(0, 0x32)], rd := 0, wr := 1, cnt := 1 } }

theorem busyOneFree_txq : busyOneFree.txq.Wf ∧ busyOneFree.txq.Stored :=
  ⟨⟨by decide, by decide, by decide, by decide⟩, ⟨by decide, by decide⟩⟩

theorem witness_DecodeEncodeInverse :
    (Instr.qenq .txq 0xFF).wellFormed = true ∧ decode 0x31FF = .cmd (.qenq .txq 0xFF) := by decide

/-- A word for each disjunct: RSV at 001 and 111, Q in formats D and N, DATA in formats QN and N. -/
theorem witness_MustBeZeroFieldsRaiseReserved : fresh.faultCode = 0 ∧
    (Fields.ofWord 0x1200).rsv ≠ 0 ∧ (Fields.ofWord 0x3E00).rsv ≠ 0 ∧
    ((Fields.ofWord 0x6100).q = 1 ∧ formatOf (Fields.ofWord 0x6100).op = some .d) ∧
    ((Fields.ofWord 0x7100).q = 1 ∧ formatOf (Fields.ofWord 0x7100).op = some .n) ∧
    ((Fields.ofWord 0x1001).data ≠ 0 ∧ formatOf (Fields.ofWord 0x1001).op = some .qn) ∧
    ((Fields.ofWord 0x70FF).data ≠ 0 ∧ formatOf (Fields.ofWord 0x70FF).op = some .n) := by decide

theorem witness_StepRunsDecodedInstruction_main : ∃ (s t : State) (w : Word) (i : Instr) (r : Response),
    s.nextTurn = .mainline ∧ (s.config = .component ∨ s.faultCode = 0) ∧ s.mainline.current = some w ∧
    decode w = .cmd i ∧ exec i (s.passTurn.enter .main) = .next t ∧ t.response = some r :=
  ⟨fresh.present 0x6041, _, 0x6041, .submitByte 0x41, ⟨false, 0⟩, rfl, .inl rfl, rfl, by decide, rfl, rfl⟩

theorem witness_StepRunsDecodedInstruction_irq : ∃ (s t : State) (w : Word) (i : Instr) (r : Response),
    s.nextTurn = .irqHarness ∧ s.config = .component ∧ s.irqHarness.current = some w ∧
    decode w = .cmd i ∧ exec i (s.passTurn.enter .irq) = .next t ∧ t.response = some r :=
  ⟨fresh.present 0xA058, _, 0xA058, .onByteReceived 0x58, ⟨false, 0⟩, rfl, rfl, rfl, by decide, rfl, rfl⟩

/-- A harness about to present the all-zero word on P_IRQ. -/
def presentsZero : State :=
  { fresh with
    config := .component
    irqHarness := { prog := [0x0000], idx := 0, responses := [] }
    schedule := [.irqHarness] }

/-- A reserved word, on an unfaulted block and on a faulted one, and on the other port. -/
theorem witness_StepRunsDecodedInstruction_reserved :
    (∃ s : State, s.nextTurn = .mainline ∧ s.config = .system ∧ s.faultCode = 0 ∧ s.mainline.current = some 0xFFFF) ∧
    (∃ s : State, s.nextTurn = .mainline ∧ s.config = .component ∧ s.faultCode ≠ 0 ∧ s.mainline.current = some 0xFFFF) ∧
    (presentsZero.nextTurn = .irqHarness ∧ presentsZero.config = .component ∧
      presentsZero.irqHarness.current = some 0x0000) ∧
    decode 0xFFFF = .reserved ∧ decode 0x0000 = .reserved :=
  ⟨⟨{ fresh with mainline := { prog := [0xFFFF], idx := 0, responses := [] }, schedule := [.mainline] },
      rfl, rfl, rfl, rfl⟩,
    ⟨{ fresh.present 0xFFFF with faultCode := 5 }, rfl, rfl, by decide, rfl⟩, ⟨rfl, rfl, rfl⟩, by decide, by decide⟩

/-- The main-line program waits in RETRIEVEBYTE, a byte being on the line. -/
def waiting : State :=
  { fresh with mainline := { prog := [0x9000], idx := 0, responses := [] }, wireIn := [0x58] }

theorem waiting_holding : waiting.holding := ⟨0x9000, rfl, by decide⟩

theorem witness_StepRunsDecodedInstruction_holds : ∃ s : State,
    s.nextTurn = .mainline ∧ s.holding ∧ s.stuck = false :=
  ⟨{ waiting with schedule := [.mainline] }, rfl, ⟨0x9000, rfl, by decide⟩, by decide⟩

theorem witness_PrologueOrder_faulted : ({ fresh with faultCode := 5 } : State).faultCode ≠ 0 ∧
    (0x8000 : Word) ≠ 0xC000 ∧ (0xC000 : Word) = 0xC000 := by decide

theorem witness_PrologueOrder_faults : fresh.faultCode = 0 ∧ decode 0x0000 = .reserved ∧
    decode 0x7000 = .cmd .onReadyForNext ∧ permitted fresh.context .onReadyForNext = false := by decide

theorem witness_PrologueOrder_notInit : ∃ s : State, s.faultCode = 0 ∧ decode 0x1000 = .cmd (.qempty .rxq) ∧
    permitted s.context (.qempty .rxq) = true ∧ s.initDone = false ∧ Instr.qempty .rxq ≠ .reinit ∧
    Instr.qempty .rxq ≠ .status := ⟨State.powerOn 0 0, by decide⟩

theorem witness_PrologueOrder_ready : ∃ t, fresh.Ready (.qempty .rxq) ∧ decode 0x1000 = .cmd (.qempty .rxq) ∧
    executeWord 0x1000 fresh = .next t ∧ exec (.qempty .rxq) fresh = .next t :=
  ⟨_, ⟨rfl, rfl, .inl rfl⟩, by decide, rfl, rfl⟩

theorem witness_PortPermissions : ∃ t u, fresh.faultCode = 0 ∧ exec .onReadyForNext fresh = .next t ∧
    exec .status fresh = .next u := ⟨_, _, rfl, rfl, rfl⟩

theorem witness_FaultingCommandWritesOnlyTheFault : ∃ t, exec (.qdeq .rxq) fresh = .next t ∧
    t.faultCode ≠ fresh.faultCode := ⟨_, rfl, by decide⟩

theorem witness_FaultsEachCommandCanRaise : (∃ s t : State, s.faultCode = 0 ∧ exec (.qdeq .rxq) s = .next t ∧
    t.faultCode = FaultCause.code .queueEmpty) ∧ FaultCause.queueEmpty ∈ canRaise (.qdeq .rxq) :=
  ⟨⟨fresh, _, rfl, rfl, by decide⟩, by decide⟩

theorem witness_QueuePredicatesAnswer : ∀ q, fresh.Ready (.qempty q) ∧ fresh.Ready (.qfull q) :=
  fun _ => ⟨⟨rfl, rfl, .inl rfl⟩, ⟨rfl, rfl, .inl rfl⟩⟩

/-- The last free slot, for each queue. -/
theorem witness_QenqAppends : (State.enter .irq { q2 with rxq := { q2.rxq with rd := 0, cnt := 3 } }).Ready (.qenq .rxq 0x13) ∧
    ({ q2.rxq with rd := 0, cnt := 3 } : Queue).Wf ∧ ({ q2.rxq with rd := 0, cnt := 3 } : Queue).Stored ∧
    ({ q2.rxq with rd := 0, cnt := 3 } : Queue).cnt < ({ q2.rxq with rd := 0, cnt := 3 } : Queue).cap ∧
    busyOneFree.Ready (.qenq .txq 0x33) ∧ busyOneFree.txq.Wf ∧ busyOneFree.txq.Stored ∧
    busyOneFree.txq.cnt < busyOneFree.txq.cap :=
  ⟨⟨rfl, rfl, .inl rfl⟩, ⟨by decide, by decide, by decide, by decide⟩, ⟨by decide, by decide⟩, by decide,
    ⟨rfl, rfl, .inl rfl⟩, busyOneFree_txq.1, busyOneFree_txq.2, by decide⟩

/-- The last byte of RXQ, and a full TXQ. -/
theorem witness_QdeqTakesOldest : q2.Ready (.qdeq .rxq) ∧ q2.rxq.Wf ∧ 0 < q2.rxq.cnt ∧
    (busyFull.enter .irq).Ready (.qdeq .txq) ∧ (busyFull.enter .irq).txq.Wf ∧ 0 < (busyFull.enter .irq).txq.cnt :=
  ⟨⟨rfl, rfl, .inl rfl⟩, q2_rxq.1, by decide, ⟨rfl, rfl, .inl rfl⟩, busyFull_txq.1, by decide⟩

theorem witness_QueueBoundFaults : busyFull.Ready (.qenq .txq 0x34) ∧ (busyFull.queue .txq).cnt = (busyFull.queue .txq).cap ∧
    fresh.Ready (.qdeq .rxq) ∧ (fresh.queue .rxq).cnt = 0 :=
  ⟨⟨rfl, rfl, .inl rfl⟩, by decide, ⟨rfl, rfl, .inl rfl⟩, rfl⟩

theorem witness_QresetEmptiesOneQueue : ∀ q, busyFull.Ready (.qreset q) := fun _ => ⟨rfl, rfl, .inl rfl⟩

theorem witness_SubmitByteIdleWritesSink : fresh.Ready (.submitByte 0x41) ∧ fresh.txState = .idle ∧ fresh.txShift = none :=
  ⟨⟨rfl, rfl, .inl rfl⟩, rfl, rfl⟩

theorem witness_SubmitByteBusyEnqueues : busyOneFree.Ready (.submitByte 0x33) ∧ busyOneFree.txState = .busy ∧
    busyOneFree.txq.Wf ∧ busyOneFree.txq.Stored ∧ busyOneFree.txq.cnt < busyOneFree.txq.cap :=
  ⟨⟨rfl, rfl, .inl rfl⟩, rfl, busyOneFree_txq.1, busyOneFree_txq.2, by decide⟩

theorem witness_SubmitByteHoldsOrOverruns : busyFull.Ready (.submitByte 0x34) ∧ busyFull.txState = .busy ∧
    busyFull.txq.cnt = busyFull.txq.cap ∧ ({ busyFull with txState := .idle } : State).Ready (.submitByte 0x34) ∧
    ({ busyFull with txState := .idle } : State).txShift ≠ none :=
  ⟨⟨rfl, rfl, .inl rfl⟩, rfl, by decide, ⟨rfl, rfl, .inl rfl⟩, by decide⟩

theorem witness_OnReadyForNextDrains : (fresh.enter .irq).Ready .onReadyForNext ∧ (fresh.enter .irq).txq.cnt = 0 ∧
    (busyOneFree.enter .irq).Ready .onReadyForNext ∧ (busyOneFree.enter .irq).txq.Wf ∧
    0 < (busyOneFree.enter .irq).txq.cnt :=
  ⟨⟨rfl, rfl, .inl rfl⟩, rfl, ⟨rfl, rfl, .inl rfl⟩, busyOneFree_txq.1, by decide⟩

/-- REINIT is ready before the first one and after it, a byte being outstanding or not. -/
theorem witness_ReinitResultState : (State.powerOn 0 0).Ready .reinit ∧ busyFull.Ready .reinit :=
  ⟨⟨rfl, rfl, .inr rfl⟩, ⟨rfl, rfl, .inl rfl⟩⟩

theorem witness_ReadsAfterReinit : busyFull.Ready .reinit := witness_ReinitResultState.2

theorem witness_RetrieveByteAnswersOrHolds : fresh.Ready .retrieveByte ∧ fresh.rxq.cnt = 0 ∧ q2.Ready .retrieveByte ∧
    q2.rxq.Wf ∧ 0 < q2.rxq.cnt :=
  ⟨⟨rfl, rfl, .inl rfl⟩, rfl, ⟨rfl, rfl, .inl rfl⟩, q2_rxq.1, by decide⟩

/-- Room in an empty RXQ, and a full RXQ with the counter at its last value. -/
theorem witness_OnByteReceivedAcceptsOrDrops : (fresh.enter .irq).Ready (.onByteReceived 0x58) ∧
    (fresh.enter .irq).rxq.Wf ∧ (fresh.enter .irq).rxq.Stored ∧ (fresh.enter .irq).rxq.cnt < (fresh.enter .irq).rxq.cap ∧
    ∃ s : State, s.Ready (.onByteReceived 0x58) ∧ s.rxq.cnt = s.rxq.cap ∧ s.rxOvfCnt = 0xFFFF :=
  ⟨⟨rfl, rfl, .inl rfl⟩, (fresh_queue .rxq).1, (fresh_queue .rxq).2, by decide,
    State.enter .irq { fresh1 with rxq := { fresh1.rxq with cnt := 1 }, rxOvfCnt := 0xFFFF },
    ⟨rfl, rfl, .inl rfl⟩, rfl, rfl⟩

theorem witness_ReceiveRoundTrip : fresh.faultCode = 0 ∧ fresh.initDone = true ∧ fresh.rxq.Wf ∧ fresh.rxq.Stored ∧
    fresh.rxq.cnt = 0 := ⟨rfl, rfl, (fresh_queue .rxq).1, (fresh_queue .rxq).2, rfl⟩

theorem witness_StateReadsAnswer : busyFull.Ready .txstate ∧ busyFull.Ready .rxovf :=
  ⟨⟨rfl, rfl, .inl rfl⟩, ⟨rfl, rfl, .inl rfl⟩⟩

theorem witness_ReadCommandsFrame : ∀ q, ∃ t₁ t₂ t₃ t₄ t₅, exec (.qempty q) busyFull = .next t₁ ∧
    exec (.qfull q) busyFull = .next t₂ ∧ exec .txstate busyFull = .next t₃ ∧ exec .status busyFull = .next t₄ ∧
    exec .rxovf busyFull = .next t₅ := fun _ => ⟨_, _, _, _, _, rfl, rfl, rfl, rfl, rfl⟩

theorem witness_QueueCommandsFrame : ∃ t₁ t₂ t₃, exec (.qenq .txq 0x33) busyOneFree = .next t₁ ∧
    exec (.qdeq .rxq) q2 = .next t₂ ∧ exec (.qreset .txq) busyFull = .next t₃ := ⟨_, _, _, rfl, rfl, rfl⟩

theorem witness_SubmitByteFrame : ∃ t₁ t₂, (exec (.submitByte 0x41) fresh = .next t₁ ∧ fresh.txState = .idle) ∧
    exec (.submitByte 0x33) busyOneFree = .next t₂ ∧ busyOneFree.txState = .busy :=
  ⟨_, _, ⟨rfl, rfl⟩, rfl, rfl⟩

theorem witness_OnReadyForNextFrame : ∃ t, exec .onReadyForNext (busyFull.enter .irq) = .next t := ⟨_, rfl⟩

theorem witness_ReinitFrame : ∃ t, exec .reinit busyFull = .next t := ⟨_, rfl⟩

theorem witness_ReceiveCommandsFrame : ∃ t₁ t₂, exec .retrieveByte q2 = .next t₁ ∧
    exec (.onByteReceived 0x13) (q2.enter .irq) = .next t₂ := ⟨_, _, rfl, rfl⟩

theorem witness_FaultRegistersOnlyOnError : ∃ t, exec .retrieveByte q2 = .next t ∧ t.response ≠ some ⟨true, 0⟩ :=
  ⟨_, rfl, by decide⟩

theorem witness_OnlyBlockingCommandsHold : ∃ t u, exec .retrieveByte fresh = .next t ∧ t.response = none ∧
    exec (.qempty .rxq) (fresh.enter .irq) = .next u ∧ (fresh.enter .irq).context = .irq :=
  ⟨_, _, rfl, rfl, rfl, rfl⟩

/-- A state that meets the machine invariant, with something of everything in it. -/
theorem inv_busyFull (sched : List Turn) (prog : List Word) :
    ({ busyFull with schedule := sched, mainline := { prog := prog, idx := 0, responses := [] } } : State).Inv :=
  ⟨(fresh_queue .rxq).2, busyFull_txq.2, fun _ => (fresh_queue .rxq).1, fun _ => busyFull_txq.1, Nat.zero_le 6, rfl, rfl,
    rfl⟩

/-- Power-on with a program that starts with REINIT, its turn next. -/
def launched : State :=
  { State.powerOn 3 3 with
    mainline := { prog := [0x8000, 0x6041, 0x8000], idx := 0, responses := [] }
    schedule := [.mainline]
    wireIn := [0x58] }

theorem witness_InitDoneOnlyByReinit : (∃ t, step launched = .next t ∧ launched.initDone = false ∧ t.initDone = true) ∧
    ∃ t, step { busyFull with schedule := [.txComplete] } = .next t ∧ busyFull.initDone = true :=
  ⟨⟨_, rfl, rfl, rfl⟩, ⟨_, rfl, rfl⟩⟩

/-- A faulted block whose TX bridge handler still runs. -/
theorem witness_FaultedBlockKeepsRegisters : ∃ s t : State, s.faultCode ≠ 0 ∧ step s = .next t ∧
    t.txReadyPending ≠ s.txReadyPending :=
  ⟨{ busyFull with faultCode := 6, txReadyPending := true, schedule := [.irqTx] }, _, by decide, rfl, by decide⟩

theorem witness_CapacitiesAndEnableFixed : ∃ t, step { busyFull with schedule := [.txComplete] } = .next t := ⟨_, rfl⟩

theorem witness_StepKeepsInvariant : ∃ s t : State, s.Inv ∧ step s = .next t ∧ t.txReadyPending = true :=
  ⟨_, _, inv_busyFull [.txComplete] [], rfl, rfl⟩

/-- Both outcomes: a step that goes on, and a hold that nothing lifts. -/
theorem witness_StepStopsOnlyWhenStuck : (∃ s t : State, s.Inv ∧ step s = .next t) ∧ ∃ s : State, s.Inv ∧ s.stuck = true :=
  ⟨⟨_, _, inv_busyFull [.txComplete] [], rfl⟩,
    { fresh with mainline := { prog := [0x9000], idx := 0, responses := [] } },
    ⟨(fresh_queue .rxq).2, (fresh_queue .txq).2, fun _ => (fresh_queue .rxq).1, fun _ => (fresh_queue .txq).1, by decide, rfl,
      rfl, rfl⟩, by decide⟩

theorem witness_EndedRunIsQuiescent : fresh.config = .system ∧ fresh.endsWell = true := by decide

/-- Two different states with the same view: other indices, and another stale byte. -/
theorem witness_UnobservedStateStaysUnobserved : ∃ s t : State, s.Inv ∧ t.Inv ∧ SameView s t ∧ s ≠ t := by
  refine ⟨{ fresh with rxq := { topSlot := 3, buf := [(0, 0x11), (1, 0x22)], rd := 1, wr := 2, cnt := 1 } },
    { fresh with rxq := { topSlot := 3, buf := [(3, 0x22)], rd := 3, wr := 0, cnt := 1 } }, ?_, ?_, ?_, by decide⟩
  · exact ⟨⟨by decide, by decide⟩, (fresh_queue .txq).2, fun _ => ⟨by decide, by decide, by decide, by decide⟩,
      fun _ => (fresh_queue .txq).1, by decide, rfl, rfl, rfl⟩
  · exact ⟨⟨by decide, by decide⟩, (fresh_queue .txq).2, fun _ => ⟨by decide, by decide, by decide, by decide⟩,
      fun _ => (fresh_queue .txq).1, by decide, rfl, rfl, rfl⟩
  · constructor <;> first | rfl | exact fun _ => rfl

theorem witness_PowerOnCommandsFault : ∃ s : State, s.PoweredOn ∧ permitted s.context (.qempty .rxq) = true ∧
    Instr.qempty .rxq ≠ .reinit ∧ Instr.qempty .rxq ≠ .status ∧ s.rxOvfCnt = 7 :=
  ⟨{ State.powerOn 3 3 with rxOvfCnt := 7 }, ⟨rfl, rfl, rfl, rfl, rfl, rfl⟩, rfl, by decide, by decide, rfl⟩

theorem witness_FifoOrder : ∀ q, fresh.faultCode = 0 ∧ fresh.initDone = true ∧ (fresh.queue q).Wf ∧
    (fresh.queue q).Stored ∧ (fresh.queue q).cnt = 0 ∧ [0x41, 0x54, 0x58, (0x59 : Byte)].length ≤ (fresh.queue q).cap := by
  intro q
  refine ⟨rfl, rfl, (fresh_queue q).1, (fresh_queue q).2, ?_, ?_⟩ <;> cases q <;> decide

theorem witness_CapacityIsReached : ∀ q, fresh.faultCode = 0 ∧ fresh.initDone = true ∧ (fresh.queue q).Wf ∧
    (fresh.queue q).Stored ∧ (fresh.queue q).cnt = 0 ∧ [0x41, 0x54, 0x58, (0x59 : Byte)].length = (fresh.queue q).cap := by
  intro q
  refine ⟨rfl, rfl, (fresh_queue q).1, (fresh_queue q).2, ?_, ?_⟩ <;> cases q <;> decide

/-- The TX bridge handler takes the oldest byte. -/
theorem witness_LiveElementsMoveInOrder : ∃ s t : State, s.Inv ∧ s.initDone = true ∧ step s = .next t ∧
    t.txq.live ≠ s.txq.live := by
  refine ⟨{ busyFull with txShift := none, txReadyPending := true, schedule := [.irqTx] }, _, ?_, rfl, rfl, by decide⟩
  exact ⟨(fresh_queue .rxq).2, busyFull_txq.2, fun _ => (fresh_queue .rxq).1, fun _ => busyFull_txq.1, by decide, rfl, rfl,
    rfl⟩

theorem witness_SingleSidedChecksAreStable : (∃ t, exec .onReadyForNext (busyOneFree.enter .irq) = .next t ∧
      (busyOneFree.queue .txq).Wf ∧ (busyOneFree.enter .irq).context ≠ producerPort .txq ∧
      (busyOneFree.queue .txq).isFull = false) ∧
    ∃ t, exec (.onByteReceived 0x13) (q2.enter .irq) = .next t ∧ (q2.queue .rxq).Wf ∧
      (q2.enter .irq).context ≠ consumerPort .rxq ∧ (q2.queue .rxq).isEmpty = false :=
  ⟨⟨_, rfl, busyOneFree_txq.1, by decide, by decide⟩, ⟨_, rfl, q2_rxq.1, by decide, by decide⟩⟩

theorem witness_TxBridgeHandler : (fresh.faultCode = 0 ∧ fresh.initDone = true ∧ fresh.txq.cnt = 0) ∧
    (busyFull.txq.Wf ∧ 0 < busyFull.txq.cnt ∧ busyFull.txShift ≠ none) ∧
    (∃ s : State, s.faultCode = 0 ∧ s.initDone = true ∧ s.txq.Wf ∧ 0 < s.txq.cnt ∧ s.txShift = none) ∧
    (∃ s : State, s.faultCode = 0 ∧ s.initDone = false ∧ s.txReadyPending = true) ∧
    ∃ s : State, s.faultCode ≠ 0 ∧ s.txReadyPending = true :=
  ⟨⟨rfl, rfl, rfl⟩, ⟨busyFull_txq.1, by decide, by decide⟩,
    ⟨{ busyFull with txShift := none }, rfl, rfl, busyFull_txq.1, by decide, rfl⟩,
    ⟨{ State.powerOn 0 0 with txReadyPending := true }, rfl, rfl, rfl⟩,
    { fresh with faultCode := 6, txReadyPending := true }, by decide, rfl⟩

theorem witness_RxBridgeHandler :
    (∃ s : State, s.rxPending = some 0x58 ∧ s.faultCode = 0 ∧ s.initDone = true ∧ s.rxq.Wf ∧ s.rxq.Stored ∧
      s.rxq.cnt < s.rxq.cap) ∧
    (∃ s : State, s.rxPending = some 0x58 ∧ s.faultCode = 0 ∧ s.initDone = true ∧ s.rxq.cnt = s.rxq.cap) ∧
    (∃ s : State, s.rxPending = some 0xFF ∧ s.faultCode = 0 ∧ s.initDone = false) ∧
    ∃ s : State, s.rxPending = some 0xFF ∧ s.faultCode ≠ 0 :=
  ⟨⟨{ fresh with rxPending := some 0x58 }, rfl, rfl, rfl, (fresh_queue .rxq).1, (fresh_queue .rxq).2, by decide⟩,
    ⟨{ fresh1 with rxPending := some 0x58, rxq := { fresh1.rxq with cnt := 1 } }, rfl, rfl, rfl, rfl⟩,
    ⟨{ State.powerOn 0 0 with rxPending := some 0xFF }, rfl, rfl, rfl⟩,
    { fresh with rxPending := some 0xFF, faultCode := 5 }, rfl, by decide⟩

theorem witness_TransceiverEvents :
    (∃ s : State, s.config = .system ∧ s.nextTurn = .txComplete ∧ s.txShift ≠ none) ∧
    (∃ s : State, s.config = .system ∧ s.nextTurn = .rxDeliver ∧ s.rxPending = none ∧ s.wireIn = [0x58]) ∧
    ∃ s : State, s.config = .system ∧ s.nextTurn = .rxDeliver ∧ s.rxPending ≠ none ∧ s.stuck = false :=
  ⟨⟨{ busyFull with schedule := [.txComplete] }, rfl, rfl, by decide⟩,
    ⟨{ waiting with schedule := [.rxDeliver] }, rfl, rfl, rfl, rfl⟩,
    ⟨{ waiting with schedule := [.rxDeliver], rxPending := some 0x57 }, rfl, rfl, by decide, by decide⟩⟩

/-- Each of the four changes of the two events happens in some step. -/
theorem witness_TransceiverEvents_setAndCleared :
    (∃ s t : State, step s = .next t ∧ s.txReadyPending = false ∧ t.txReadyPending = true) ∧
    (∃ s t : State, step s = .next t ∧ s.txReadyPending = true ∧ t.txReadyPending = false) ∧
    (∃ s t : State, step s = .next t ∧ s.rxPending = none ∧ t.rxPending = some 0x58) ∧
    ∃ s t : State, step s = .next t ∧ s.rxPending = some 0x58 ∧ t.rxPending ≠ some 0x58 :=
  ⟨⟨{ busyFull with schedule := [.txComplete] }, _, rfl, rfl, rfl⟩,
    ⟨{ fresh with txReadyPending := true, schedule := [.irqTx] }, _, rfl, rfl, rfl⟩,
    ⟨{ waiting with schedule := [.rxDeliver] }, _, rfl, rfl, rfl⟩,
    ⟨{ fresh with rxPending := some 0x58, schedule := [.irqRx] }, _, rfl, rfl, by decide⟩⟩

/-- Busy with a full TXQ and a byte outstanding, about to complete it; the program waits in SUBMITBYTE. -/
def heldSubmit : State :=
  { busyFull with
    mainline := { prog := [0x6034], idx := 0, responses := [] }
    schedule := [.txComplete, .irqTx, .mainline, .txComplete, .irqTx, .txComplete, .irqTx, .txComplete, .irqTx] }

theorem word_6034 : rawTxWord 0x6034 = false ∧ reinitWord 0x6034 = false ∧ decode 0x6034 = .cmd (.submitByte 0x34) := by
  decide

theorem of_remaining_6034 {P : Word → Prop} (h : P 0x6034) : ∀ w ∈ [(0x6034 : Word)], P w :=
  fun _ hw => (List.mem_singleton.mp hw).symm ▸ h

theorem heldSubmit_premises : heldSubmit.TxPremises := ⟨rfl, of_remaining_6034 word_6034.1, rfl⟩

theorem heldSubmit_idleEmpty : heldSubmit.IdleEmpty := by unfold State.IdleEmpty; decide

theorem heldSubmit_busyMatches : heldSubmit.BusyMatches := ⟨by decide, by decide⟩

theorem witness_IdleMeansEmptyTxq : (∃ t, busyFull.Ready .reinit ∧ exec .reinit busyFull = .next t) ∧
    ∃ t, heldSubmit.TxPremises ∧ heldSubmit.IdleEmpty ∧ step heldSubmit = .next t :=
  ⟨⟨_, ⟨rfl, rfl, .inl rfl⟩, rfl⟩, ⟨_, heldSubmit_premises, heldSubmit_idleEmpty, rfl⟩⟩

theorem word_8000 : rawTxWord 0x8000 = false ∧ reinitWord 0x8000 = true := by decide

/-- A REINIT waits behind an active transmitter, and another agent moves. -/
def reinitWaits : State := { heldSubmit with mainline := { prog := [0x8000], idx := 0, responses := [] } }

/-- A REINIT is issued while the transmitter is quiet. -/
def reinitQuiet : State :=
  { fresh with
    wireOut := [0x41]
    mainline := { prog := [0x6041, 0x8000], idx := 1, responses := [⟨false, 0⟩] }
    schedule := [.mainline] }

theorem reinitQuiet_reinitQuiet : reinitQuiet.ReinitQuiet := fun _ _ _ _ => ⟨rfl, rfl⟩

theorem reinitWaits_reinitQuiet : reinitWaits.ReinitQuiet := fun h => absurd h (by decide)

theorem witness_BusyMatchesTransmitter : ∃ t u, (reinitWaits.TxPremises ∧ reinitWaits.faultCode = 0 ∧
      reinitWaits.IdleEmpty ∧ reinitWaits.BusyMatches ∧ reinitWaits.ReinitQuiet ∧ step reinitWaits = .next t) ∧
    reinitQuiet.TxPremises ∧ reinitQuiet.faultCode = 0 ∧ reinitQuiet.IdleEmpty ∧ reinitQuiet.BusyMatches ∧
    reinitQuiet.ReinitQuiet ∧ step reinitQuiet = .next u :=
  ⟨_, _, ⟨⟨rfl, fun _ hw => (List.mem_singleton.mp hw).symm ▸ word_8000.1, rfl⟩, rfl, heldSubmit_idleEmpty,
      ⟨heldSubmit_busyMatches.busy, heldSubmit_busyMatches.apart⟩, reinitWaits_reinitQuiet, rfl⟩,
    ⟨rfl, fun _ hw => (List.mem_singleton.mp hw).symm ▸ word_8000.1, rfl⟩, rfl, fun _ => rfl,
    ⟨by decide, by decide⟩, reinitQuiet_reinitQuiet, rfl⟩

/-- Three bytes submitted, the first on the wire, two queued. -/
def ordered : State :=
  { heldSubmit with mainline := { prog := [0x6031, 0x6032, 0x6033, 0x6034], idx := 3, responses := List.replicate 3 ⟨false, 0⟩ } }

theorem submitted_three : submitted [0x6031, 0x6032, 0x6033] = [0x31, 0x32, 0x33] := by decide

theorem submitted_one : submitted [0x6041] = [0x41] := by decide

theorem ordered_wireOrdered : ordered.WireOrdered :=
  ⟨⟨rfl, of_remaining_6034 word_6034.1, rfl⟩, heldSubmit_idleEmpty,
    fun _ => ⟨heldSubmit_busyMatches.busy, heldSubmit_busyMatches.apart⟩, busyFull_txq.1, submitted_three.symm⟩

theorem reinitQuiet_wireOrdered : reinitQuiet.WireOrdered :=
  ⟨⟨rfl, fun _ hw => (List.mem_singleton.mp hw).symm ▸ word_8000.1, rfl⟩, fun _ => rfl,
    fun _ => ⟨by decide, by decide⟩, (fresh_queue .txq).1, submitted_one.symm⟩

theorem ordered_inv : ordered.Inv :=
  ⟨(fresh_queue .rxq).2, busyFull_txq.2, fun _ => (fresh_queue .rxq).1, fun _ => busyFull_txq.1, by decide, rfl, rfl, rfl⟩

theorem reinitQuiet_inv : reinitQuiet.Inv :=
  ⟨(fresh_queue .rxq).2, (fresh_queue .txq).2, fun _ => (fresh_queue .rxq).1, fun _ => (fresh_queue .txq).1, by decide, rfl,
    rfl, rfl⟩

/-- A byte is on the wire and two wait; a later REINIT is issued while the transmitter is quiet. -/
theorem witness_WireOrderKept : ∃ t u, (ordered.Inv ∧ ordered.WireOrdered ∧ ordered.ReinitQuiet ∧ step ordered = .next t) ∧
    reinitQuiet.Inv ∧ reinitQuiet.WireOrdered ∧ reinitQuiet.ReinitQuiet ∧ step reinitQuiet = .next u ∧
    u.mainline.idx = 2 :=
  ⟨_, _, ⟨ordered_inv, ordered_wireOrdered, fun h => absurd h (by decide), rfl⟩, reinitQuiet_inv, reinitQuiet_wireOrdered,
    reinitQuiet_reinitQuiet, rfl, rfl⟩

/-- The step of `reinitQuiet` leaves a run that has ended well. -/
theorem witness_WireIsPrefixOfSubmitted : ∃ t, reinitQuiet.Inv ∧ reinitQuiet.WireOrdered ∧ reinitQuiet.ReinitQuiet ∧
    step reinitQuiet = .next t ∧ t.endsWell = true :=
  ⟨_, reinitQuiet_inv, reinitQuiet_wireOrdered, reinitQuiet_reinitQuiet, rfl, by decide⟩

/-- A step that records a fault: the next word is reserved. -/
theorem witness_WireIsPrefixOfSubmitted_faulting : ∃ s t : State, s.Inv ∧ s.WireOrdered ∧ s.ReinitQuiet ∧
    step s = .next t ∧ t.faultCode = 1 :=
  ⟨{ reinitQuiet with mainline := { prog := [0x6041, 0x0000], idx := 1, responses := [⟨false, 0⟩] } }, _,
    ⟨(fresh_queue .rxq).2, (fresh_queue .txq).2, fun _ => (fresh_queue .rxq).1, fun _ => (fresh_queue .txq).1, by decide,
      rfl, rfl, rfl⟩,
    ⟨⟨rfl, fun _ hw => (List.mem_singleton.mp hw).symm ▸ (by decide : rawTxWord 0x0000 = false), rfl⟩, fun _ => rfl,
      fun _ => ⟨by decide, by decide⟩, (fresh_queue .txq).1, submitted_one.symm⟩,
    fun _ _ _ _ => ⟨rfl, rfl⟩, rfl, by decide⟩


theorem words_6041_8000 : rawTxWord 0x6041 = false ∧ rawTxWord 0x8000 = false := by decide

/-- A byte is on the line, and a later REINIT is to come. -/
theorem witness_CleanLaunchEstablishesWireOrder : launched.CleanLaunch ∧
    ∀ w ∈ launched.mainline.prog.tail, rawTxWord w = false := by
  refine ⟨⟨⟨rfl, rfl, rfl, rfl, rfl, rfl⟩, rfl, rfl, rfl, rfl, rfl⟩, fun w hw => ?_⟩
  rcases List.mem_cons.mp hw with rfl | hw
  · exact words_6041_8000.1
  · exact (List.mem_singleton.mp hw).symm ▸ words_6041_8000.2

theorem witness_ReinitWhileTransmittingOverruns : busyFull.Ready .reinit ∧ busyFull.txShift ≠ none :=
  ⟨⟨rfl, rfl, .inl rfl⟩, by decide⟩

theorem witness_HoldWithoutInterruptsNeverEnds : ∃ s t : State, s.config = .system ∧ s.irqEnabled = false ∧ s.holding ∧
    step s = .next t :=
  ⟨{ waiting with irqEnabled := false, schedule := [.rxDeliver] }, _, rfl, rfl, ⟨0x9000, rfl, by decide⟩, rfl⟩

/-! Runs -/

/-- The next state, or the same one where the step stops. -/
def stepOrStay (s : State) : State :=
  match step s with
  | .next t => t
  | .fault _ => s
  | .refused _ => s

/-- The run from a state. -/
def runFrom (s : State) : Nat → State
  | 0 => s
  | n + 1 => stepOrStay (runFrom s n)

theorem isRun_runFrom (s : State) : IsRun (runFrom s) := by
  intro n
  change step (runFrom s n) = .next (stepOrStay (runFrom s n)) ∨
    (∀ t, step (runFrom s n) ≠ .next t) ∧ stepOrStay (runFrom s n) = runFrom s n
  unfold stepOrStay
  cases step (runFrom s n) <;> simp

/-- No agent has a step, and none will: the turns go on, or the run has stopped. -/
def Quiet (s : State) : Prop := ∀ t, s.enabled t = false

theorem quiet_of_quiescent {s : State} (h : s.quiescent = true) : Quiet s := by
  intro t
  simp only [State.quiescent, Turn.all, List.all_cons, List.all_nil, Bool.and_true, Bool.and_eq_true,
    Bool.not_eq_true'] at h
  cases t <;> simp_all

theorem quiet_stepOrStay {s : State} (h : Quiet s) : Quiet (stepOrStay s) := by
  cases hs : s.stuck with
  | true => simpa [stepOrStay, step, transition, hs] using h
  | false =>
    have he : stepOrStay s = s.passTurn := by simp [stepOrStay, step, transition, hs, takeTurn, enabled_passTurn, h _]
    rw [he]
    exact fun t => (enabled_passTurn t).trans (h t)

theorem quiet_after {s : State} {k : Nat} (h : Quiet (runFrom s k)) (m : Nat) : Quiet (runFrom s (k + m)) := by
  induction m with
  | zero => exact h
  | succ m ih => exact quiet_stepOrStay ih

/-- A run that goes quiet is fair. -/
theorem weaklyFair_of_quiet {s : State} {k : Nat} (h : Quiet (runFrom s k)) : WeaklyFair (runFrom s) := by
  have hf : ∀ t, FairTo t (runFrom s) := fun t n hn => by
    have := hn (k + n) (by omega)
    rw [quiet_after h n t] at this
    simp at this
  refine ⟨hf _, hf _, hf _, fun n hn => ?_⟩
  have := hn (k + n) (by omega)
  rw [State.handlerEnabled, quiet_after h n .irqTx, quiet_after h n .irqRx] at this
  simp at this

/-- T3: the held SUBMITBYTE completes and the queue drains. -/
theorem heldSubmit_quiet : Quiet (runFrom heldSubmit 9) := quiet_of_quiescent (by decide)

theorem witness_HeldSubmitEventuallyCompletes : ∃ run : Nat → State, IsRun run ∧ WeaklyFair run ∧ (run 0).Inv ∧
    (run 0).TxPremises ∧ (run 0).faultCode = 0 ∧ (run 0).IdleEmpty ∧ (run 0).BusyMatches ∧ (run 0).irqEnabled = true ∧
    (run 0).holding ∧ (run 0).mainline.current = some 0x6034 ∧ decode 0x6034 = .cmd (.submitByte 0x34) :=
  ⟨runFrom heldSubmit, isRun_runFrom _, weaklyFair_of_quiet heldSubmit_quiet, inv_busyFull _ _, heldSubmit_premises, rfl,
    heldSubmit_idleEmpty, heldSubmit_busyMatches, rfl, ⟨0x6034, rfl, by decide⟩, rfl, by decide⟩

/-- F6: RETRIEVEBYTE waits, and the bridge releases it. -/
def heldRetrieve : State := { waiting with schedule := [.rxDeliver, .irqRx, .mainline] }

theorem word_9000 : rawTxWord 0x9000 = false ∧ decode 0x9000 = .cmd .retrieveByte := by decide

theorem heldRetrieve_quiet : Quiet (runFrom heldRetrieve 3) := quiet_of_quiescent (by decide)

theorem witness_HeldRetrieveCompletesIffByteAccepted : ∃ run : Nat → State, IsRun run ∧ WeaklyFair run ∧ (run 0).Inv ∧
    (run 0).TxPremises ∧ (run 0).faultCode = 0 ∧ (run 0).IdleEmpty ∧ (run 0).BusyMatches ∧ (run 0).irqEnabled = true ∧
    (run 0).mainline.current = some 0x9000 ∧ decode 0x9000 = .cmd .retrieveByte ∧ (run 0).rxq.cnt = 0 ∧
    0 < (run 2).rxq.cnt :=
  ⟨runFrom heldRetrieve, isRun_runFrom _, weaklyFair_of_quiet heldRetrieve_quiet,
    ⟨(fresh_queue .rxq).2, (fresh_queue .txq).2, fun _ => (fresh_queue .rxq).1, fun _ => (fresh_queue .txq).1, by decide, rfl,
      rfl, rfl⟩, ⟨rfl, fun _ hw => (List.mem_singleton.mp hw).symm ▸ word_9000.1, rfl⟩, rfl, fun _ => rfl, ⟨by decide, by decide⟩, rfl, rfl, by decide, rfl, by decide⟩

/-- The same with an empty line: no byte comes, and the run has stopped from the start. -/
theorem witness_HeldRetrieve_never : ∃ run : Nat → State, IsRun run ∧ WeaklyFair run ∧ (run 0).TxPremises ∧
    (run 0).faultCode = 0 ∧ (run 0).mainline.current = some 0x9000 ∧ (run 0).rxq.cnt = 0 ∧ (run 0).stuck = true :=
  ⟨runFrom { waiting with wireIn := [] }, isRun_runFrom _, weaklyFair_of_quiet (k := 0) (quiet_of_quiescent (by decide)),
    ⟨rfl, fun _ hw => (List.mem_singleton.mp hw).symm ▸ word_9000.1, rfl⟩, rfl, rfl, rfl, by decide⟩

end Sys2Proof.Tests
end

/-! ## What is fixed for the life of an instance (00_scope.md R6, 60_exceptions.md R184) -/

namespace Sys2Proof.Machine

variable {s t : State}

/-- No queue operation changes the capacity (00_scope.md R6, 40_queue.md R101 to R103). -/
theorem QueueMove.topSlot {q q' : Queue} (h : QueueMove q q') : q'.topSlot = q.topSlot := by
  rcases h with rfl | ⟨b, -, he⟩ | ⟨v, -, hd⟩ | rfl
  · rfl
  · obtain ⟨-, rfl⟩ := Queue.enqueue_eq_some_iff.mp he
    rfl
  · obtain ⟨-, -, rfl⟩ := Queue.dequeue_eq_some_iff.mp hd
    rfl
  · rfl

/-- No step changes the interrupt enable (60_exceptions.md R184): the handlers read it, and no command writes it. -/
theorem step_irqEnabled (h : step s = .next t) : t.irqEnabled = s.irqEnabled := by
  cases step_cases h with
  | passed _ ht => subst ht; rfl
  | mainline _ _ _ _ _ _ hp _ ht => subst ht; exact hp.keepsBoundary.irqEnabled
  | harness _ _ _ _ _ _ hp _ ht => subst ht; exact hp.keepsBoundary.irqEnabled
  | irqTx _ _ _ _ u hx ht =>
    have hu : u.irqEnabled = s.irqEnabled := (exec_keepsBoundary hx).irqEnabled
    rcases ht with ⟨-, rfl⟩ | ⟨b, -, ⟨-, rfl⟩ | ⟨-, rfl⟩⟩ <;> exact hu
  | irqRx _ _ _ _ _ _ hx ht => subst ht; exact (exec_keepsBoundary hx).irqEnabled
  | txComplete _ _ _ ht => subst ht; rfl
  | rxDeliver _ _ _ _ _ _ ht => subst ht; rfl

/-- Settles O38: a step changes each queue by a queue operation, and none of them changes the capacity. -/
theorem capacitiesAndEnableFixed : Obligations.CapacitiesAndEnableFixed := fun _ _ h =>
  ⟨(step_queue h .rxq).topSlot, (step_queue h .txq).topSlot, step_irqEnabled h⟩

end Sys2Proof.Machine

/-! ## What a step keeps: fault registers, agents, context, `init_done` -/

namespace Sys2Proof.Machine

variable {s t : State} {i : Instr}

/-- A command's own rule writes at most the queues, the registers other than the fault registers, the sink and the
response (10_state.md R39). -/
theorem ran_frame (h : Ran i s t) : t = { s with
    rxq := t.rxq, txq := t.txq, txState := t.txState, initDone := t.initDone, rxOvfCnt := t.rxOvfCnt
    txShift := t.txShift, wireOut := t.wireOut, response := t.response } := by
  cases i with
  | qenq q b =>
    obtain ⟨-, Q, -, rfl⟩ := h
    cases q <;> rfl
  | qdeq q =>
    obtain ⟨-, v, Q, -, rfl⟩ := h
    cases q <;> rfl
  | qreset q =>
    simp only [Ran] at h
    subst h
    cases q <;> rfl
  | submitByte b => rcases h with ⟨-, -, rfl⟩ | ⟨-, -, rfl⟩ | ⟨-, -, Q, -, rfl⟩ <;> rfl
  | onReadyForNext => rcases h with ⟨-, rfl⟩ | ⟨-, v, Q, -, rfl⟩ <;> rfl
  | retrieveByte => rcases h with ⟨-, rfl⟩ | ⟨-, v, Q, -, rfl⟩ <;> rfl
  | onByteReceived b => rcases h with ⟨-, rfl⟩ | ⟨-, Q, -, rfl⟩ <;> rfl
  | _ =>
    simp only [Ran] at h
    subst h
    rfl

/-- A raise keeps the code of the first fault or records its own (60_exceptions.md R181). -/
theorem raise_faultCode_cases (c : FaultCause) (w : Word) (s : State) :
    (s.raise c w).faultCode = s.faultCode ∨ ∃ d : FaultCause, (s.raise c w).faultCode = d.code := by
  by_cases hf : s.faultCode = 0
  · exact .inr ⟨c, by rw [State.raise_of_unfaulted hf]⟩
  · exact .inl (by rw [State.raise_of_faulted hf]; rfl)

/-- A command keeps the fault code or records an assigned one (60_exceptions.md R180). -/
theorem exec_faultCode (h : exec i s = .next t) :
    t.faultCode = s.faultCode ∨ ∃ c : FaultCause, t.faultCode = c.code := by
  rcases exec_next h with ⟨-, -, rfl⟩ | ⟨-, -, rfl⟩ | ⟨-, -, -, -, rfl⟩ | ⟨-, c, -, rfl⟩ | ⟨-, hran⟩
  · exact .inl rfl
  · exact raise_faultCode_cases ..
  · exact raise_faultCode_cases ..
  · exact raise_faultCode_cases ..
  · exact .inl (ran_faultCode hran)

theorem Presented.faultCode {p : Port} {w : Word} {u : State} (h : Presented p w s u) :
    u.faultCode = s.faultCode ∨ ∃ c : FaultCause, u.faultCode = c.code := by
  rcases h with ⟨i, -, hx⟩ | ⟨-, rfl⟩
  · exact exec_faultCode (s := s.enter p) hx
  · exact raise_faultCode_cases .reserved w (s.enter p)

/-- The codes a fault records are at most 6 (60_exceptions.md R180). -/
theorem FaultCause.code_le (c : FaultCause) : c.code.toNat ≤ 6 := by cases c <;> decide

/-- A step keeps the fault code or leaves an assigned one (60_exceptions.md R180). -/
theorem step_faultCode (h : step s = .next t) : t.faultCode = s.faultCode ∨ ∃ c : FaultCause, t.faultCode = c.code := by
  rcases step_cases h with ⟨-, rfl⟩ | ⟨-, -, w, -, u, r, hp, -, rfl⟩ | ⟨-, -, w, -, u, r, hp, -, rfl⟩ |
    ⟨-, -, -, -, u, hx, h2⟩ | ⟨-, -, -, b, -, u, hx, rfl⟩ | ⟨-, -, -, rfl⟩ | ⟨-, -, -, b, rest, -, rfl⟩
  · exact .inl rfl
  · exact hp.faultCode
  · exact hp.faultCode
  · have hu : u.faultCode = s.faultCode ∨ ∃ c : FaultCause, u.faultCode = c.code :=
      exec_faultCode (s := s.passTurn.enter .irq) hx
    rcases h2 with ⟨-, rfl⟩ | ⟨b, -, ⟨-, rfl⟩ | ⟨-, rfl⟩⟩
    · exact hu
    · rcases raise_faultCode_cases .sinkOverrun readyWord u with hk | hc
      · exact hu.imp hk.trans fun ⟨c, hc⟩ => ⟨c, hk.trans hc⟩
      · exact .inr hc
    · exact hu
  · exact exec_faultCode (s := s.passTurn.enter .irq) (t := u) hx
  · exact .inl rfl
  · exact .inl rfl

/-- What a step does to the main-line agent: nothing, or, on MAIN's turn, the presented command completes
(60_exceptions.md R190). -/
theorem step_mainline (h : step s = .next t) : t.mainline = s.mainline ∨
    ((s.config = .component ∨ s.faultCode = 0) ∧ ∃ r, t.mainline =
      { s.mainline with idx := s.mainline.idx + 1, responses := s.mainline.responses ++ [r] }) := by
  rcases step_cases h with ⟨-, rfl⟩ | ⟨-, hrun, w, -, u, r, hp, -, rfl⟩ | ⟨-, -, w, -, u, r, hp, -, rfl⟩ |
    ⟨-, -, -, -, u, hx, h2⟩ | ⟨-, -, -, b, -, u, hx, rfl⟩ | ⟨-, -, -, rfl⟩ | ⟨-, -, -, b, rest, -, rfl⟩
  · exact .inl rfl
  · exact .inr ⟨hrun, r, rfl⟩
  · exact .inl hp.keepsBoundary.mainline
  · have hk := (exec_keepsBoundary hx).mainline
    rcases h2 with ⟨-, rfl⟩ | ⟨b, -, ⟨-, rfl⟩ | ⟨-, rfl⟩⟩ <;> exact .inl hk
  · exact .inl (exec_keepsBoundary hx).mainline
  · exact .inl rfl
  · exact .inl rfl

/-- What a step does to the component harness on P_IRQ: nothing, or the presented command completes
(60_exceptions.md R186). -/
theorem step_irqHarness (h : step s = .next t) : t.irqHarness = s.irqHarness ∨ ∃ r, t.irqHarness =
    { s.irqHarness with idx := s.irqHarness.idx + 1, responses := s.irqHarness.responses ++ [r] } := by
  rcases step_cases h with ⟨-, rfl⟩ | ⟨-, -, w, -, u, r, hp, -, rfl⟩ | ⟨-, -, w, -, u, r, hp, -, rfl⟩ |
    ⟨-, -, -, -, u, hx, h2⟩ | ⟨-, -, -, b, -, u, hx, rfl⟩ | ⟨-, -, -, rfl⟩ | ⟨-, -, -, b, rest, -, rfl⟩
  · exact .inl rfl
  · exact .inl hp.keepsBoundary.irqHarness
  · exact .inr ⟨r, rfl⟩
  · have hk := (exec_keepsBoundary hx).irqHarness
    rcases h2 with ⟨-, rfl⟩ | ⟨b, -, ⟨-, rfl⟩ | ⟨-, rfl⟩⟩ <;> exact .inl hk
  · exact .inl (exec_keepsBoundary hx).irqHarness
  · exact .inl rfl
  · exact .inl rfl

/-- Every transition ends in the main-line context (60_exceptions.md R191; the context's storage is log 11). -/
theorem step_context (h : step s = .next t) (hc : s.context = .main) : t.context = .main := by
  rcases step_cases h with ⟨-, rfl⟩ | ⟨-, -, w, -, u, r, hp, -, rfl⟩ | ⟨-, -, w, -, u, r, hp, -, rfl⟩ |
    ⟨-, -, -, -, u, hx, h2⟩ | ⟨-, -, -, b, -, u, hx, rfl⟩ | ⟨-, -, -, rfl⟩ | ⟨-, -, -, b, rest, -, rfl⟩
  · exact hc
  · rfl
  · rfl
  · rcases h2 with ⟨-, rfl⟩ | ⟨b, -, ⟨-, rfl⟩ | ⟨-, rfl⟩⟩ <;> rfl
  · rfl
  · exact hc
  · exact hc

/-- A command sets `init_done` only as REINIT on P_MAIN, and then both queues are reset (42_facade.md R150). -/
theorem exec_init (h : exec i s = .next t) : t.initDone = s.initDone ∨
    (i = .reinit ∧ s.context = .main ∧ t.initDone = true ∧ ∀ sel, t.queue sel = (s.queue sel).resetFields) := by
  rcases (exec_move h).init with hk | ⟨rfl, ht, hq⟩
  · exact .inl hk
  rcases exec_next h with ⟨-, -, rfl⟩ | ⟨-, -, rfl⟩ | ⟨-, -, -, -, rfl⟩ | ⟨-, c, -, rfl⟩ | ⟨hr, -⟩
  iterate 4 exact .inl rfl
  exact .inr ⟨rfl, by simpa [permitted] using (hr.resolve_left (by simp)).port, ht, hq⟩

/-- A step sets `init_done` only by a REINIT on MAIN's turn, and then both queues are reset (10_state.md R28). -/
theorem step_init (h : step s = .next t) : t.initDone = s.initDone ∨
    (s.nextTurn = .mainline ∧ (∃ w, s.mainline.current = some w ∧ decode w = .cmd .reinit) ∧ t.initDone = true ∧
      ∀ sel, t.queue sel = (s.queue sel).resetFields) := by
  rcases step_cases h with ⟨-, rfl⟩ | ⟨hturn, -, w, hw, u, r, hp, -, rfl⟩ | ⟨-, -, w, -, u, r, hp, -, rfl⟩ |
    ⟨-, -, -, -, u, hx, h2⟩ | ⟨-, -, -, b, -, u, hx, rfl⟩ | ⟨-, -, -, rfl⟩ | ⟨-, -, -, b, rest, -, rfl⟩
  · exact .inl rfl
  · rcases hp with ⟨i, hd, hx⟩ | ⟨-, rfl⟩
    · rcases exec_init hx with hk | ⟨rfl, -, ht, hq⟩
      · exact .inl hk
      · exact .inr ⟨hturn, ⟨w, hw, hd⟩, ht, hq⟩
    · exact .inl rfl
  · rcases hp with ⟨i, -, hx⟩ | ⟨-, rfl⟩
    · exact .inl ((exec_init hx).resolve_right (by simp))
    · exact .inl rfl
  · have hk : u.initDone = s.initDone := (exec_init hx).resolve_right (by simp)
    rcases h2 with ⟨-, rfl⟩ | ⟨b, -, ⟨-, rfl⟩ | ⟨-, rfl⟩⟩ <;> exact .inl hk
  · exact .inl ((exec_init hx).resolve_right (by simp))
  · exact .inl rfl
  · exact .inl rfl

/-- A step keeps a queue invariant that holds once the block is initialised: a queue moves, and REINIT resets it. -/
theorem step_wf (h : step s = .next t) (sel : QueueSel) (hw : s.initDone = true → (s.queue sel).Wf)
    (ht : t.initDone = true) : (t.queue sel).Wf := by
  rcases step_init h with hk | ⟨-, -, -, hq⟩
  · exact (step_queue h sel).wf (hw (hk ▸ ht))
  · exact hq sel ▸ Queue.Wf.resetFields _

/-- Settles O39, from what a step does to each part of the state. -/
theorem stepKeepsInvariant : Obligations.StepKeepsInvariant := by
  intro s t hs h
  refine ⟨(step_queue h .rxq).stored hs.rxqStored, (step_queue h .txq).stored hs.txqStored,
    step_wf h .rxq hs.rxqWf, step_wf h .txq hs.txqWf, ?_, ?_, ?_, step_context h hs.mainContext⟩
  · rcases step_faultCode h with hk | ⟨c, hc⟩
    · exact hk ▸ hs.faultLegal
    · exact hc ▸ c.code_le
  · rcases step_mainline h with hk | ⟨-, r, hk⟩ <;> simp [hk, hs.mainResponses]
  · rcases step_irqHarness h with hk | ⟨r, hk⟩ <;> simp [hk, hs.harnessResponses]

/-! ## `init_done` and faulted blocks -/

/-- The row of the opcode table behind a decoded command (30_encoding.md R82). -/
theorem row_of_decode {w : Word} (h : decode w = .cmd i) :
    ∃ r ∈ opcodeTable, r.hits w = true ∧ r.build (queueOperand w) (byteOperand w) = i := by
  unfold decode at h
  cases hr : opcodeTable.find? (OpcodeRow.hits w) with
  | none => simp [hr] at h
  | some r =>
    rw [hr] at h
    exact ⟨r, List.mem_of_find?_eq_some hr, List.find?_some hr, Decoded.cmd.inj h⟩

/-- The only word of REINIT is 0x8000 (30_encoding.md R75). -/
theorem eq_of_decode_reinit {w : Word} (h : decode w = .cmd .reinit) : w = 0x8000 := by
  obtain ⟨r, hr, hh, hb⟩ := row_of_decode h
  simp only [opcodeTable, List.mem_cons, List.not_mem_nil, or_false] at hr
  rcases hr with rfl | rfl | rfl | rfl | rfl | rfl | rfl | rfl | rfl | rfl | rfl | rfl | rfl
  on_goal 8 =>
    have hm : w &&& 0xFFFF = 0x8000 := by simpa [OpcodeRow.hits] using hh
    rwa [show (0xFFFF : Word) = BitVec.allOnes 16 from rfl, BitVec.and_allOnes] at hm
  all_goals exact absurd hb (by simp)

/-- Settles O36: `init_done` is set only by a REINIT on MAIN's turn. -/
theorem initDoneOnlyByReinit : Obligations.InitDoneOnlyByReinit := by
  intro s t h
  rcases step_init h with hk | ⟨hturn, ⟨w, hw, hd⟩, ht, -⟩
  · exact ⟨fun hs => hk.trans hs, fun hs ht => by simp [hk, hs] at ht⟩
  · exact ⟨fun _ => ht, fun _ _ => ⟨hturn, eq_of_decode_reinit hd ▸ hw⟩⟩

/-- A faulted block answers a command with its response alone (60_exceptions.md R182). -/
theorem exec_faulted (hf : s.faultCode ≠ 0) (h : exec i s = .next t) : t = { s with response := t.response } := by
  by_cases hi : i = .status
  · subst hi
    rw [exec_status, Host.Outcome.next.injEq] at h
    exact h ▸ rfl
  · rw [exec_of_faulted hf hi, Host.Outcome.next.injEq] at h
    exact h ▸ rfl

theorem Presented.faulted {p : Port} {w : Word} {u : State} (hf : s.faultCode ≠ 0) (h : Presented p w s u) :
    u = { s.enter p with response := u.response } := by
  rcases h with ⟨i, -, hx⟩ | ⟨-, rfl⟩
  · exact exec_faulted (s := s.enter p) hf hx
  · rw [State.raise_of_faulted (s := s.enter p) hf]
    rfl

/-- The block registers of 10_state.md R20 and the wire, each as it was. -/
structure KeepsBlock (s t : State) : Prop where
  faultCode : t.faultCode = s.faultCode
  faultPort : t.faultPort = s.faultPort
  faultWord : t.faultWord = s.faultWord
  rxq : t.rxq = s.rxq
  txq : t.txq = s.txq
  txState : t.txState = s.txState
  initDone : t.initDone = s.initDone
  rxOvfCnt : t.rxOvfCnt = s.rxOvfCnt
  wireOut : t.wireOut = s.wireOut

/-- No step touches the block registers or the wire of a faulted block (60_exceptions.md R182). -/
theorem step_faulted (hf : s.faultCode ≠ 0) (h : step s = .next t) : KeepsBlock s t := by
  rcases step_cases h with ⟨-, rfl⟩ | ⟨-, -, w, -, u, r, hp, -, rfl⟩ | ⟨-, -, w, -, u, r, hp, -, rfl⟩ |
    ⟨-, -, -, -, u, hx, h2⟩ | ⟨-, -, -, b, -, u, hx, rfl⟩ | ⟨-, -, -, rfl⟩ | ⟨-, -, -, b, rest, -, rfl⟩
  · constructor <;> rfl
  · rw [hp.faulted (s := s.passTurn) hf]
    constructor <;> rfl
  · rw [hp.faulted (s := s.passTurn) hf]
    constructor <;> rfl
  · rw [exec_of_faulted (s := s.passTurn.enter .irq) hf (by simp), Host.Outcome.next.injEq] at hx
    subst hx
    rcases h2 with ⟨-, rfl⟩ | ⟨b, hb, -⟩
    · constructor <;> rfl
    · simp at hb
  · rw [exec_faulted (s := s.passTurn.enter .irq) hf hx]
    constructor <;> rfl
  · constructor <;> rfl
  · constructor <;> rfl

/-- Settles O37: a faulted block answers commands without writing a register. -/
theorem faultedBlockKeepsRegisters : Obligations.FaultedBlockKeepsRegisters := by
  intro s t hf h
  obtain ⟨h1, h2, h3, h4, h5, h6, h7, h8, h9⟩ := step_faulted hf h
  exact ⟨h1, h2, h3, h4, h5, h6, h7, h8, h9⟩

/-- Settles O34: every way to write the fault registers answers an error. -/
theorem faultRegistersOnlyOnError : Obligations.FaultRegistersOnlyOnError := by
  intro i s t h hne
  rcases exec_next h with ⟨-, -, rfl⟩ | ⟨-, -, rfl⟩ | ⟨-, -, -, -, rfl⟩ | ⟨-, c, -, rfl⟩ | ⟨-, hran⟩
  iterate 4 exact absurd rfl hne
  rw [ran_frame hran]
  exact ⟨rfl, rfl, rfl⟩

end Sys2Proof.Machine

/-! ## Live elements (20_memory.md R62) -/

namespace Sys2Proof.Machine

variable {s t : State} {i : Instr} {sel : QueueSel}

/-- The moves that take or leave live elements in order: none, an append, a take from the front. -/
inductive OrderedMove (q q' : Queue) : Prop where
  | same (result : q' = q)
  | enqueued (b : Byte) (room : q.isFull = false) (result : q.enqueue b = some q')
  | dequeued (v : Byte) (some : q.isEmpty = false) (result : q.dequeue = .some (v, q'))

theorem OrderedMove.live {q q' : Queue} (h : OrderedMove q q') (hw : q.Wf) (hs : q.Stored) :
    q'.live = q.live ∨ (∃ b, q'.live = q.live ++ [b]) ∨ ∃ b, q.live = b :: q'.live := by
  rcases h with rfl | ⟨b, hf, he⟩ | ⟨v, hne, hd⟩
  · exact .inl rfl
  · exact .inr (.inl ⟨b, hw.live_enqueue hs (hw.lt_cap_of_not_full hf) he⟩)
  · exact .inr (.inr ⟨v, hw.live_dequeue (Queue.pos_of_not_empty hne) hd⟩)

/-- A queue is unchanged where another one is replaced, and moves as the replacement does where it is the one. -/
theorem OrderedMove.of_set {o : QueueSel} {Q : Queue} (hm : OrderedMove (s.queue o) Q)
    (ht : t.queue sel = (s.setQueue o Q).queue sel) : OrderedMove (s.queue sel) (t.queue sel) := by
  rw [ht]
  by_cases ho : sel = o
  · subst ho
    simpa using hm
  · exact .same (State.queue_setQueue_of_ne _ _ _ ho)

/-- The commands that discard a queue's elements (40_queue.md R109, 42_facade.md R150). -/
def Discards (sel : QueueSel) (i : Instr) : Prop := i = .qreset sel ∨ i = .reinit

/-- A command's own rule moves a queue in order, or is a QRESET of it or a REINIT and resets it. -/
theorem ran_queue (h : Ran i s t) (sel : QueueSel) : OrderedMove (s.queue sel) (t.queue sel) ∨
    (Discards sel i ∧ t.queue sel = (s.queue sel).resetFields) := by
  cases i with
  | qenq q b =>
    obtain ⟨hf, Q, hQ, rfl⟩ := h
    exact .inl (.of_set (.enqueued b hf hQ) (by cases sel <;> rfl))
  | qdeq q =>
    obtain ⟨he, v, Q, hQ, rfl⟩ := h
    exact .inl (.of_set (.dequeued v he hQ) (by cases sel <;> rfl))
  | qreset q =>
    simp only [Ran] at h
    subst h
    by_cases hq : sel = q
    · subst hq
      exact .inr ⟨.inl rfl, State.queue_setQueue s sel _⟩
    · exact .inl (.same (State.queue_setQueue_of_ne s q _ hq))
  | submitByte b =>
    rcases h with ⟨-, -, rfl⟩ | ⟨-, -, rfl⟩ | ⟨-, hf, Q, hQ, rfl⟩
    · exact .inl (.same (by cases sel <;> rfl))
    · exact .inl (.same (by cases sel <;> rfl))
    · exact .inl (.of_set (o := .txq) (.enqueued b hf hQ) (by cases sel <;> rfl))
  | onReadyForNext =>
    rcases h with ⟨-, rfl⟩ | ⟨he, v, Q, hQ, rfl⟩
    · exact .inl (.same (by cases sel <;> rfl))
    · exact .inl (.of_set (o := .txq) (.dequeued v he hQ) (by cases sel <;> rfl))
  | retrieveByte =>
    rcases h with ⟨-, rfl⟩ | ⟨he, v, Q, hQ, rfl⟩
    · exact .inl (.same (by cases sel <;> rfl))
    · exact .inl (.of_set (o := .rxq) (.dequeued v he hQ) (by cases sel <;> rfl))
  | onByteReceived b =>
    rcases h with ⟨-, rfl⟩ | ⟨hf, Q, hQ, rfl⟩
    · exact .inl (.same (by cases sel <;> rfl))
    · exact .inl (.of_set (o := .rxq) (.enqueued b hf hQ) (by cases sel <;> rfl))
  | reinit =>
    simp only [Ran] at h
    subst h
    exact .inr ⟨.inr rfl, by cases sel <;> rfl⟩
  | _ =>
    simp only [Ran] at h
    subst h
    exact .inl (.same (by cases sel <;> rfl))

/-- A command moves a queue in order, or is a QRESET of it or a REINIT on P_MAIN and resets it. -/
theorem exec_queue (h : exec i s = .next t) (sel : QueueSel) : OrderedMove (s.queue sel) (t.queue sel) ∨
    (s.context = .main ∧ Discards sel i ∧ t.queue sel = (s.queue sel).resetFields) := by
  rcases exec_next h with ⟨-, -, rfl⟩ | ⟨-, -, rfl⟩ | ⟨-, -, -, -, rfl⟩ | ⟨-, c, -, rfl⟩ | ⟨hr, hran⟩
  iterate 4 exact .inl (.same (by cases sel <;> rfl))
  refine (ran_queue hran sel).imp id fun ⟨hd, hq⟩ => ⟨?_, hd, hq⟩
  rcases hd with rfl | rfl <;> simpa [permitted] using (hr.resolve_left (by simp)).port

/-- A step moves a queue in order, or resets it by a QRESET of it or a REINIT on MAIN's turn. -/
theorem step_queue_ordered (h : step s = .next t) (sel : QueueSel) : OrderedMove (s.queue sel) (t.queue sel) ∨
    (s.nextTurn = .mainline ∧ (∃ w i, s.mainline.current = some w ∧ decode w = .cmd i ∧ Discards sel i) ∧
      t.queue sel = (s.queue sel).resetFields) := by
  rcases step_cases h with ⟨-, rfl⟩ | ⟨hturn, -, w, hw, u, r, hp, -, rfl⟩ | ⟨-, -, w, -, u, r, hp, -, rfl⟩ |
    ⟨-, -, -, -, u, hx, h2⟩ | ⟨-, -, -, b, -, u, hx, rfl⟩ | ⟨-, -, -, rfl⟩ | ⟨-, -, -, b, rest, -, rfl⟩
  · exact .inl (.same (by cases sel <;> rfl))
  · rcases hp with ⟨i, hd, hx⟩ | ⟨-, rfl⟩
    · rcases exec_queue hx sel with hm | ⟨-, hi, hq⟩
      · exact .inl (by cases sel <;> exact hm)
      · exact .inr ⟨hturn, ⟨w, i, hw, hd, hi⟩, by cases sel <;> exact hq⟩
    · exact .inl (.same (by cases sel <;> rfl))
  · rcases hp with ⟨i, -, hx⟩ | ⟨-, rfl⟩
    · have hm := (exec_queue hx sel).resolve_right (by simp)
      exact .inl (by cases sel <;> exact hm)
    · exact .inl (.same (by cases sel <;> rfl))
  · have hm := (exec_queue hx sel).resolve_right (by simp)
    rcases h2 with ⟨-, rfl⟩ | ⟨b, -, ⟨-, rfl⟩ | ⟨-, rfl⟩⟩ <;> exact .inl (by cases sel <;> exact hm)
  · have hm := (exec_queue hx sel).resolve_right (by simp)
    exact .inl (by cases sel <;> exact hm)
  · exact .inl (.same (by cases sel <;> rfl))
  · exact .inl (.same (by cases sel <;> rfl))

theorem State.Inv.stored (h : s.Inv) (sel : QueueSel) : (s.queue sel).Stored := by
  cases sel
  exacts [h.rxqStored, h.txqStored]

theorem State.Inv.wf (h : s.Inv) (hi : s.initDone = true) (sel : QueueSel) : (s.queue sel).Wf := by
  cases sel
  exacts [h.rxqWf hi, h.txqWf hi]

/-- Settles O47: the step moves the queue in order, or discards its elements by the command MAIN presents. -/
theorem liveElementsMoveInOrder : Obligations.LiveElementsMoveInOrder := by
  intro s t q hs hi h
  rcases step_queue_ordered h q with hm | ⟨hturn, ⟨w, i, hw, hd, hi⟩, hq⟩
  · rcases hm.live (hs.wf hi q) (hs.stored q) with hl | hl | hl
    · exact .inl hl
    · exact .inr (.inl hl)
    · exact .inr (.inr (.inl hl))
  · refine .inr (.inr (.inr ⟨by rw [hq, Queue.live_resetFields], hturn, w, hw, ?_⟩))
    rcases hi with rfl | rfl
    · exact .inl hd
    · exact .inr hd

end Sys2Proof.Machine

/-! ## The transmit side (10_state.md R36, R37, 41_transmit.md R139) -/

namespace Sys2Proof.Machine

variable {s t : State} {i : Instr}

/-- Every step keeps the premises of 10_state.md R36. -/
theorem step_txPremises (hp : s.TxPremises) (h : step s = .next t) : t.TxPremises where
  init := (initDoneOnlyByReinit s t h).1 hp.init
  noRaw w hw := hp.noRaw w (step_remaining h hw)
  system := (step_config h).trans hp.system

/-- Under the premises of 10_state.md R36 the program's words are not the raw commands of TXQ. -/
theorem State.TxPremises.not_raw (hp : s.TxPremises) {w : Word} (hw : s.mainline.current = some w)
    (hd : decode w = .cmd i) (hi : (∃ b, i = .qenq .txq b) ∨ i = .qreset .txq) : False := by
  have hraw := hp.noRaw w (current_mem_remaining hw)
  rcases hi with ⟨b, rfl⟩ | rfl <;> simp [rawTxWord, hd] at hraw

/-- A step that changes neither `tx_state` nor TXQ keeps "Idle implies an empty TXQ". -/
theorem State.IdleEmpty.of_same (hs : s.IdleEmpty) (hst : t.txState = s.txState) (hq : t.txq = s.txq) : t.IdleEmpty :=
  fun ht => hq ▸ hs (hst ▸ ht)

theorem State.IdleEmpty.of_busy (h : t.txState = .busy) : t.IdleEmpty := fun hi => by simp [h] at hi

theorem State.IdleEmpty.of_cnt (h : t.txq.cnt = 0) : t.IdleEmpty := fun _ => h

/-- Under the premises of 10_state.md R36 every step keeps "Idle implies an empty TXQ". -/
theorem step_idleEmpty (hp : s.TxPremises) (hs : s.IdleEmpty) (h : step s = .next t) : t.IdleEmpty := by
  by_cases hf : s.faultCode = 0
  case neg => exact hs.of_same (step_faulted hf h).txState (step_faulted hf h).txq
  cases step_transmit h hp.system hp.init hf with
  | same hr => exact hs.of_same hr.txState hr.txq
  | reserved _ _ _ _ hr => exact hs.of_same hr.txState hr.txq
  | completed _ hq hst => exact hs.of_same hst hq
  | drained _ he hq => exact .of_cnt (hq ▸ he)
  | taken _ _ _ _ hst => exact .of_busy hst
  | command _ w hw i hd hr =>
    cases hr with
    | same hr => exact hs.of_same hr.txState hr.txq
    | written _ _ _ _ _ hst => exact .of_busy hst
    | queued _ _ _ _ _ hst => exact .of_busy hst
    | reinit _ hq => exact .of_cnt (hq ▸ rfl)
    | raw hraw => exact (hp.not_raw hw hd hraw).elim

/-- Settles O52: REINIT empties TXQ, and every step keeps the premises and the conclusion. -/
theorem idleMeansEmptyTxq : Obligations.IdleMeansEmptyTxq := by
  refine ⟨fun s t hr h => ?_, fun s t hp hs h => ⟨step_txPremises hp h, step_idleEmpty hp hs h⟩⟩
  rw [exec_of_ran hr rfl, Host.Outcome.next.injEq] at h
  exact .of_cnt (h ▸ rfl)

/-- While Idle and matching, the transmitter is quiet. -/
theorem State.BusyMatches.quiet (hb : s.BusyMatches) (hi : s.txState = .idle) :
    s.txShift = none ∧ s.txReadyPending = false := by
  have h : ¬ (s.txShift ≠ none ∨ s.txReadyPending = true) := fun hn => by simp [hb.busy.mpr hn] at hi
  simpa using h

/-- A matching quiet transmitter is Idle. -/
theorem State.BusyMatches.idle (hb : s.BusyMatches) (hn : s.txShift = none) (hp : s.txReadyPending = false) :
    s.txState = .idle := by
  cases hst : s.txState with
  | idle => rfl
  | busy => simpa [hn, hp] using hb.busy.mp hst

/-- While the ready event is pending no byte is outstanding. -/
theorem State.BusyMatches.free_of_pending (hb : s.BusyMatches) (hp : s.txReadyPending = true) : s.txShift = none := by
  by_contra hn
  exact hb.apart ⟨hn, hp⟩

theorem State.BusyMatches.of_same (hb : s.BusyMatches) (hst : t.txState = s.txState) (hsh : t.txShift = s.txShift)
    (hp : t.txReadyPending = s.txReadyPending) : t.BusyMatches :=
  ⟨by rw [hst, hsh, hp]; exact hb.busy, by rw [hsh, hp]; exact hb.apart⟩

theorem State.BusyMatches.of_quiet (hst : t.txState = .idle) (hsh : t.txShift = none) (hp : t.txReadyPending = false) :
    t.BusyMatches := ⟨by simp [hst, hsh, hp], by simp [hsh]⟩

theorem State.BusyMatches.of_outstanding {b : Byte} (hst : t.txState = .busy) (hsh : t.txShift = some b)
    (hp : t.txReadyPending = false) : t.BusyMatches := ⟨by simp [hst, hsh], by simp [hp]⟩

theorem State.BusyMatches.of_pending (hst : t.txState = .busy) (hsh : t.txShift = none) (hp : t.txReadyPending = true) :
    t.BusyMatches := ⟨by simp [hst, hp], by simp [hsh]⟩

/-- A REINIT that MAIN presents on its turn finds the transmitter quiet (10_state.md R37 premise (d)). -/
theorem State.ReinitQuiet.quiet (hq : s.ReinitQuiet) (hturn : s.nextTurn = .mainline) {w : Word}
    (hw : s.mainline.current = some w) (hd : decode w = .cmd .reinit) : s.txShift = none ∧ s.txReadyPending = false :=
  hq hturn w hw (by simp [reinitWord, hd])

/-- Settles O53, by what the step does on the transmit side. -/
theorem busyMatchesTransmitter : Obligations.BusyMatchesTransmitter := by
  intro s t hp hf hs hb hq h
  cases step_transmit h hp.system hp.init hf with
  | same hr hpend _ hf' => exact ⟨hb.of_same hr.txState hr.txShift hpend, by simp [hf']⟩
  | reserved _ _ _ _ hr hpend _ _ hf' => exact ⟨hb.of_same hr.txState hr.txShift hpend, by simp [hf']⟩
  | completed hout _ hst hsh hpend _ _ hf' =>
    exact ⟨.of_pending (hst.trans (hb.busy.mpr (.inl hout))) hsh hpend, by simp [hf']⟩
  | drained hev _ _ hst hsh hpend _ _ hf' =>
    exact ⟨.of_quiet hst (hsh.trans (hb.free_of_pending hev)) hpend, by simp [hf']⟩
  | taken hev _ v _ hst _ hsink =>
    rcases hsink with ⟨hn, -⟩ | ⟨-, hsh, -, hpend, hf'⟩
    · exact absurd (hb.free_of_pending hev) hn
    · exact ⟨.of_outstanding hst hsh hpend, by simp [hf']⟩
  | command hturn w hw i hd hr _ hpend =>
    cases hr with
    | same hr _ hover =>
      refine ⟨hb.of_same hr.txState hr.txShift hpend, fun h6 => ?_⟩
      rcases hover h6 with h6 | ⟨hi, hn⟩
      · simp [hf] at h6
      · exact hn (hb.quiet hi).1
    | written b _ hi _ _ hst hsh _ hf' =>
      exact ⟨.of_outstanding hst hsh (hpend.trans (hb.quiet hi).2), by simp [hf', hf]⟩
    | queued b _ hbusy _ _ hst hsh _ hf' => exact ⟨hb.of_same (hst.trans hbusy.symm) hsh hpend, by simp [hf', hf]⟩
    | reinit hi _ hst hsh _ hf' =>
      obtain ⟨hn, hnp⟩ := hq.quiet hturn hw (hi ▸ hd)
      exact ⟨.of_quiet hst (hsh.trans hn) (hpend.trans hnp), by simp [hf', hf]⟩
    | raw hraw => exact (hp.not_raw hw hd hraw).elim

/-- The bytes one completed word adds to the submitted ones. -/
theorem submitted_of_advance {w : Word} (hw : s.mainline.current = some w) (hp : t.mainline.prog = s.mainline.prog)
    (hi : t.mainline.idx = s.mainline.idx + 1) : submitted t.presented = submitted s.presented ++ submitted [w] := by
  rw [presented_of_advance hw hp hi, submitted_append]

theorem submitted_submitByte {w : Word} {b : Byte} (hd : decode w = .cmd (.submitByte b)) : submitted [w] = [b] := by
  simp [submitted, hd]

theorem submitted_of_not_submitByte {w : Word} (hd : ∀ b, decode w ≠ .cmd (.submitByte b)) : submitted [w] = [] := by
  simp [submitted]

theorem Queue.live_of_cnt {q : Queue} (h : q.cnt = 0) : q.live = [] := List.length_eq_zero_iff.mp (by simp [h])

/-- In a system run MAIN has no step on a faulted block (60_exceptions.md R190). -/
theorem step_mainline_of_faulted (hf : s.faultCode ≠ 0) (hs : s.config = .system) (h : step s = .next t) :
    t.mainline = s.mainline :=
  (step_mainline h).resolve_right fun ⟨hrun, _⟩ => hrun.elim (by simp [hs]) hf

/-- A command of MAIN keeps the order: what it writes or queues is what it submits, and REINIT finds TXQ empty. -/
theorem TxCommand.order {w : Word} (hr : TxCommand i s t) (hp : s.TxPremises) (hf : s.faultCode = 0) (hs : s.IdleEmpty)
    (hb : s.BusyMatches) (hwf : s.txq.Wf) (hst : s.txq.Stored) (hq : s.ReinitQuiet) (hturn : s.nextTurn = .mainline)
    (hw : s.mainline.current = some w) (hd : decode w = .cmd i) (ha : t.response ≠ none) :
    t.wireOut ++ t.txq.live = s.wireOut ++ s.txq.live ++ submitted [w] := by
  cases hr with
  | same hr hsub =>
    have hnot : ∀ b, i ≠ .submitByte b := fun b hib => by
      rcases hsub b hib with hn | hn | hn | ⟨hi, hn⟩
      · exact ha hn
      · exact hn hf
      · simp [hp.init] at hn
      · exact hn (hb.quiet hi).1
    rw [hr.wireOut, hr.txq, submitted_of_not_submitByte (by simpa [hd] using hnot), List.append_nil]
  | written b hi hidle _ htq _ _ hwire =>
    rw [submitted_submitByte (hi ▸ hd), hwire, htq, Queue.live_of_cnt (hs hidle)]
    simp
  | queued b hi _ hroom htq _ _ hwire =>
    rw [submitted_submitByte (hi ▸ hd), hwire, hwf.live_enqueue hst (hwf.lt_cap_of_not_full hroom) htq, List.append_assoc]
  | reinit hi htq _ _ hwire =>
    obtain ⟨hn, hnp⟩ := hq.quiet hturn hw (hi ▸ hd)
    rw [hwire, htq, Queue.live_of_cnt (hs (hb.idle hn hnp)), submitted_of_not_submitByte (by simp [hd, hi])]
    simp
  | raw hraw => exact (hp.not_raw hw hd hraw).elim

/-- On an unfaulted block a step keeps the bytes written and waiting the bytes submitted (41_transmit.md R139). -/
theorem step_order (hst : s.txq.Stored) (hs : s.WireOrdered) (hf : s.faultCode = 0) (hq : s.ReinitQuiet)
    (h : step s = .next t) : t.wireOut ++ t.txq.live = submitted t.presented := by
  obtain ⟨hp, hidle, hmatch, hwf, horder⟩ := hs
  have hb := hmatch hf
  cases step_transmit h hp.system hp.init hf with
  | same hr _ hmain => rw [hr.wireOut, hr.txq, horder, State.presented, State.presented, hmain]
  | reserved _ w hw hd hr _ hprog hidx =>
    rw [submitted_of_advance hw hprog hidx, submitted_of_not_submitByte (by simp [hd]), hr.wireOut, hr.txq, horder,
      List.append_nil]
  | completed _ htq _ _ _ hwire hmain => rw [hwire, htq, horder, State.presented, State.presented, hmain]
  | drained _ _ htq _ _ _ hwire hmain => rw [hwire, htq, horder, State.presented, State.presented, hmain]
  | taken hev hne v htq _ hmain hsink =>
    rcases hsink with ⟨hn, -⟩ | ⟨-, -, hwire, -⟩
    · exact absurd (hb.free_of_pending hev) hn
    · rw [hwire, List.append_assoc, List.singleton_append, ← hwf.live_dequeue (Queue.pos_of_not_empty hne) htq, horder,
        State.presented, State.presented, hmain]
  | command hturn w hw i hd hr ha _ hprog hidx =>
    rw [submitted_of_advance hw hprog hidx, hr.order hp hf hidle hb hwf hst hq hturn hw hd ha, horder]

/-- Settles O54: on an unfaulted block by what the step does on the transmit side, on a faulted one because nothing
moves. -/
theorem wireOrderKept : Obligations.WireOrderKept := by
  intro s t hinv hs hq h
  refine ⟨step_txPremises hs.premises h, step_idleEmpty hs.premises hs.idleEmpty h, fun hf' => ?_,
    (step_queue h .txq).wf hs.txqWf, ?_⟩
  · have hf : s.faultCode = 0 := by
      by_contra hf
      exact hf ((step_faulted hf h).faultCode ▸ hf')
    exact (busyMatchesTransmitter s t hs.premises hf hs.idleEmpty (hs.busyMatches hf) hq h).1
  · by_cases hf : s.faultCode = 0
    · exact step_order hinv.txqStored hs hf hq h
    · rw [(step_faulted hf h).wireOut, (step_faulted hf h).txq, State.presented,
        step_mainline_of_faulted hf hs.premises.system h]
      exact hs.order

/-- A run that has ended well waits for nothing: the program is completed and TXQ is empty (60_exceptions.md R198). -/
theorem State.WireOrdered.wireOut_of_endsWell (hs : s.WireOrdered) (he : s.endsWell = true) :
    s.wireOut = submitted s.mainline.prog := by
  simp only [State.endsWell, Bool.and_eq_true, beq_iff_eq, Option.isNone_iff_eq_none, Bool.not_eq_true'] at he
  obtain ⟨⟨⟨⟨⟨hidx, hf⟩, hn⟩, hnp⟩, -⟩, -⟩ := he
  have hidle := (hs.busyMatches hf).idle hn hnp
  have horder := hs.order
  rwa [Queue.live_of_cnt (hs.idleEmpty hidle), List.append_nil, State.presented, hidx, List.take_length] at horder

/-- Settles O55: wire order after the step splits the submitted bytes into those written and those waiting. -/
theorem wireIsPrefixOfSubmitted : Obligations.WireIsPrefixOfSubmitted := fun s t hinv hs hq h =>
  have ht := wireOrderKept s t hinv hs hq h
  ⟨⟨t.txq.live, ht.order⟩, ht.wireOut_of_endsWell⟩

end Sys2Proof.Machine

/-! ## What each command leaves unchanged (10_state.md R39) -/

namespace Sys2Proof.Machine

variable {s t : State} {i : Instr}

/-- A command that does not run its own rule writes at most its response and the fault registers. -/
theorem exec_answered_or_ran (h : exec i s = .next t) :
    (∃ r c p w, t = { s with response := r, faultCode := c, faultPort := p, faultWord := w }) ∨ Ran i s t := by
  rcases exec_next h with ⟨-, -, rfl⟩ | ⟨-, -, rfl⟩ | ⟨-, -, -, -, rfl⟩ | ⟨-, c, -, rfl⟩ | ⟨-, hran⟩
  iterate 4 exact .inl ⟨_, _, _, _, rfl⟩
  exact .inr hran

/-- Unchanged storage in each queue is unchanged storage. -/
theorem State.SameStorage.of_buf (hr : t.rxq.buf = s.rxq.buf) (ht : t.txq.buf = s.txq.buf) : s.SameStorage t :=
  fun sel a => by cases sel; exacts [congrArg (Memory.read · a) hr, congrArg (Memory.read · a) ht]

/-- An enqueue changes only the byte at the write index (40_queue.md R101). -/
theorem State.SameStorageBut.of_enqueue {sel : QueueSel} {b : Byte} {Q : Queue} (hQ : (s.queue sel).enqueue b = some Q)
    (ht : ∀ o, t.queue o = (s.setQueue sel Q).queue o) : s.SameStorageBut sel (s.queue sel).wr t := by
  intro o a hne
  obtain ⟨-, rfl⟩ := Queue.enqueue_eq_some_iff.mp hQ
  rw [ht]
  by_cases ho : o = sel
  · subst ho
    rw [State.queue_setQueue]
    exact Memory.read_write_other _ _ (hne.resolve_left (by simp))
  · rw [State.queue_setQueue_of_ne _ _ _ ho]

/-- Settles O28: the reads write their response alone. -/
theorem readCommandsFrame : Obligations.ReadCommandsFrame := by
  intro i s t hi h
  rcases exec_answered_or_ran h with ⟨r, c, p, w, rfl⟩ | hran
  · exact ⟨rfl, fun _ _ => rfl⟩
  obtain ⟨v, rfl⟩ : ∃ v, t = s.respond v := by
    rcases hi with ⟨q, rfl⟩ | ⟨q, rfl⟩ | rfl | rfl | rfl <;> exact ⟨_, hran⟩
  exact ⟨rfl, fun _ _ => rfl⟩

/-- Settles O29, from the queue operation each command runs. -/
theorem queueCommandsFrame : Obligations.QueueCommandsFrame := by
  intro q b s t
  refine ⟨fun h => ?_, fun h => ?_, fun h => ?_⟩
  · rcases exec_answered_or_ran h with ⟨r, c, p, w, rfl⟩ | ⟨-, Q, hQ, rfl⟩
    · exact ⟨by cases q <;> rfl, by cases q <;> rfl, by cases q <;> rfl, fun o _ _ => by cases o <;> rfl⟩
    · refine ⟨by cases q <;> rfl, ?_, ?_, .of_enqueue hQ fun o => by cases o <;> rfl⟩ <;>
      · obtain ⟨-, rfl⟩ := Queue.enqueue_eq_some_iff.mp hQ
        cases q <;> rfl
  · rcases exec_answered_or_ran h with ⟨r, c, p, w, rfl⟩ | ⟨-, v, Q, hQ, rfl⟩
    · exact ⟨by cases q <;> rfl, by cases q <;> rfl, by cases q <;> rfl, .of_buf rfl rfl⟩
    · obtain ⟨-, -, rfl⟩ := Queue.dequeue_eq_some_iff.mp hQ
      cases q <;> exact ⟨rfl, rfl, rfl, .of_buf rfl rfl⟩
  · rcases exec_answered_or_ran h with ⟨r, c, p, w, rfl⟩ | hran
    · exact ⟨by cases q <;> rfl, by cases q <;> rfl, .of_buf rfl rfl⟩
    · simp only [Ran] at hran
      subst hran
      cases q <;> exact ⟨rfl, rfl, .of_buf rfl rfl⟩

/-- Settles O30: SUBMITBYTE writes the sink while Idle, and enqueues or holds while Busy. -/
theorem submitByteFrame : Obligations.SubmitByteFrame := by
  intro b s t h
  rcases exec_answered_or_ran h with
    ⟨r, c, p, w, rfl⟩ | ⟨hi, -, rfl⟩ | ⟨-, -, rfl⟩ | ⟨hb, -, Q, hQ, rfl⟩
  · exact ⟨rfl, fun o _ _ => by cases o <;> rfl, fun _ => rfl, fun _ => ⟨rfl, rfl, rfl⟩⟩
  · exact ⟨rfl, fun o _ _ => by cases o <;> rfl, fun _ => rfl, fun hb => by simp [hi] at hb⟩
  · exact ⟨rfl, fun o _ _ => by cases o <;> rfl, fun _ => rfl, fun _ => ⟨rfl, rfl, rfl⟩⟩
  · refine ⟨?_, .of_enqueue (sel := .txq) hQ fun o => by cases o <;> rfl, fun hi => by simp [hb] at hi,
      fun _ => ⟨rfl, rfl, rfl⟩⟩
    obtain ⟨-, rfl⟩ := Queue.enqueue_eq_some_iff.mp hQ
    rfl

/-- Settles O31: ONREADYFORNEXT dequeues or goes Idle. -/
theorem onReadyForNextFrame : Obligations.OnReadyForNextFrame := by
  intro s t h
  rcases exec_answered_or_ran h with ⟨r, c, p, w, rfl⟩ | ⟨-, rfl⟩ | ⟨-, v, Q, hQ, rfl⟩
  · exact ⟨rfl, .of_buf rfl rfl⟩
  · exact ⟨rfl, .of_buf rfl rfl⟩
  · obtain ⟨-, -, rfl⟩ := Queue.dequeue_eq_some_iff.mp hQ
    exact ⟨rfl, .of_buf rfl rfl⟩

/-- Settles O32: REINIT resets the queues' fields and three registers. -/
theorem reinitFrame : Obligations.ReinitFrame := by
  intro s t h
  rcases exec_answered_or_ran h with ⟨r, c, p, w, rfl⟩ | hran
  · exact ⟨rfl, .of_buf rfl rfl⟩
  · simp only [Ran] at hran
    subst hran
    exact ⟨rfl, .of_buf rfl rfl⟩

/-- Settles O33: RETRIEVEBYTE holds or dequeues, ONBYTERECEIVED counts a loss or enqueues. -/
theorem receiveCommandsFrame : Obligations.ReceiveCommandsFrame := by
  intro b s t
  refine ⟨fun h => ?_, fun h => ?_⟩
  · rcases exec_answered_or_ran h with ⟨r, c, p, w, rfl⟩ | ⟨-, rfl⟩ | ⟨-, v, Q, hQ, rfl⟩
    · exact ⟨rfl, .of_buf rfl rfl⟩
    · exact ⟨rfl, .of_buf rfl rfl⟩
    · obtain ⟨-, -, rfl⟩ := Queue.dequeue_eq_some_iff.mp hQ
      exact ⟨rfl, .of_buf rfl rfl⟩
  · rcases exec_answered_or_ran h with ⟨r, c, p, w, rfl⟩ | ⟨-, rfl⟩ | ⟨-, Q, hQ, rfl⟩
    · exact ⟨rfl, fun o _ _ => by cases o <;> rfl⟩
    · exact ⟨rfl, fun o _ _ => by cases o <;> rfl⟩
    · refine ⟨?_, .of_enqueue (sel := .rxq) hQ fun o => by cases o <;> rfl⟩
      obtain ⟨-, rfl⟩ := Queue.enqueue_eq_some_iff.mp hQ
      rfl

/-! ## What ONBYTERECEIVED and STATUS answer -/

theorem Queue.isFull_of_lt {q : Queue} (h : q.cnt < q.cap) : q.isFull = false := by
  simpa [Queue.isFull] using h.ne

/-- Settles O24: with room the byte is enqueued, on a full queue it is counted. -/
theorem onByteReceivedAcceptsOrDrops : Obligations.OnByteReceivedAcceptsOrDrops := by
  intro b s hr
  refine ⟨fun hw hs hc => ?_, fun hc => ⟨satSucc s.rxOvfCnt, satSucc_toNat _, ?_⟩⟩
  · have henq := hw.enqueue_answers b
    exact ⟨_, exec_of_ran hr (.inr ⟨Queue.isFull_of_lt hc, _, henq, rfl⟩), rfl, hw.live_enqueue hs hc henq, rfl⟩
  · exact exec_of_ran hr (.inl ⟨Queue.isFull_iff.mpr hc, rfl⟩)

theorem Queue.isEmpty_eq_decide (q : Queue) : q.isEmpty = decide (q.cnt = 0) := by
  rw [Bool.eq_iff_iff, Queue.isEmpty_iff, decide_eq_true_iff]

theorem Queue.isFull_eq_decide (q : Queue) : q.isFull = decide (q.cnt = q.cap) := by
  rw [Bool.eq_iff_iff, Queue.isFull_iff, decide_eq_true_iff]

/-- The bits 7:0 of the STATUS view, bit 0 first (10_state.md R31). -/
def State.statusFlags (s : State) : List Bool :=
  [s.initDone && s.rxq.isEmpty, s.initDone && s.rxq.isFull, s.initDone && s.txq.isEmpty, s.initDone && s.txq.isFull,
    s.initDone && s.txState == .busy, s.initDone, s.initDone && s.rxOvfCnt != 0, s.faultCode != 0]

/-- The STATUS view, bit by bit: the flags in bits 7:0, the fault code above them, zeros above that (10_state.md R31). -/
theorem statusView_getLsbD (s : State) {k : Nat} (hk : k < 16) :
    s.statusView.getLsbD k = s.statusFlags[k]?.getD (s.faultCode.getLsbD (k - 8)) := by
  change BitVec.getLsbD (w := 4 + 4 + 1 + 1 + 1 + 1 + 1 + 1 + 1 + 1) _ k = _
  simp only [State.statusView, State.maskedBit, BitVec.getLsbD_append]
  interval_cases k <;> simp [State.statusFlags]

/-- Settles O27: STATUS answers the STATUS view, whose bits are the flags and the fault code. -/
theorem statusViewFields : Obligations.StatusViewFields := by
  intro s
  refine ⟨s.statusView, exec_status s, ?_, ?_, ?_, ?_, ?_, ?_, ?_, ?_, ?_, ?_⟩
  case refine_9 | refine_10 =>
    ext k hk
    rw [BitVec.getElem_extractLsb', statusView_getLsbD s (by omega)]
    interval_cases k <;> simp [State.statusFlags, BitVec.getLsbD_eq_getElem]
  all_goals
    rw [statusView_getLsbD s (by omega)]
    simp [State.statusFlags, Queue.isEmpty_eq_decide, Queue.isFull_eq_decide, bne, beq_eq_decide]

end Sys2Proof.Machine

/-! ## What no command observes (20_memory.md R52, 70_reset_and_hazards.md R230) -/

namespace Sys2Proof.Machine

variable {s t s' t' : State} {i : Instr} {q q' Q : Queue} {b v : Byte}

/-! ### Two queues with the same live elements -/

/-- Two queues of one capacity with the same live elements, and so the same but for stale slots and index positions. -/
structure Alike (q q' : Queue) : Prop where
  topSlot : q.topSlot = q'.topSlot
  live : q.live = q'.live

theorem Alike.cnt (h : Alike q q') : q.cnt = q'.cnt := by simpa using congrArg List.length h.live

theorem Alike.isEmpty (h : Alike q q') : q.isEmpty = q'.isEmpty := by simp [Queue.isEmpty, h.cnt]

theorem Alike.isFull (h : Alike q q') : q.isFull = q'.isFull := by simp [Queue.isFull, Queue.cap, h.cnt, h.topSlot]

theorem Alike.resetFields (h : q.topSlot = q'.topSlot) : Alike q.resetFields q'.resetFields := ⟨h, rfl⟩

/-- The invariants of 10_state.md R22, R23 and 20_memory.md R50 of one queue. -/
structure Queue.Sound (q : Queue) : Prop where
  wf : q.Wf
  stored : q.Stored

/-- Alike queues stay alike when one byte is put into both. -/
theorem Alike.enqueue (h : Alike q q') (hq : q.Sound) (hq' : q'.Sound) (hf : q.isFull = false)
    (he : q.enqueue b = some Q) : ∃ Q', q'.enqueue b = some Q' ∧ Alike Q Q' := by
  have he' := hq'.wf.enqueue_answers b
  have hroom : q'.cnt < q'.cap := hq'.wf.lt_cap_of_not_full (h.isFull ▸ hf)
  refine ⟨_, he', ?_, ?_⟩
  · obtain ⟨-, rfl⟩ := Queue.enqueue_eq_some_iff.mp he
    exact h.topSlot
  · rw [hq.wf.live_enqueue hq.stored (hq.wf.lt_cap_of_not_full hf) he, hq'.wf.live_enqueue hq'.stored hroom he', h.live]

/-- Alike queues give the same oldest byte and stay alike. -/
theorem Alike.dequeue (h : Alike q q') (hq : q.Sound) (hq' : q'.Sound) (hne : q.isEmpty = false)
    (hd : q.dequeue = some (v, Q)) : ∃ Q', q'.dequeue = some (v, Q') ∧ Alike Q Q' := by
  have hd' := hq'.wf.dequeue_answers
  have hl := hq.wf.live_dequeue (Queue.pos_of_not_empty hne) hd
  have hl' := hq'.wf.live_dequeue (Queue.pos_of_not_empty (h.isEmpty ▸ hne)) hd'
  obtain ⟨rfl, hrest⟩ := List.cons.inj (hl.symm.trans (h.live.trans hl'))
  refine ⟨_, hd', ?_, hrest⟩
  obtain ⟨-, -, rfl⟩ := Queue.dequeue_eq_some_iff.mp hd
  exact h.topSlot

/-! ### The updates keep the view -/

theorem SameView.respond (h : SameView s t) {x y : Word} (hxy : x = y) : SameView (s.respond x) (t.respond y) :=
  { h with response := by rw [hxy]; rfl }

theorem SameView.respondErr (h : SameView s t) : SameView s.respondErr t.respondErr := { h with response := rfl }

theorem SameView.hold (h : SameView s t) : SameView s.hold t.hold := { h with response := rfl }

theorem SameView.enter (h : SameView s t) (p : Port) : SameView (s.enter p) (t.enter p) := { h with context := rfl }

theorem SameView.leave (h : SameView s t) : SameView s.leave t.leave := { h with context := rfl }

theorem SameView.passTurn (h : SameView s t) : SameView s.passTurn t.passTurn :=
  { h with schedule := congrArg List.tail h.schedule, tick := congrArg (· + 1) h.tick }

/-- A raise records the same place in both states, and hides nothing that was seen (60_exceptions.md R181). -/
theorem SameView.raise (h : SameView s t) (c : FaultCause) (w : Word) : SameView (s.raise c w) (t.raise c w) := by
  by_cases hf : s.faultCode = 0
  · rw [State.raise_of_unfaulted hf, State.raise_of_unfaulted (h.faultCode ▸ hf)]
    exact { h with faultCode := rfl, faultPort := fun _ => h.context, faultWord := fun _ => rfl, response := rfl }
  · rw [State.raise_of_faulted hf, State.raise_of_faulted (h.faultCode ▸ hf)]
    exact h.respondErr

theorem SameView.setQueue (h : SameView s t) {Q' : Queue} (hQ : Alike Q Q') (sel : QueueSel) :
    SameView (s.setQueue sel Q) (t.setQueue sel Q') := by
  cases sel
  · exact { h with capRx := hQ.topSlot, rxLive := fun _ => hQ.live }
  · exact { h with capTx := hQ.topSlot, txLive := fun _ => hQ.live }

theorem SameView.withTxState (h : SameView s t) (x : TxState) :
    SameView { s with txState := x } { t with txState := x } := { h with txState := fun _ => rfl }

/-- The sink takes a byte in both states. -/
theorem SameView.sink (h : SameView s t) (b : Byte) : SameView { s with txShift := some b, wireOut := s.wireOut ++ [b] }
    { t with txShift := some b, wireOut := t.wireOut ++ [b] } :=
  { h with txShift := rfl, wireOut := congrArg (· ++ [b]) h.wireOut }

theorem SameView.withTxReadyPending (h : SameView s t) (x : Bool) :
    SameView { s with txReadyPending := x } { t with txReadyPending := x } := { h with txReadyPending := rfl }

/-- Once initialised, the view shows the live elements of both queues. -/
theorem SameView.alike (h : SameView s t) (hi : s.initDone = true) (sel : QueueSel) :
    Alike (s.queue sel) (t.queue sel) := by
  cases sel
  exacts [⟨h.capRx, h.rxLive hi⟩, ⟨h.capTx, h.txLive hi⟩]

/-- The STATUS view shows no more than the view: its bits of the block read 0 before the first REINIT
(10_state.md R31). -/
theorem SameView.statusView (h : SameView s t) : s.statusView = t.statusView := by
  have hi := h.initDone
  cases hs : s.initDone with
  | false => simp [State.statusView, State.maskedBit, ← hi, hs, h.faultCode]
  | true =>
    have hr : Alike s.rxq t.rxq := h.alike hs .rxq
    have ht : Alike s.txq t.txq := h.alike hs .txq
    simp [State.statusView, State.maskedBit, ← hi, hs, h.faultCode, h.rxOvfCnt hs, h.txState hs, hr.isEmpty, hr.isFull,
      ht.isEmpty, ht.isFull]

/-! ### Commands -/

/-- Two states of the same view, with the queue invariants of 10_state.md R22 and R23 once initialised. -/
structure Twins (s t : State) : Prop where
  view : SameView s t
  left : s.initDone = true → ∀ sel, (s.queue sel).Sound
  right : t.initDone = true → ∀ sel, (t.queue sel).Sound

theorem Twins.of_inv (hs : s.Inv) (ht : t.Inv) (h : SameView s t) : Twins s t :=
  ⟨h, fun hi sel => ⟨hs.wf hi sel, hs.stored sel⟩, fun hi sel => ⟨ht.wf hi sel, ht.stored sel⟩⟩

theorem Twins.enter (h : Twins s t) (p : Port) : Twins (s.enter p) (t.enter p) :=
  ⟨h.view.enter p, fun hi sel => by cases sel; exacts [h.left hi .rxq, h.left hi .txq],
    fun hi sel => by cases sel; exacts [h.right hi .rxq, h.right hi .txq]⟩

theorem Twins.passTurn (h : Twins s t) : Twins s.passTurn t.passTurn :=
  ⟨h.view.passTurn, fun hi sel => by cases sel; exacts [h.left hi .rxq, h.left hi .txq],
    fun hi sel => by cases sel; exacts [h.right hi .rxq, h.right hi .txq]⟩

theorem SameView.ready (h : SameView s t) (hr : s.Ready i) : t.Ready i :=
  ⟨h.faultCode ▸ hr.unfaulted, h.context ▸ hr.port, h.initDone ▸ hr.init⟩

/-- On an initialised block an own rule enqueues in both states. -/
theorem Twins.enqueue (h : Twins s t) (hi : s.initDone = true) (sel : QueueSel) (hf : (s.queue sel).isFull = false)
    (he : (s.queue sel).enqueue b = some Q) : (t.queue sel).isFull = false ∧
    ∃ Q', (t.queue sel).enqueue b = some Q' ∧ SameView (s.setQueue sel Q) (t.setQueue sel Q') := by
  have ha := h.view.alike hi sel
  obtain ⟨Q', he', hQ⟩ := ha.enqueue (h.left hi sel) (h.right (h.view.initDone ▸ hi) sel) hf he
  exact ⟨ha.isFull ▸ hf, Q', he', h.view.setQueue hQ sel⟩

/-- On an initialised block an own rule dequeues the same byte in both states. -/
theorem Twins.dequeue (h : Twins s t) (hi : s.initDone = true) (sel : QueueSel) (hne : (s.queue sel).isEmpty = false)
    (hd : (s.queue sel).dequeue = some (v, Q)) : (t.queue sel).isEmpty = false ∧
    ∃ Q', (t.queue sel).dequeue = some (v, Q') ∧ SameView (s.setQueue sel Q) (t.setQueue sel Q') := by
  have ha := h.view.alike hi sel
  obtain ⟨Q', hd', hQ⟩ := ha.dequeue (h.left hi sel) (h.right (h.view.initDone ▸ hi) sel) hne hd
  exact ⟨ha.isEmpty ▸ hne, Q', hd', h.view.setQueue hQ sel⟩

/-- REINIT leaves nothing of the unspecified registers (70_reset_and_hazards.md R231). -/
theorem SameView.reinit (h : SameView s t) (hran : Ran .reinit s s') : ∃ t', Ran .reinit t t' ∧ SameView s' t' := by
  simp only [Ran] at hran
  subst hran
  exact ⟨_, rfl, { h with
    initDone := rfl, rxLive := fun _ => rfl, txLive := fun _ => rfl, txState := fun _ => rfl, rxOvfCnt := fun _ => rfl
    response := rfl }⟩

/-- On an initialised block a command's own rule does the same in both states. -/
theorem Twins.ran (h : Twins s t) (hi : s.initDone = true) (hran : Ran i s s') : ∃ t', Ran i t t' ∧ SameView s' t' := by
  have hv := h.view
  cases i with
  | qempty q =>
    simp only [Ran] at hran
    subst hran
    exact ⟨_, rfl, hv.respond (by rw [(hv.alike hi q).isEmpty])⟩
  | qfull q =>
    simp only [Ran] at hran
    subst hran
    exact ⟨_, rfl, hv.respond (by rw [(hv.alike hi q).isFull])⟩
  | qenq q b =>
    obtain ⟨hf, Q, hQ, rfl⟩ := hran
    obtain ⟨hf', Q', hQ', hv'⟩ := h.enqueue hi q hf hQ
    exact ⟨_, ⟨hf', Q', hQ', rfl⟩, hv'.respond rfl⟩
  | qdeq q =>
    obtain ⟨he, v, Q, hQ, rfl⟩ := hran
    obtain ⟨he', Q', hQ', hv'⟩ := h.dequeue hi q he hQ
    exact ⟨_, ⟨he', v, Q', hQ', rfl⟩, hv'.respond rfl⟩
  | qreset q =>
    simp only [Ran] at hran
    subst hran
    exact ⟨_, rfl, (hv.setQueue (.resetFields (hv.alike hi q).topSlot) q).respond rfl⟩
  | submitByte b =>
    rcases hran with ⟨hidle, hn, rfl⟩ | ⟨hbusy, hf, rfl⟩ | ⟨hbusy, hf, Q, hQ, rfl⟩
    · exact ⟨_, .inl ⟨hv.txState hi ▸ hidle, hv.txShift ▸ hn, rfl⟩, ((hv.sink b).withTxState .busy).respond rfl⟩
    · exact ⟨_, .inr (.inl ⟨hv.txState hi ▸ hbusy, (hv.alike hi .txq).isFull ▸ hf, rfl⟩), hv.hold⟩
    · obtain ⟨hf', Q', hQ', hv'⟩ := h.enqueue hi .txq hf hQ
      exact ⟨_, .inr (.inr ⟨hv.txState hi ▸ hbusy, hf', Q', hQ', rfl⟩), hv'.respond rfl⟩
  | onReadyForNext =>
    rcases hran with ⟨he, rfl⟩ | ⟨he, v, Q, hQ, rfl⟩
    · exact ⟨_, .inl ⟨(hv.alike hi .txq).isEmpty ▸ he, rfl⟩, (hv.withTxState .idle).respond rfl⟩
    · obtain ⟨he', Q', hQ', hv'⟩ := h.dequeue hi .txq he hQ
      exact ⟨_, .inr ⟨he', v, Q', hQ', rfl⟩, (hv'.withTxState .busy).respond rfl⟩
  | reinit => exact hv.reinit hran
  | retrieveByte =>
    rcases hran with ⟨he, rfl⟩ | ⟨he, v, Q, hQ, rfl⟩
    · exact ⟨_, .inl ⟨(hv.alike hi .rxq).isEmpty ▸ he, rfl⟩, hv.hold⟩
    · obtain ⟨he', Q', hQ', hv'⟩ := h.dequeue hi .rxq he hQ
      exact ⟨_, .inr ⟨he', v, Q', hQ', rfl⟩, hv'.respond rfl⟩
  | onByteReceived b =>
    rcases hran with ⟨hf, rfl⟩ | ⟨hf, Q, hQ, rfl⟩
    · refine ⟨_, .inl ⟨(hv.alike hi .rxq).isFull ▸ hf, rfl⟩, SameView.respond ?_ rfl⟩
      exact { hv with rxOvfCnt := fun _ => congrArg satSucc (hv.rxOvfCnt hi) }
    · obtain ⟨hf', Q', hQ', hv'⟩ := h.enqueue hi .rxq hf hQ
      exact ⟨_, .inr ⟨hf', Q', hQ', rfl⟩, hv'.respond rfl⟩
  | txstate =>
    simp only [Ran] at hran
    subst hran
    exact ⟨_, rfl, hv.respond (by rw [hv.txState hi])⟩
  | status =>
    simp only [Ran] at hran
    subst hran
    exact ⟨_, rfl, hv.respond hv.statusView⟩
  | rxovf =>
    simp only [Ran] at hran
    subst hran
    exact ⟨_, rfl, hv.respond (hv.rxOvfCnt hi)⟩

/-- On an initialised block a command's own rule raises the same fault in both states. -/
theorem SameView.ownFault (h : SameView s t) (hi : s.initDone = true) {c : FaultCause} (hc : OwnFault i s c) :
    OwnFault i t c := by
  cases i with
  | qenq q b =>
    obtain ⟨hf, rfl⟩ := hc
    exact ⟨(h.alike hi q).isFull ▸ hf, rfl⟩
  | qdeq q =>
    obtain ⟨he, rfl⟩ := hc
    exact ⟨(h.alike hi q).isEmpty ▸ he, rfl⟩
  | submitByte b =>
    obtain ⟨hidle, hn, rfl⟩ := hc
    exact ⟨h.txState hi ▸ hidle, h.txShift ▸ hn, rfl⟩
  | _ => exact hc.elim

/-- Only a command that needs the block initialised has a fault of its own. -/
theorem OwnFault.not_exempt {c : FaultCause} (hc : OwnFault i s c) : initExempt i = false := by
  cases i with
  | reinit => exact hc.elim
  | status => exact hc.elim
  | _ => rfl

/-- A command on a port that does not permit it raises F_CONTEXT (30_encoding.md R84). -/
theorem exec_of_not_permitted (h : s.faultCode = 0) (hp : permitted s.context i = false) :
    exec i s = .next (s.raise .context (encode i)) := by
  obtain ⟨body, hb⟩ := exec_eq_prologue i
  rw [hb, prologue_of_not_permitted h hp]

/-- A command's own rule answers the same in both states, or it is STATUS, REINIT, or runs on an initialised block. -/
theorem Twins.exec_of_ran (h : Twins s t) (hr : i = .status ∨ s.Ready i) (hran : Ran i s s') :
    ∃ t', exec i t = .next t' ∧ SameView s' t' := by
  by_cases hstatus : i = .status
  · subst hstatus
    simp only [Ran] at hran
    subst hran
    exact ⟨_, exec_status t, h.view.respond h.view.statusView⟩
  have hR := hr.resolve_left hstatus
  have hran' : ∃ t', Ran i t t' ∧ SameView s' t' := by
    rcases hR.init with hi | hex
    · exact h.ran hi hran
    · cases i with
      | reinit => exact h.view.reinit hran
      | status => exact absurd rfl hstatus
      | _ => simp [initExempt] at hex
  obtain ⟨t', ht', hv⟩ := hran'
  exact ⟨t', Machine.exec_of_ran (h.view.ready hR) ht', hv⟩

/-- A command answers the same in both states. -/
theorem Twins.exec (h : Twins s t) (i : Instr) :
    ∃ s' t', exec i s = .next s' ∧ exec i t = .next t' ∧ SameView s' t' := by
  have hv := h.view
  obtain ⟨s', hs'⟩ := exec_answers i (fun hi => (h.left hi .rxq).wf) (fun hi => (h.left hi .txq).wf)
  suffices ht' : ∃ t', Machine.exec i t = .next t' ∧ SameView s' t' by
    obtain ⟨t', ht', hv'⟩ := ht'
    exact ⟨s', t', hs', ht', hv'⟩
  rcases exec_next hs' with ⟨hf, hi, rfl⟩ | ⟨hf, hp, rfl⟩ | ⟨hf, hp, hn, he, rfl⟩ | ⟨hr, c, hc, rfl⟩ | ⟨hr, hran⟩
  · exact ⟨_, exec_of_faulted (hv.faultCode ▸ hf) hi, hv.respondErr⟩
  · exact ⟨_, exec_of_not_permitted (hv.faultCode ▸ hf) (hv.context ▸ hp), hv.raise _ _⟩
  · exact ⟨_, exec_of_not_init (hv.faultCode ▸ hf) (hv.context ▸ hp) (hv.initDone ▸ hn) he, hv.raise _ _⟩
  · have hi := hr.init.resolve_right (by simp [hc.not_exempt])
    exact ⟨_, exec_of_ownFault (hv.ready hr) (hv.ownFault hi hc), hv.raise _ _⟩
  · exact h.exec_of_ran hr hran

/-- A presented word is answered the same in both states. -/
theorem Twins.execute (h : Twins s t) (p : Port) (w : Word) :
    ∃ s' t', execute p w s = .next s' ∧ execute p w t = .next t' ∧ SameView s' t' := by
  unfold Machine.execute executeWord
  cases decode w with
  | cmd i => exact (h.enter p).exec i
  | reserved => exact ⟨_, _, rfl, rfl, (h.view.enter p).raise .reserved w⟩

/-! ### Agents and steps -/

/-- An agent that presents a word and goes on in the same way answers the same. -/
theorem Twins.execute_andThen (h : Twins s t) (p : Port) (w : Word) {f g : State → Result}
    (hfg : ∀ u v, SameView u v → SameResult (f u) (g v)) :
    SameResult ((Machine.execute p w s : Result).andThen f) ((Machine.execute p w t : Result).andThen g) := by
  obtain ⟨u, v, hu, hv, huv⟩ := h.execute p w
  rw [hu, hv]
  exact hfg u v huv

theorem Twins.wouldHold (h : Twins s t) (w : Word) : s.wouldHold w = t.wouldHold w := by
  obtain ⟨u, v, hu, hv, huv⟩ := h.execute .main w
  simp only [State.wouldHold, hu, hv, huv.response]

theorem Twins.mainReady (h : Twins s t) : s.mainReady = t.mainReady := by
  unfold State.mainReady
  rw [h.view.mainline]
  cases t.mainline.current with
  | none => rfl
  | some w => exact congrArg (! ·) (h.wouldHold w)

/-- The same agents have a step in both states. -/
theorem Twins.enabled (h : Twins s t) (turn : Turn) : s.enabled turn = t.enabled turn := by
  have hv := h.view
  cases turn <;>
    simp [State.enabled, hv.config, hv.faultCode, hv.irqEnabled, hv.txReadyPending, hv.rxPending, hv.txShift, hv.wireIn,
      hv.irqHarness, h.mainReady]

theorem Twins.stuck (h : Twins s t) : s.stuck = t.stuck := by
  have hv := h.view
  have hq : s.quiescent = t.quiescent := by simp [State.quiescent, h.enabled]
  have he : s.endsWell = t.endsWell := by
    simp [State.endsWell, hv.mainline, hv.faultCode, hv.txShift, hv.txReadyPending, hv.rxPending, hv.wireIn]
  simp [State.stuck, hv.config, hq, he]

theorem SameView.nextTurn (h : SameView s t) : s.nextTurn = t.nextTurn := by
  simp only [State.nextTurn, h.schedule, h.tick]

theorem Twins.mainStep (h : Twins s t) : SameResult (mainStep s) (mainStep t) := by
  unfold Machine.mainStep
  rw [h.view.mainline]
  cases t.mainline.current with
  | none => exact h.view
  | some w =>
    refine h.execute_andThen .main w fun u v hv => ?_
    exact { hv.leave with mainline := by rw [hv.mainline, hv.response] }

theorem Twins.harnessStep (h : Twins s t) : SameResult (harnessStep s) (harnessStep t) := by
  unfold Machine.harnessStep
  rw [h.view.irqHarness]
  cases t.irqHarness.current with
  | none => exact h.view
  | some w =>
    refine h.execute_andThen .irq w fun u v hv => ?_
    exact { hv.leave with irqHarness := by rw [hv.irqHarness, hv.response] }

/-- The TX bridge handler hands the same byte to the sink, or finds it taken, in both states. -/
theorem Twins.irqTxStep (h : Twins s t) : SameResult (irqTxStep s) (irqTxStep t) := by
  refine h.execute_andThen .irq readyWord fun u v hv => ?_
  rw [show Response.byte? u.response = Response.byte? v.response from congrArg _ hv.response]
  cases Response.byte? v.response with
  | none => exact (hv.withTxReadyPending false).leave
  | some b =>
    simp only [State.sinkWrite, hv.txShift]
    cases v.txShift with
    | some c => exact (hv.raise .sinkOverrun readyWord).leave
    | none => exact ((hv.sink b).withTxReadyPending false).leave

theorem Twins.irqRxStep (h : Twins s t) : SameResult (irqRxStep s) (irqRxStep t) := by
  unfold Machine.irqRxStep
  rw [h.view.rxPending]
  cases t.rxPending with
  | none => exact h.view
  | some b =>
    refine h.execute_andThen .irq (receivedWord b) fun u v hv => ?_
    exact { hv.leave with rxPending := rfl }

theorem SameView.rxDeliverStep (h : SameView s t) : SameResult (rxDeliverStep s) (rxDeliverStep t) := by
  unfold Machine.rxDeliverStep
  rw [h.wireIn]
  cases t.wireIn with
  | nil => exact h
  | cons b rest => exact { h with rxPending := rfl, wireIn := rfl }

/-- Every agent's transition answers the same in both states. -/
theorem Twins.act (h : Twins s t) (turn : Turn) : SameResult (act turn s) (act turn t) := by
  cases turn with
  | mainline => exact h.mainStep
  | irqTx => exact h.irqTxStep
  | irqRx => exact h.irqRxStep
  | txComplete => exact { h.view with txShift := rfl, txReadyPending := rfl }
  | rxDeliver => exact h.view.rxDeliverStep
  | irqHarness => exact h.harnessStep

/-- Settles O43: the same agent moves in both states, and answers the same. -/
theorem unobservedStateStaysUnobserved : Obligations.UnobservedStateStaysUnobserved := by
  intro s t hs ht hv
  have h := Twins.of_inv hs ht hv
  unfold step transition takeTurn
  rw [h.stuck, hv.nextTurn, h.passTurn.enabled]
  split
  · rfl
  · split
    · exact h.passTurn.act _
    · exact hv.passTurn

end Sys2Proof.Machine

/-! ## A step answers, or is stuck (20_memory.md R51, 60_exceptions.md R198) -/

namespace Sys2Proof.Machine

variable {s : State}

theorem andThen_answers {r : Result} {f : State → Result} (hr : ∃ u, r = .next u) (hf : ∀ u, ∃ t, f u = .next t) :
    ∃ t, r.andThen f = .next t := by
  obtain ⟨u, rfl⟩ := hr
  exact hf u

/-- A presented word answers a next state where a command does: it reaches no slot that does not exist
(20_memory.md R51). -/
theorem execute_answers (hw : s.initDone = true → ∀ sel, (s.queue sel).Wf) (p : Port) (w : Word) :
    ∃ t, execute p w s = .next t := by
  unfold execute executeWord
  cases decode w with
  | cmd i => exact exec_answers i (fun hi => hw hi .rxq) (fun hi => hw hi .txq)
  | reserved => exact ⟨_, rfl⟩

/-- The TX bridge handler answers a next state: a sink that cannot take the byte is a recorded fault (60_exceptions.md
R181, R187). -/
theorem irqTxStep_answers (hw : s.initDone = true → ∀ sel, (s.queue sel).Wf) : ∃ t, irqTxStep s = .next t := by
  refine andThen_answers (execute_answers hw .irq readyWord) fun u => ?_
  cases Response.byte? u.response with
  | none => exact ⟨_, rfl⟩
  | some b => cases h : u.sinkWrite b <;> simp [h]

/-- Every agent's transition answers a next state. -/
theorem act_answers (hw : s.initDone = true → ∀ sel, (s.queue sel).Wf) (turn : Turn) : ∃ t, act turn s = .next t := by
  cases turn with
  | mainline =>
    unfold act mainStep
    cases s.mainline.current with
    | none => exact ⟨_, rfl⟩
    | some w => exact andThen_answers (execute_answers hw .main w) fun _ => ⟨_, rfl⟩
  | irqTx => exact irqTxStep_answers hw
  | irqRx =>
    unfold act irqRxStep
    cases s.rxPending with
    | none => exact ⟨_, rfl⟩
    | some b => exact andThen_answers (execute_answers hw .irq (receivedWord b)) fun _ => ⟨_, rfl⟩
  | txComplete => exact ⟨_, rfl⟩
  | rxDeliver =>
    unfold act rxDeliverStep
    cases s.wireIn with
    | nil => exact ⟨_, rfl⟩
    | cons b rest => exact ⟨_, rfl⟩
  | irqHarness =>
    unfold act harnessStep
    cases s.irqHarness.current with
    | none => exact ⟨_, rfl⟩
    | some w => exact andThen_answers (execute_answers hw .irq w) fun _ => ⟨_, rfl⟩

/-- Settles O41: off the stuck states the turn passes or its agent's transition answers. -/
theorem stepStopsOnlyWhenStuck : Obligations.StepStopsOnlyWhenStuck := by
  intro s hs
  unfold step transition takeTurn
  cases hstuck : s.stuck with
  | true => exact .inr ⟨rfl, rfl⟩
  | false =>
    refine .inl ?_
    cases s.passTurn.enabled s.nextTurn with
    | false => exact ⟨_, rfl⟩
    | true => exact act_answers (s := s.passTurn) (fun hi sel => by cases sel; exacts [hs.rxqWf hi, hs.txqWf hi]) _

end Sys2Proof.Machine

/-! ## Checks of one side (20_memory.md R61) -/

namespace Sys2Proof.Machine

variable {s t : State} {i : Instr} {sel : QueueSel} {q q' : Queue} {p : Port}

/-- The moves of a queue with the side each belongs to: only the producer's port appends, and only the consumer's takes
(10_state.md R24). -/
inductive SidedMove (p : Port) (sel : QueueSel) (q q' : Queue) : Prop where
  | same (result : q' = q)
  | enqueued (port : p = producerPort sel) (b : Byte) (result : q.enqueue b = some q')
  | dequeued (port : p = consumerPort sel) (v : Byte) (result : q.dequeue = some (v, q'))

/-- A move that is not the producer's does not make the queue longer. -/
theorem SidedMove.cnt_le (h : SidedMove p sel q q') (hp : p ≠ producerPort sel) : q'.cnt ≤ q.cnt := by
  rcases h with rfl | ⟨hport, -, -⟩ | ⟨-, v, hd⟩
  · exact le_rfl
  · exact absurd hport hp
  · obtain ⟨-, -, rfl⟩ := Queue.dequeue_eq_some_iff.mp hd
    exact Nat.sub_le _ _

/-- A move that is not the consumer's does not make the queue shorter. -/
theorem SidedMove.le_cnt (h : SidedMove p sel q q') (hp : p ≠ consumerPort sel) : q.cnt ≤ q'.cnt := by
  rcases h with rfl | ⟨-, b, he⟩ | ⟨hport, -, -⟩
  · exact le_rfl
  · obtain ⟨-, rfl⟩ := Queue.enqueue_eq_some_iff.mp he
    exact Nat.le_succ _
  · exact absurd hport hp

/-- QENQ is the producer's (30_encoding.md R79). -/
theorem permitted_qenq_iff {b : Byte} : permitted p (.qenq sel b) = true ↔ p = producerPort sel := by
  cases p <;> cases sel <;> simp [permitted, producerPort]

/-- QDEQ is the consumer's (30_encoding.md R79). -/
theorem permitted_qdeq_iff : permitted p (.qdeq sel) = true ↔ p = consumerPort sel := by
  cases p <;> cases sel <;> simp [permitted, consumerPort]

/-- A queue is unchanged where another one is replaced, and moves as the replacement does where it is the one. -/
theorem SidedMove.of_set {o : QueueSel} {Q : Queue} (hm : SidedMove p o (s.queue o) Q)
    (ht : t.queue sel = (s.setQueue o Q).queue sel) : SidedMove p sel (s.queue sel) (t.queue sel) := by
  rw [ht]
  by_cases ho : sel = o
  · subst ho
    simpa using hm
  · exact .same (State.queue_setQueue_of_ne _ _ _ ho)

/-- A permitted command's own rule moves a queue on the side its port stands on, or is a QRESET of it or a REINIT and
resets it. -/
theorem ran_sided (h : Ran i s t) (hp : permitted s.context i = true) (sel : QueueSel) :
    SidedMove s.context sel (s.queue sel) (t.queue sel) ∨
      (Discards sel i ∧ t.queue sel = (s.queue sel).resetFields) := by
  cases i with
  | qenq q b =>
    obtain ⟨-, Q, hQ, rfl⟩ := h
    exact .inl (.of_set (.enqueued (permitted_qenq_iff.mp hp) b hQ) (by cases sel <;> rfl))
  | qdeq q =>
    obtain ⟨-, v, Q, hQ, rfl⟩ := h
    exact .inl (.of_set (.dequeued (permitted_qdeq_iff.mp hp) v hQ) (by cases sel <;> rfl))
  | qreset q =>
    simp only [Ran] at h
    subst h
    by_cases hq : sel = q
    · subst hq
      exact .inr ⟨.inl rfl, State.queue_setQueue s sel _⟩
    · exact .inl (.same (State.queue_setQueue_of_ne s q _ hq))
  | submitByte b =>
    have hmain : s.context = producerPort .txq := by simpa [permitted, producerPort] using hp
    rcases h with ⟨-, -, rfl⟩ | ⟨-, -, rfl⟩ | ⟨-, -, Q, hQ, rfl⟩
    · exact .inl (.same (by cases sel <;> rfl))
    · exact .inl (.same (by cases sel <;> rfl))
    · exact .inl (.of_set (.enqueued hmain b hQ) (by cases sel <;> rfl))
  | onReadyForNext =>
    have hirq : s.context = consumerPort .txq := by simpa [permitted, consumerPort] using hp
    rcases h with ⟨-, rfl⟩ | ⟨-, v, Q, hQ, rfl⟩
    · exact .inl (.same (by cases sel <;> rfl))
    · exact .inl (.of_set (.dequeued hirq v hQ) (by cases sel <;> rfl))
  | retrieveByte =>
    have hmain : s.context = consumerPort .rxq := by simpa [permitted, consumerPort] using hp
    rcases h with ⟨-, rfl⟩ | ⟨-, v, Q, hQ, rfl⟩
    · exact .inl (.same (by cases sel <;> rfl))
    · exact .inl (.of_set (.dequeued hmain v hQ) (by cases sel <;> rfl))
  | onByteReceived b =>
    have hirq : s.context = producerPort .rxq := by simpa [permitted, producerPort] using hp
    rcases h with ⟨-, rfl⟩ | ⟨-, Q, hQ, rfl⟩
    · exact .inl (.same (by cases sel <;> rfl))
    · exact .inl (.of_set (.enqueued hirq b hQ) (by cases sel <;> rfl))
  | reinit =>
    simp only [Ran] at h
    subst h
    exact .inr ⟨.inr rfl, by cases sel <;> rfl⟩
  | _ =>
    simp only [Ran] at h
    subst h
    exact .inl (.same (by cases sel <;> rfl))

/-- A command moves a queue on the side its port stands on, or is a QRESET of it or a REINIT and resets it. -/
theorem exec_sided (h : exec i s = .next t) (sel : QueueSel) :
    SidedMove s.context sel (s.queue sel) (t.queue sel) ∨
      (Discards sel i ∧ t.queue sel = (s.queue sel).resetFields) := by
  rcases exec_next h with ⟨-, -, rfl⟩ | ⟨-, -, rfl⟩ | ⟨-, -, -, -, rfl⟩ | ⟨-, c, -, rfl⟩ | ⟨hr, hran⟩
  iterate 4 exact .inl (.same (by cases sel <;> rfl))
  refine ran_sided hran ?_ sel
  rcases hr with rfl | hR
  · simp [permitted]
  · exact hR.port

/-- Settles O48: the other side never makes the queue longer for its producer, nor shorter for its consumer unless it
discards the elements. -/
theorem singleSidedChecksAreStable : Obligations.SingleSidedChecksAreStable := by
  intro i s t q h hw
  refine ⟨fun hp hf => ?_, fun hp hnr hni he => ?_⟩
  · have hlt := hw.lt_cap_of_not_full hf
    have hcap : (t.queue q).cap = (s.queue q).cap := congrArg (· + 1) ((exec_move h).move q).topSlot
    have hle : (t.queue q).cnt ≤ (s.queue q).cnt := by
      rcases exec_sided h q with hm | ⟨-, hreset⟩
      · exact hm.cnt_le hp
      · rw [hreset]
        exact Nat.zero_le _
    exact Queue.isFull_of_lt (hcap ▸ hle.trans_lt hlt)
  · have hm := (exec_sided h q).resolve_right fun hd => hd.1.elim (hnr q) hni
    have hpos := (Queue.pos_of_not_empty he).trans_le (hm.le_cnt hp)
    simpa [Queue.isEmpty] using hpos.ne'

end Sys2Proof.Machine

/-! ## The decoder and the encoder (30_encoding.md R70 to R76, R82) -/

namespace Sys2Proof

variable {w : Word} {i : Instr} {r : OpcodeRow}

/-! ### A word and its fields -/

/-- A word is laid out from its own fields. -/
@[simp] theorem Fields.toWord_ofWord (w : Word) : (Fields.ofWord w).toWord = w := by
  simp only [Fields.toWord, Fields.ofWord]
  rw [BitVec.extractLsb'_append_extractLsb'_eq_extractLsb' (by rfl),
    BitVec.extractLsb'_append_extractLsb'_eq_extractLsb' (by rfl),
    BitVec.extractLsb'_append_extractLsb'_eq_extractLsb' (by rfl)]
  exact BitVec.extractLsb'_eq_self

/-- The fields of a word are those it was laid out from. -/
@[simp] theorem Fields.ofWord_toWord (f : Fields) : Fields.ofWord f.toWord = f := by
  simp only [Fields.ofWord]
  congr
  · exact (BitVec.extractLsb'_append_eq_of_le (by decide)).trans <|
      (BitVec.extractLsb'_append_eq_of_le (by decide)).trans BitVec.extractLsb'_append_eq_left
  · exact (BitVec.extractLsb'_append_eq_of_le (by decide)).trans <|
      (BitVec.extractLsb'_append_eq_of_le (by decide)).trans BitVec.extractLsb'_append_eq_right
  · exact (BitVec.extractLsb'_append_eq_of_le (by decide)).trans BitVec.extractLsb'_append_eq_right
  · exact BitVec.extractLsb'_append_eq_right

theorem Fields.ofWord_injective : Function.Injective Fields.ofWord :=
  Function.LeftInverse.injective Fields.toWord_ofWord

/-- Masking a word masks each of its fields. -/
theorem Fields.ofWord_and (w m : Word) : Fields.ofWord (w &&& m) =
    ⟨(ofWord w).op &&& (ofWord m).op, (ofWord w).rsv &&& (ofWord m).rsv, (ofWord w).q &&& (ofWord m).q,
      (ofWord w).data &&& (ofWord m).data⟩ := by
  simp only [Fields.ofWord, BitVec.extractLsb'_and]

@[simp] theorem QueueSel.bit_inj {p q : QueueSel} : p.bit = q.bit ↔ p = q := by
  cases p <;> cases q <;> decide

/-- The queue operand is the queue the Q bit names (30_encoding.md R72). -/
@[simp] theorem bit_queueOperand (w : Word) : (queueOperand w).bit = (Fields.ofWord w).q := by
  unfold queueOperand
  split
  · case isTrue h => exact h.symm
  · case isFalse h => exact ((BitVec.eq_zero_or_eq_one _).resolve_left h).symm

theorem queueOperand_eq_iff {q : QueueSel} : queueOperand w = q ↔ q.bit = (Fields.ofWord w).q := by
  rw [← bit_queueOperand, QueueSel.bit_inj, eq_comm]

/-- Every command's fields are legal (30_encoding.md R71, R74). -/
theorem fields_wellFormed (i : Instr) : i.fields.wellFormed = true := by
  cases i with
  | qempty q => exact Laws.FieldsLegal.qempty q
  | qfull q => exact Laws.FieldsLegal.qfull q
  | qenq q b => exact Laws.FieldsLegal.qenq q b
  | qdeq q => exact Laws.FieldsLegal.qdeq q
  | qreset q => exact Laws.FieldsLegal.qreset q
  | _ => rfl

/-! ### The rows of the opcode table -/

/-- The fields of the mask column for an operand format: all of OP and RSV, and the must-be-zero fields of the format
(30_encoding.md R71, R75). -/
def Format.mask : Format → Fields
  | .qn => ⟨.allOnes 4, .allOnes 3, 0, .allOnes 8⟩
  | .qd => ⟨.allOnes 4, .allOnes 3, 0, 0⟩
  | .d => ⟨.allOnes 4, .allOnes 3, .allOnes 1, 0⟩
  | .n => ⟨.allOnes 4, .allOnes 3, .allOnes 1, .allOnes 8⟩

/-- The operation code of a row. -/
def OpcodeRow.op (r : OpcodeRow) : BitVec 4 := (Fields.ofWord r.pattern).op

/-- Every row has an operation code of some format, the mask of that format, and zeros in the other fields of its
pattern. -/
theorem opcodeTable_format : ∀ r ∈ opcodeTable, (formatOf r.op).map Format.mask = some (Fields.ofWord r.mask) ∧
    Fields.ofWord r.pattern = ⟨r.op, 0, 0, 0⟩ := by decide

/-- Every operation code of some format has a row. -/
theorem exists_row_of_format : ∀ op, (formatOf op).isSome = true → ∃ r ∈ opcodeTable, op = r.op := by decide

/-- No two rows have the same operation code. -/
theorem opcodeTable_op_nodup : (opcodeTable.map OpcodeRow.op).Nodup := by decide

/-- A word matches a row exactly when it has the row's operation code and legal fields: the masks of R75 say what the
field rules of R74 and R76 say. -/
theorem hits_iff_wellFormed (hr : r ∈ opcodeTable) :
    r.hits w = true ↔ (Fields.ofWord w).op = r.op ∧ (Fields.ofWord w).wellFormed = true := by
  obtain ⟨hmask, hp⟩ := opcodeTable_format r hr
  obtain ⟨fmt, hf, hm⟩ := Option.map_eq_some_iff.mp hmask
  rw [OpcodeRow.hits, beq_iff_eq, ← Fields.ofWord_injective.eq_iff, Fields.ofWord_and, hp, ← hm, Fields.mk.injEq]
  generalize Fields.ofWord w = f
  have hop : f.op &&& fmt.mask.op = f.op := by cases fmt <;> exact BitVec.and_allOnes
  rw [hop]
  refine and_congr_right fun h => ?_
  have hfmt : formatOf f.op = some fmt := h ▸ hf
  cases fmt <;>
    simp [Format.mask, Fields.wellFormed, Fields.rsvZero, Fields.queueLegal, Fields.dataLegal, hfmt, and_assoc,
      -BitVec.reduceAllOnes]

/-- Legal fields with a row's operation code are those of the command the row builds from them. -/
theorem fields_build_of_wellFormed (hr : r ∈ opcodeTable) {f : Fields} (hop : f.op = r.op) (hw : f.wellFormed = true)
    {sel : QueueSel} (hq : f.q = sel.bit) : f = (r.build sel f.data).fields := by
  obtain ⟨op, rsv, q, data⟩ := f
  dsimp only at hop hq
  subst hop hq
  simp only [Fields.wellFormed, Fields.rsvZero, Fields.queueLegal, Fields.dataLegal, Bool.and_eq_true] at hw
  simp only [opcodeTable, List.mem_cons, List.not_mem_nil, or_false] at hr
  rcases hr with rfl | rfl | rfl | rfl | rfl | rfl | rfl | rfl | rfl | rfl | rfl | rfl | rfl
  all_goals simpa [OpcodeRow.op, Fields.ofWord, formatOf, Instr.fields, and_assoc] using hw

/-- The command a row builds from the operands of a word it matches has the word's fields. -/
theorem fields_build (hr : r ∈ opcodeTable) (hh : r.hits w = true) :
    (r.build (queueOperand w) (byteOperand w)).fields = Fields.ofWord w := by
  obtain ⟨hop, hw⟩ := (hits_iff_wellFormed hr).mp hh
  exact (fields_build_of_wellFormed hr hop hw (bit_queueOperand w).symm).symm

/-- Every command is built by a row with its operation code, from the operands of any word with its fields. -/
theorem exists_row_of_fields (h : i.fields = Fields.ofWord w) :
    ∃ r ∈ opcodeTable, i.fields.op = r.op ∧ r.build (queueOperand w) (byteOperand w) = i := by
  have hq : ∀ {q}, i.fields.q = QueueSel.bit q → queueOperand w = q := fun hi =>
    queueOperand_eq_iff.mpr (hi.symm.trans (congrArg Fields.q h))
  have hb : byteOperand w = i.fields.data := (congrArg Fields.data h).symm
  cases i with
  | qempty q => exact ⟨opcodeTable[0], List.getElem_mem _, rfl, congrArg Instr.qempty (hq rfl)⟩
  | qfull q => exact ⟨opcodeTable[1], List.getElem_mem _, rfl, congrArg Instr.qfull (hq rfl)⟩
  | qenq q b => exact ⟨opcodeTable[2], List.getElem_mem _, rfl, congrArg₂ Instr.qenq (hq rfl) hb⟩
  | qdeq q => exact ⟨opcodeTable[3], List.getElem_mem _, rfl, congrArg Instr.qdeq (hq rfl)⟩
  | qreset q => exact ⟨opcodeTable[4], List.getElem_mem _, rfl, congrArg Instr.qreset (hq rfl)⟩
  | submitByte b => exact ⟨opcodeTable[5], List.getElem_mem _, rfl, congrArg Instr.submitByte hb⟩
  | onReadyForNext => exact ⟨opcodeTable[6], List.getElem_mem _, rfl, rfl⟩
  | reinit => exact ⟨opcodeTable[7], List.getElem_mem _, rfl, rfl⟩
  | retrieveByte => exact ⟨opcodeTable[8], List.getElem_mem _, rfl, rfl⟩
  | onByteReceived b => exact ⟨opcodeTable[9], List.getElem_mem _, rfl, congrArg Instr.onByteReceived hb⟩
  | txstate => exact ⟨opcodeTable[10], List.getElem_mem _, rfl, rfl⟩
  | status => exact ⟨opcodeTable[11], List.getElem_mem _, rfl, rfl⟩
  | rxovf => exact ⟨opcodeTable[12], List.getElem_mem _, rfl, rfl⟩

/-- A word that matches two rows matches one row. -/
theorem row_unique {r' : OpcodeRow} (hr : r ∈ opcodeTable) (hr' : r' ∈ opcodeTable) (hh : r.hits w = true)
    (hh' : r'.hits w = true) : r = r' := by
  refine List.inj_on_of_nodup_map opcodeTable_op_nodup hr hr' ?_
  rw [← ((hits_iff_wellFormed hr).mp hh).1, ← ((hits_iff_wellFormed hr').mp hh').1]

/-! ### The decoder -/

/-- A word decodes as the row it matches (30_encoding.md R82). -/
theorem decode_of_hits (hr : r ∈ opcodeTable) (hh : r.hits w = true) :
    decode w = .cmd (r.build (queueOperand w) (byteOperand w)) := by
  cases hf : opcodeTable.find? (OpcodeRow.hits w) with
  | none => exact absurd hh (List.find?_eq_none.mp hf r hr)
  | some r' =>
    have hr' := row_unique (List.mem_of_find?_eq_some hf) hr (List.find?_some hf) hh
    simp only [decode, hf, hr']

/-- A word decodes as a command exactly when its fields are the command's. -/
theorem decode_eq_cmd_iff : decode w = .cmd i ↔ i.fields = Fields.ofWord w := by
  constructor
  · intro h
    obtain ⟨r, hr, hh, rfl⟩ := Machine.row_of_decode h
    exact fields_build hr hh
  · intro h
    obtain ⟨r, hr, hop, hi⟩ := exists_row_of_fields h
    rw [← hi]
    exact decode_of_hits hr ((hits_iff_wellFormed hr).mpr (h ▸ ⟨hop, fields_wellFormed i⟩))

theorem decode_encode (i : Instr) : decode (encode i) = .cmd i :=
  decode_eq_cmd_iff.mpr (Fields.ofWord_toWord _).symm

theorem encode_of_decode (h : decode w = .cmd i) : encode i = w := by
  rw [encode, decode_eq_cmd_iff.mp h, Fields.toWord_ofWord]

/-- A word is reserved exactly when its fields are not legal (30_encoding.md R74, R76). -/
theorem decode_eq_reserved_iff : decode w = .reserved ↔ (Fields.ofWord w).wellFormed = false := by
  constructor
  · intro h
    by_contra hw
    rw [Bool.not_eq_false] at hw
    have hf : (formatOf (Fields.ofWord w).op).isSome = true := by
      simp only [Fields.wellFormed, Bool.and_eq_true] at hw
      exact hw.1.1.1
    obtain ⟨r, hr, hop⟩ := exists_row_of_format _ hf
    simp [decode_of_hits hr ((hits_iff_wellFormed hr).mpr ⟨hop, hw⟩)] at h
  · intro h
    cases hd : decode w with
    | reserved => rfl
    | cmd i => simp [← decode_eq_cmd_iff.mp hd, fields_wellFormed] at h

/-- Settles O2: two rows differ in the operation code, and a word has one. -/
theorem opcodeRowsDisjoint : Obligations.OpcodeRowsDisjoint :=
  (List.pairwise_map.mp opcodeTable_op_nodup).imp_of_mem fun hr hr' hne w ⟨hh, hh'⟩ => by
    rw [← ((hits_iff_wellFormed hr).mp hh).1, ← ((hits_iff_wellFormed hr').mp hh').1] at hne
    exact hne rfl

/-- Settles O1: a word decodes as a command exactly when its fields are the command's, and a word and its fields
determine each other. -/
theorem decodeEncodeInverse : Obligations.DecodeEncodeInverse :=
  ⟨fun i _ => decode_encode i, fun _ _ => encode_of_decode⟩

/-- Settles O3: the reserved words are those that match no row, because their fields are not legal. -/
theorem reservedIffIllFormed : Obligations.ReservedIffIllFormed := fun _ => decode_eq_reserved_iff

/-- Settles O5, each word by evaluation. -/
theorem specWordsDecode : Obligations.SpecWordsDecode := by
  unfold Obligations.SpecWordsDecode
  decide

end Sys2Proof

/-! ## Presented words: the order of the checks (30_encoding.md R74, R79, R84) -/

namespace Sys2Proof.Machine

variable {s t : State} {w : Word} {i : Instr} {c : FaultCause}

theorem executeWord_of_decode (h : decode w = .cmd i) (s : State) : executeWord w s = exec i s := by
  simp [executeWord, h]

theorem executeWord_of_reserved (h : decode w = .reserved) (s : State) :
    executeWord w s = .next (s.raise .reserved w) := by
  simp [executeWord, h]

/-- A reserved word presented to an unfaulted block is recorded as F_RESERVED (30_encoding.md R84). -/
theorem executeWord_reserved_of_unfaulted (h : decode w = .reserved) (hf : s.faultCode = 0) :
    executeWord w s = .next { s with
      faultCode := 1, faultPort := s.context, faultWord := w, response := some ⟨true, 0⟩ } := by
  rw [executeWord_of_reserved h, State.raise_of_unfaulted hf]
  rfl

/-- Settles O4: a field that must be zero and is not makes the fields illegal, so the word is reserved. -/
theorem mustBeZeroFieldsRaiseReserved : Obligations.MustBeZeroFieldsRaiseReserved := by
  intro w s hf h
  have hw : (Fields.ofWord w).wellFormed = false := by
    simp only [Fields.wellFormed, Bool.and_eq_false_iff]
    rcases h with hrsv | ⟨hq, hfmt⟩ | ⟨hdata, hfmt⟩
    · exact .inl (.inl (.inr (by simpa [Fields.rsvZero] using hrsv)))
    · exact .inl (.inr (by rcases hfmt with hfmt | hfmt <;> simp [Fields.queueLegal, hfmt, hq]))
    · exact .inr (by rcases hfmt with hfmt | hfmt <;> simpa [Fields.dataLegal, hfmt] using hdata)
  have hd := decode_eq_reserved_iff.mpr hw
  exact ⟨hd, executeWord_reserved_of_unfaulted hd hf⟩

/-- REINIT and STATUS alone are exempt from F_NOT_INIT (30_encoding.md R84). -/
theorem initExempt_of_ne (hr : i ≠ .reinit) (hs : i ≠ .status) : initExempt i = false := by
  cases i with
  | reinit => exact absurd rfl hr
  | status => exact absurd rfl hs
  | _ => rfl

/-- The only word of STATUS is 0xC000 (30_encoding.md R75). -/
theorem decode_eq_status_iff : decode w = .cmd .status ↔ w = 0xC000 :=
  ⟨fun h => (encode_of_decode h).symm, fun h => h ▸ decode_encode .status⟩

/-- The faults of a command's own rule are none of the prologue's. -/
theorem OwnFault.code_ge (h : OwnFault i s c) : 4 ≤ c.code.toNat := by
  cases i with
  | qenq q b =>
    obtain ⟨-, rfl⟩ := h
    decide
  | qdeq q =>
    obtain ⟨-, rfl⟩ := h
    decide
  | submitByte b =>
    obtain ⟨-, -, rfl⟩ := h
    decide
  | _ => exact h.elim

/-- A ready command records no fault of the prologue. -/
theorem exec_faultCode_of_ready (hr : s.Ready i) (h : exec i s = .next t) :
    t.faultCode = 0 ∨ 4 ≤ t.faultCode.toNat := by
  obtain ⟨hf, hp, hi⟩ := hr
  rcases exec_next h with ⟨hf', -, -⟩ | ⟨-, hp', -⟩ | ⟨-, -, hn, he, -⟩ | ⟨-, c, hc, rfl⟩ | ⟨-, hran⟩
  · exact absurd hf hf'
  · simp [hp] at hp'
  · simp [hn, he] at hi
  · rw [State.raise_faultCode, if_pos hf]
    exact .inr hc.code_ge
  · exact .inl ((ran_faultCode hran).trans hf)

/-- A faulted block refuses every word but 0xC000 (60_exceptions.md R182). -/
theorem executeWord_of_faulted (hf : s.faultCode ≠ 0) (hw : w ≠ 0xC000) : executeWord w s = .next s.respondErr := by
  cases hd : decode w with
  | cmd i =>
    rw [executeWord_of_decode hd]
    exact exec_of_faulted hf fun hi => hw (decode_eq_status_iff.mp (hi ▸ hd))
  | reserved => rw [executeWord_of_reserved hd, State.raise_of_faulted hf]

/-- Settles O8, case by case of the prologue. -/
theorem prologueOrder : Obligations.PrologueOrder := by
  intro w s
  refine ⟨executeWord_of_faulted, fun _ hw => ?_, fun hf hd => executeWord_reserved_of_unfaulted hd hf,
    fun i hf hd hp => ?_, fun i hf hd hp hn hr hs => ?_, fun i hR hd => ?_⟩
  · rw [executeWord_of_decode (decode_eq_status_iff.mpr hw)]
    exact exec_status s
  · rw [executeWord_of_decode hd, exec_of_not_permitted hf hp, encode_of_decode hd, State.raise_of_unfaulted hf]
    rfl
  · rw [executeWord_of_decode hd, exec_of_not_init hf hp hn (initExempt_of_ne hr hs), encode_of_decode hd,
      State.raise_of_unfaulted hf]
    rfl
  · rw [executeWord_of_decode hd]
    refine ⟨rfl, fun t ht => ?_⟩
    rcases exec_faultCode_of_ready hR ht with h0 | h4
    · simp [h0]
    · refine ⟨?_, ?_, ?_⟩ <;> intro hc <;> simp [hc] at h4

/-- The ports the table of 30_encoding.md R79 does not mark for a command. -/
theorem not_permitted_iff {p : Port} : permitted p i = false ↔
    (p = .irq ∧ ((∃ b, i = .qenq .txq b) ∨ i = .qdeq .rxq ∨ (∃ q, i = .qreset q) ∨ (∃ b, i = .submitByte b) ∨
      i = .reinit ∨ i = .retrieveByte)) ∨
    (p = .main ∧ ((∃ b, i = .qenq .rxq b) ∨ i = .qdeq .txq ∨ i = .onReadyForNext ∨ ∃ b, i = .onByteReceived b)) := by
  cases i with
  | qenq q b => cases q <;> cases p <;> simp [permitted]
  | qdeq q => cases q <;> cases p <;> simp [permitted]
  | _ => cases p <;> simp [permitted]

/-- On an unfaulted block F_CONTEXT is raised exactly where the port does not permit the command. -/
theorem exec_faultCode_eq_context_iff (hf : s.faultCode = 0) (h : exec i s = .next t) :
    t.faultCode = 2 ↔ permitted s.context i = false := by
  rcases exec_next h with ⟨hf', -, -⟩ | ⟨-, hp, rfl⟩ | ⟨-, hp, -, -, rfl⟩ | ⟨hR, c, hc, rfl⟩ | ⟨hr, hran⟩
  · exact absurd hf hf'
  · simp [hf, hp, FaultCause.code]
  · simp [hf, hp, FaultCause.code]
  · have hge := hc.code_ge
    simp only [State.raise_faultCode, hf, if_true, hR.port, Bool.true_eq_false, iff_false]
    intro h2
    simp [h2] at hge
  · have hp : permitted s.context i = true := by
      rcases hr with rfl | hR
      · simp [permitted]
      · exact hR.port
    simp [ran_faultCode hran, hf, hp]

/-- Settles O9: F_CONTEXT is raised exactly where the port does not permit the command, and the two tables agree. -/
theorem portPermissions : Obligations.PortPermissions := fun _ _ _ hf h =>
  (exec_faultCode_eq_context_iff hf h).trans not_permitted_iff

/-! ## Power-on (70_reset_and_hazards.md R230) -/

/-- Before the first REINIT STATUS shows an unfaulted block as 0x0000 (10_state.md R31). -/
theorem statusView_of_powerOn (hi : s.initDone = false) (hf : s.faultCode = 0) : s.statusView = 0x0000 := by
  simp [State.statusView, State.maskedBit, hi, hf]

/-- Settles O44: the checks before a command's own rule stop it at F_NOT_INIT, and STATUS shows no flag. -/
theorem powerOnCommandsFault : Obligations.PowerOnCommandsFault := by
  intro s hs
  refine ⟨fun i hp hr hst => ?_, ?_⟩
  · rw [exec_of_not_init hs.faultCode hp hs.initDone (initExempt_of_ne hr hst), State.raise_of_unfaulted hs.faultCode]
    rfl
  · rw [exec_status, statusView_of_powerOn hs.initDone hs.faultCode]
    rfl

/-! ## A step runs the command it presents (60_exceptions.md R186, R190) -/

theorem State.mainReady_of_current (hw : s.mainline.current = some w) : s.mainReady = ! s.wouldHold w := by
  simp [State.mainReady, hw]

/-- Whether a command holds does not depend on the turn. -/
theorem wouldHold_of_answer (hx : execute .main w s.passTurn = .next t) : s.wouldHold w = t.response.isNone := by
  rw [← wouldHold_passTurn, State.wouldHold, hx]

/-- MAIN's command completes: its response is recorded and the index advances. -/
theorem step_of_mainline {r : Response} (hturn : s.nextTurn = .mainline) (hrun : s.config = .component ∨ s.faultCode = 0)
    (hw : s.mainline.current = some w) (hx : execute .main w s.passTurn = .next t) (hr : t.response = some r) :
    step s = .next { t with
      context := .main
      mainline := { s.mainline with idx := s.mainline.idx + 1, responses := s.mainline.responses ++ [r] } } := by
  have he : s.enabled s.nextTurn = true := by
    simpa [hturn, State.enabled, State.mainReady_of_current hw, wouldHold_of_answer hx, hr] using hrun
  have hm : t.mainline = s.mainline := (execute_next hx).keepsBoundary.mainline
  rw [step_of_enabled he, hturn]
  simp [act, mainStep, hw, hx, Result.andThen, hm, hr, CommandSource.complete]

/-- The harness's command completes on P_IRQ in the same way. -/
theorem step_of_irqHarness {r : Response} (hturn : s.nextTurn = .irqHarness) (hconf : s.config = .component)
    (hw : s.irqHarness.current = some w) (hx : execute .irq w s.passTurn = .next t) (hr : t.response = some r) :
    step s = .next { t with
      context := .main
      irqHarness := { s.irqHarness with
        idx := s.irqHarness.idx + 1, responses := s.irqHarness.responses ++ [r] } } := by
  have he : s.enabled s.nextTurn = true := by simp [hturn, State.enabled, hconf, hw]
  have hm : t.irqHarness = s.irqHarness := (execute_next hx).keepsBoundary.irqHarness
  rw [step_of_enabled he, hturn]
  simp [act, harnessStep, hw, hx, Result.andThen, hm, hr, CommandSource.complete]

/-- A run that is not stuck only uses up the turn of an agent that has no step. -/
theorem step_of_not_enabled (he : s.enabled s.nextTurn = false) (hs : s.stuck = false) : step s = .next s.passTurn := by
  simp [step, transition, hs, takeTurn, enabled_passTurn, he]

theorem execute_of_reserved {p : Port} (h : decode w = .reserved) (s : State) :
    execute p w s = .next ((s.enter p).raise .reserved w) :=
  executeWord_of_reserved h _

/-- Settles O7: a completed command is recorded, whatever its word decodes to, and a held one gives MAIN no step. -/
theorem stepRunsDecodedInstruction : Obligations.StepRunsDecodedInstruction := by
  refine ⟨fun s t w i r hturn hrun hw hd hx hr => ?_, fun s t w i r hturn hconf hw hd hx hr => ?_,
    fun s w hturn hrun hw hd => ?_, fun s w hturn hconf hw hd => ?_, fun s hturn ⟨w, hw, hh⟩ hs => ?_⟩
  · exact step_of_mainline hturn hrun hw ((execute_of_decode hd _).trans hx) hr
  · exact step_of_irqHarness hturn hconf hw ((execute_of_decode hd _).trans hx) hr
  · exact step_of_mainline hturn hrun hw (execute_of_reserved hd _) rfl
  · exact step_of_irqHarness hturn hconf hw (execute_of_reserved hd _) rfl
  · refine step_of_not_enabled ?_ hs
    simp [hturn, State.enabled, State.mainReady_of_current hw, hh]

end Sys2Proof.Machine

/-! ## The assembler reads what the renderer writes (30_encoding.md R80) -/

namespace Sys2Proof.Machine

/-! ### Parts of a line -/

/-- A character that neither separates words nor is a part of its own. -/
abbrev Plain (c : Char) : Prop := ¬ (c = ' ' ∨ c = '\t') ∧ c ≠ ',' ∧ c ≠ ':'

/-- Plain characters join the word under way. -/
theorem tokensFrom_plain {t : List Char} (h : ∀ c ∈ t, Plain c) (cur : List Char) :
    tokensFrom t cur = flushWord (t.reverse ++ cur) [] := by
  induction t generalizing cur with
  | nil => rfl
  | cons c cs ih =>
    obtain ⟨hc, hcs⟩ := List.forall_mem_cons.mp h
    obtain ⟨hblank, hcomma, hcolon⟩ := hc
    simp only [tokensFrom, if_neg hblank, if_neg hcomma, if_neg hcolon, ih hcs]
    simp

theorem plain_hexChar : ∀ n, Plain (hexChar n) := by decide

/-- A rendered byte is one word. -/
theorem tokensFrom_renderByte (b : Byte) : tokensFrom (renderByte b) [] = [.word (renderByte b)] := by
  refine tokensFrom_plain (fun c hc => ?_) []
  simp only [renderByte, List.mem_cons, List.not_mem_nil, or_false] at hc
  rcases hc with rfl | rfl | rfl | rfl
  · decide
  · decide
  · exact plain_hexChar _
  · exact plain_hexChar _

/-! ### Operands -/

theorem queueName_renderQueue (q : QueueSel) : queueName (renderQueue q) = some q := by cases q <;> rfl

theorem hexDigit_hexChar : ∀ n, hexDigit (hexChar n) = some n.toNat := by decide

/-- A rendered byte reads as the byte. -/
theorem byteLiteral_renderByte (b : Byte) : byteLiteral (renderByte b) = some b := by
  have hb : BitVec.ofNat 8 ((b.extractLsb' 4 4).toNat * 16 + (b.extractLsb' 0 4).toNat) = b := by
    apply BitVec.eq_of_toNat_eq
    simp only [BitVec.extractLsb'_toNat, BitVec.toNat_ofNat, Nat.shiftRight_eq_div_pow]
    omega
  simp only [byteLiteral, renderByte, hexDigit_hexChar, hb]

section Operands

variable {op : BitVec 4}

theorem operandFields_qn (h : formatOf op = some .qn) (q : QueueSel) :
    operandFields op [.word (renderQueue q)] = some ⟨op, 0, q.bit, 0⟩ := by
  simp [operandFields, h, queueName_renderQueue]

theorem operandFields_qd (h : formatOf op = some .qd) (q : QueueSel) (b : Byte) :
    operandFields op [.word (renderQueue q), .comma, .word (renderByte b)] = some ⟨op, 0, q.bit, b⟩ := by
  simp [operandFields, h, queueName_renderQueue, byteLiteral_renderByte]

theorem operandFields_d (h : formatOf op = some .d) (b : Byte) :
    operandFields op [.word (renderByte b)] = some ⟨op, 0, 0, b⟩ := by
  simp [operandFields, h, byteLiteral_renderByte]

theorem operandFields_n (h : formatOf op = some .n) : operandFields op [] = some ⟨op, 0, 0, 0⟩ := by
  simp [operandFields, h]

end Operands

/-! ### Commands -/

/-- The parts of a command's text: its name, and its operands after it. -/
def renderedTokens (i : Instr) : List Token :=
  match i with
  | .qempty q => [.word "QEMPTY".toList, .word (renderQueue q)]
  | .qfull q => [.word "QFULL".toList, .word (renderQueue q)]
  | .qenq q b => [.word "QENQ".toList, .word (renderQueue q), .comma, .word (renderByte b)]
  | .qdeq q => [.word "QDEQ".toList, .word (renderQueue q)]
  | .qreset q => [.word "QRESET".toList, .word (renderQueue q)]
  | .submitByte b => [.word "SUBMITBYTE".toList, .word (renderByte b)]
  | .onReadyForNext => [.word "ONREADYFORNEXT".toList]
  | .reinit => [.word "REINIT".toList]
  | .retrieveByte => [.word "RETRIEVEBYTE".toList]
  | .onByteReceived b => [.word "ONBYTERECEIVED".toList, .word (renderByte b)]
  | .txstate => [.word "TXSTATE".toList]
  | .status => [.word "STATUS".toList]
  | .rxovf => [.word "RXOVF".toList]

theorem tokensFrom_renderInstr (i : Instr) : tokensFrom (renderInstr i) [] = renderedTokens i := by
  cases i with
  | qenq q b =>
    have h : tokensFrom (renderInstr (.qenq q b)) [] =
        [.word "QENQ".toList, .word (renderQueue q), .comma] ++ tokensFrom (renderByte b) [] := by cases q <;> rfl
    rw [h, tokensFrom_renderByte]
    rfl
  | submitByte b => exact congrArg (Token.word "SUBMITBYTE".toList :: ·) (tokensFrom_renderByte b)
  | onByteReceived b => exact congrArg (Token.word "ONBYTERECEIVED".toList :: ·) (tokensFrom_renderByte b)
  | qempty q => cases q <;> rfl
  | qfull q => cases q <;> rfl
  | qdeq q => cases q <;> rfl
  | qreset q => cases q <;> rfl
  | _ => rfl

theorem assembleCommand_of_operands {m : List Char} {op : BitVec 4} {args : List Token} {f : Fields}
    (hm : operationName m = some op) (hf : operandFields op args = some f) :
    assembleCommand (.word m :: args) = some f.toWord := by
  simp [assembleCommand, hm, hf]

/-- The parts of a command's text assemble to its word. -/
theorem assembleCommand_renderedTokens (i : Instr) : assembleCommand (renderedTokens i) = some (encode i) := by
  cases i with
  | qempty q => exact assembleCommand_of_operands (op := 0x1) rfl (operandFields_qn rfl q)
  | qfull q => exact assembleCommand_of_operands (op := 0x2) rfl (operandFields_qn rfl q)
  | qenq q b => exact assembleCommand_of_operands (op := 0x3) rfl (operandFields_qd rfl q b)
  | qdeq q => exact assembleCommand_of_operands (op := 0x4) rfl (operandFields_qn rfl q)
  | qreset q => exact assembleCommand_of_operands (op := 0x5) rfl (operandFields_qn rfl q)
  | submitByte b => exact assembleCommand_of_operands (op := 0x6) rfl (operandFields_d rfl b)
  | onReadyForNext => exact assembleCommand_of_operands (op := 0x7) rfl (operandFields_n rfl)
  | reinit => exact assembleCommand_of_operands (op := 0x8) rfl (operandFields_n rfl)
  | retrieveByte => exact assembleCommand_of_operands (op := 0x9) rfl (operandFields_n rfl)
  | onByteReceived b => exact assembleCommand_of_operands (op := 0xA) rfl (operandFields_d rfl b)
  | txstate => exact assembleCommand_of_operands (op := 0xB) rfl (operandFields_n rfl)
  | status => exact assembleCommand_of_operands (op := 0xC) rfl (operandFields_n rfl)
  | rxovf => exact assembleCommand_of_operands (op := 0xD) rfl (operandFields_n rfl)

/-! ### Lines -/

/-- A line that names its port assembles to the port and the word of what follows the colon. -/
theorem assembleLine_of_port {line name : List Char} {rest : List Token} {p : Port} {w : Word}
    (ht : tokensFrom line [] = .word name :: .colon :: rest) (hp : portName name = some p)
    (hw : assembleCommand rest = some w) : assembleLine line = some (p, w) := by
  simp [assembleLine, ht, hp, hw]

/-- Settles O6: the line splits into its port and the parts of the command's text, which assemble to the word. -/
theorem renderedLineAssembles : Obligations.RenderedLineAssembles := by
  intro p i
  have hw : assembleCommand (tokensFrom (renderInstr i) []) = some (encode i) :=
    tokensFrom_renderInstr i ▸ assembleCommand_renderedTokens i
  cases p with
  | main => exact assembleLine_of_port (name := "MAIN".toList) rfl rfl hw
  | irq => exact assembleLine_of_port (name := "IRQ".toList) rfl rfl hw

end Sys2Proof.Machine

/-! ## The circular queue commands (40_queue.md R104 to R112) -/

namespace Sys2Proof.Machine

variable {s t : State} {q : QueueSel} {b v : Byte} {Q : Queue} {i : Instr}

/-! ### One command -/

@[simp] theorem State.queue_respond (s : State) (v : Word) (q : QueueSel) : (s.respond v).queue q = s.queue q := rfl
@[simp] theorem State.queue_enter (s : State) (p : Port) (q : QueueSel) : (s.enter p).queue q = s.queue q := rfl
@[simp] theorem State.queue_raise (s : State) (c : FaultCause) (w : Word) (q : QueueSel) :
    (s.raise c w).queue q = s.queue q := rfl

/-- Readiness depends on the fault code, the context and `init_done` alone (30_encoding.md R84). -/
theorem State.Ready.congr (h : s.Ready i) (hf : t.faultCode = s.faultCode) (hc : t.context = s.context)
    (hi : t.initDone = s.initDone) : t.Ready i :=
  ⟨hf ▸ h.unfaulted, hc ▸ h.port, hi ▸ h.init⟩

theorem Queue.isEmpty_of_pos (h : 0 < Q.cnt) : Q.isEmpty = false := by
  simpa [Queue.isEmpty] using h.ne'

theorem boolValue_decide (p : Prop) [Decidable p] : boolValue (decide p) = if p then 0x0001 else 0x0000 := by
  simp [boolValue]

/-- QENQ with room answers the enqueued queue. -/
theorem exec_qenq_of_room (hr : s.Ready (.qenq q b)) (hc : (s.queue q).cnt < (s.queue q).cap)
    (hQ : (s.queue q).enqueue b = some Q) : exec (.qenq q b) s = .next ((s.setQueue q Q).respond 0x0000) :=
  exec_of_ran hr ⟨Queue.isFull_of_lt hc, Q, hQ, rfl⟩

/-- QDEQ with an element answers the byte taken. -/
theorem exec_qdeq_of_pos (hr : s.Ready (.qdeq q)) (hc : 0 < (s.queue q).cnt)
    (hQ : (s.queue q).dequeue = some (v, Q)) : exec (.qdeq q) s = .next ((s.setQueue q Q).respond (byteValue v)) :=
  exec_of_ran hr ⟨Queue.isEmpty_of_pos hc, v, Q, hQ, rfl⟩

/-- QENQ on a full queue raises F_QUEUE_FULL. -/
theorem exec_qenq_of_full (hr : s.Ready (.qenq q b)) (hc : (s.queue q).cnt = (s.queue q).cap) :
    exec (.qenq q b) s = .next (s.raise .queueFull (encode (.qenq q b))) :=
  exec_of_ownFault hr ⟨Queue.isFull_iff.mpr hc, rfl⟩

/-- Settles O13: the queue is the one an enqueue under its precondition answers. -/
theorem qenqAppends : Obligations.QenqAppends := by
  intro q b s hr hw hs hc
  have henq := hw.enqueue_answers b
  refine ⟨_, exec_qenq_of_room hr hc henq, rfl, ?_⟩
  rw [State.queue_respond, State.queue_setQueue]
  exact ⟨rfl, rfl, rfl, Memory.read_write_same hs.canonical _ _, hw.live_enqueue hs hc henq⟩

/-- Settles O14: the queue is the one a dequeue under its precondition answers. -/
theorem qdeqTakesOldest : Obligations.QdeqTakesOldest := by
  intro q s hr hw hc
  have hdeq := hw.dequeue_answers
  refine ⟨_, _, exec_qdeq_of_pos hr hc hdeq, rfl, ?_⟩
  rw [State.queue_respond, State.queue_setQueue]
  exact ⟨hw.live_dequeue hc hdeq, rfl, rfl, rfl, rfl⟩

/-- Settles O15: the two bound checks raise, and the block is unfaulted. -/
theorem queueBoundFaults : Obligations.QueueBoundFaults := by
  refine ⟨fun q b s hr hc => ?_, fun q s hr hc => ?_⟩
  · rw [exec_qenq_of_full hr hc, State.raise_of_unfaulted hr.unfaulted]
    rfl
  · rw [exec_of_ownFault hr ⟨Queue.isEmpty_iff.mpr hc, rfl⟩, State.raise_of_unfaulted hr.unfaulted]
    rfl

/-- No queue is both empty and full, for its capacity is not 0 (00_scope.md R7, 40_queue.md R104). -/
theorem Queue.not_isEmpty_and_isFull (Q : Queue) : ¬ (Q.isEmpty = true ∧ Q.isFull = true) := by
  rintro ⟨he, hf⟩
  exact Q.cap_pos.ne ((Queue.isEmpty_iff.mp he).symm.trans (Queue.isFull_iff.mp hf))

/-- Settles O12: both answers are the predicate's, and the capacity is not 0. -/
theorem queuePredicatesAnswer : Obligations.QueuePredicatesAnswer := by
  intro q s
  refine ⟨fun hr => ?_, fun hr => ?_, (s.queue q).not_isEmpty_and_isFull⟩
  · rw [exec_of_ran hr rfl, Queue.isEmpty_eq_decide, boolValue_decide]
    rfl
  · rw [exec_of_ran hr rfl, Queue.isFull_eq_decide, boolValue_decide]
    rfl

/-- Settles O16: the command replaces the queue by its reset, which a second reset does not change. -/
theorem qresetEmptiesOneQueue : Obligations.QresetEmptiesOneQueue := by
  intro q s hr
  have hr' : ((s.setQueue q (s.queue q).resetFields).respond 0x0000).Ready (.qreset q) :=
    hr.congr (by simp) (by simp) (by simp)
  refine ⟨_, exec_of_ran hr rfl, exec_of_ran hr' ?_, ?_⟩
  · cases q <;> rfl
  · rw [State.queue_respond, State.queue_setQueue]
    exact ⟨rfl, rfl, rfl, rfl⟩

/-! ### Several commands -/

/-- A block on which the producer and the consumer of a queue can issue: unfaulted and initialised, with the queue's
invariants. -/
structure State.Serves (s : State) (q : QueueSel) : Prop where
  unfaulted : s.faultCode = 0
  init : s.initDone = true
  sound : (s.queue q).Sound

theorem State.Serves.ready_qenq (h : s.Serves q) : (s.enter (producerPort q)).Ready (.qenq q b) :=
  ⟨h.unfaulted, permitted_qenq_iff.mpr rfl, .inl h.init⟩

theorem State.Serves.ready_qdeq (h : s.Serves q) : (s.enter (consumerPort q)).Ready (.qdeq q) :=
  ⟨h.unfaulted, permitted_qdeq_iff.mpr rfl, .inl h.init⟩

/-- The block still serves the queue after one of its operations. -/
theorem State.Serves.of_move (h : s.Serves q) (hm : QueueMove (s.queue q) (t.queue q)) (hf : t.faultCode = s.faultCode)
    (hi : t.initDone = s.initDone) : t.Serves q :=
  ⟨hf.trans h.unfaulted, hi.trans h.init, hm.wf h.sound.wf, hm.stored h.sound.stored⟩

/-- The producer's QENQ with room appends its byte. -/
theorem State.Serves.qenq (h : s.Serves q) (hc : (s.queue q).cnt < (s.queue q).cap) (b : Byte) :
    ∃ t, exec (.qenq q b) (s.enter (producerPort q)) = .next t ∧ t.Serves q ∧
      (t.queue q).live = (s.queue q).live ++ [b] ∧ (t.queue q).topSlot = (s.queue q).topSlot := by
  have henq := h.sound.wf.enqueue_answers b
  refine ⟨_, exec_qenq_of_room h.ready_qenq hc henq, h.of_move ?_ (by simp) (by simp), ?_⟩ <;>
    rw [State.queue_respond, State.queue_setQueue]
  · exact .enqueued b (Queue.isFull_of_lt hc) henq
  · exact ⟨h.sound.wf.live_enqueue h.sound.stored hc henq, rfl⟩

/-- The consumer's QDEQ takes the oldest byte. -/
theorem State.Serves.qdeq {bs : List Byte} (h : s.Serves q) (hl : (s.queue q).live = b :: bs) :
    ∃ t, exec (.qdeq q) (s.enter (consumerPort q)) = .next t ∧ t.Serves q ∧
      Response.byte? t.response = some b ∧ (t.queue q).live = bs := by
  have hc : 0 < (s.queue q).cnt := by simp [← Queue.length_live, hl]
  have hdeq := h.sound.wf.dequeue_answers
  obtain ⟨rfl, rfl⟩ := List.cons.inj (hl.symm.trans (h.sound.wf.live_dequeue hc hdeq))
  refine ⟨_, exec_qdeq_of_pos h.ready_qdeq hc hdeq, h.of_move ?_ (by simp) (by simp), byte_of_byteValue _, ?_⟩ <;>
    rw [State.queue_respond, State.queue_setQueue]
  exact .dequeued _ (Queue.isEmpty_of_pos hc) hdeq

/-- QENQs that fit append their bytes in order (40_queue.md R110). -/
theorem State.Serves.enqueueAll_appends {bs : List Byte} (h : s.Serves q)
    (hfit : (s.queue q).cnt + bs.length ≤ (s.queue q).cap) :
    ∃ t, enqueueAll q bs s = .next t ∧ t.Serves q ∧ (t.queue q).live = (s.queue q).live ++ bs ∧
      (t.queue q).topSlot = (s.queue q).topSlot := by
  induction bs generalizing s with
  | nil => exact ⟨s, rfl, h, by simp, rfl⟩
  | cons b bs ih =>
    rw [List.length_cons] at hfit
    obtain ⟨u, hu, hserves, hlive, htop⟩ := h.qenq (by omega) b
    have hcnt : (u.queue q).cnt = (s.queue q).cnt + 1 := by simpa using congrArg List.length hlive
    obtain ⟨t, ht, hserves', hlive', htop'⟩ := ih hserves (by simp only [Queue.cap, htop, hcnt] at hfit ⊢; omega)
    exact ⟨t, andThen_eq_next_iff.mpr ⟨u, hu, ht⟩, hserves', by simp [hlive', hlive], htop'.trans htop⟩

/-- As many QDEQs as there are live elements return them oldest first (40_queue.md R110). -/
theorem State.Serves.dequeueMany_live {bs : List Byte} (h : s.Serves q) (hl : (s.queue q).live = bs) :
    dequeueMany q bs.length s = some bs := by
  induction bs generalizing s with
  | nil => rfl
  | cons b bs ih =>
    obtain ⟨t, ht, hserves, hbyte, hrest⟩ := h.qdeq hl
    simp [dequeueMany, ht, hbyte, ih hserves hrest]

/-- Settles O45: the enqueues make the bytes the live elements, and the dequeues return those. -/
theorem fifoOrder : Obligations.FifoOrder := by
  intro q bs s hf hi hw hs hempty hfit
  obtain ⟨t, ht, hserves, hlive, -⟩ := State.Serves.enqueueAll_appends (bs := bs) ⟨hf, hi, hw, hs⟩ (by omega)
  exact ⟨t, ht, hserves.dequeueMany_live (by rw [hlive, Queue.live_of_cnt hempty, List.nil_append])⟩

/-- Settles O46: the live elements are the enqueued bytes, as many as there are slots. -/
theorem capacityIsReached : Obligations.CapacityIsReached := by
  intro q bs b s hf hi hw hs hempty hlen
  obtain ⟨t, ht, hserves, hlive, htop⟩ := State.Serves.enqueueAll_appends (bs := bs) ⟨hf, hi, hw, hs⟩ (by omega)
  have hcnt : (t.queue q).cnt = (t.queue q).cap := by
    simpa [hempty, hlen, Queue.cap, htop] using congrArg List.length hlive
  exact ⟨t, _, ht, Queue.isFull_iff.mpr hcnt, exec_qenq_of_full hserves.ready_qenq hcnt,
    by simp [hserves.unfaulted, FaultCause.code], by simp⟩

end Sys2Proof.Machine

/-! ## The transmission state machine's commands (41_transmit.md R130 to R138) -/

namespace Sys2Proof.Machine

/-- Settles O17: the Idle path of the command's own rule. -/
theorem submitByteIdleWritesSink : Obligations.SubmitByteIdleWritesSink := fun _ _ hr hi hn =>
  exec_of_ran hr (.inl ⟨hi, hn, rfl⟩)

/-- Settles O18: the queue is the one an enqueue under its precondition answers. -/
theorem submitByteBusyEnqueues : Obligations.SubmitByteBusyEnqueues := by
  intro b s hr hb hw hs hc
  have henq := hw.enqueue_answers b
  exact ⟨_, exec_of_ran hr (.inr (.inr ⟨hb, Queue.isFull_of_lt hc, _, henq, rfl⟩)), rfl, hw.live_enqueue hs hc henq,
    rfl, rfl, hb⟩

/-- Settles O19: Busy takes the path that holds, and Idle raises the sink's fault on an unfaulted block. -/
theorem submitByteHoldsOrOverruns : Obligations.SubmitByteHoldsOrOverruns := by
  refine fun b s hr => ⟨fun hb hc => exec_of_ran hr (.inr (.inl ⟨hb, Queue.isFull_iff.mpr hc, rfl⟩)), fun hi hn => ?_⟩
  rw [exec_of_ownFault hr ⟨hi, hn, rfl⟩, State.raise_of_unfaulted hr.unfaulted]
  rfl

/-- Settles O20: the emptiness test of TXQ chooses the path, and the queue taken from is the one a dequeue under its
precondition answers. -/
theorem onReadyForNextDrains : Obligations.OnReadyForNextDrains := by
  refine fun s hr => ⟨fun hc => exec_of_ran hr (.inl ⟨Queue.isEmpty_iff.mpr hc, rfl⟩), fun hw hc => ?_⟩
  have hdeq := hw.dequeue_answers
  exact ⟨_, _, exec_of_ran hr (.inr ⟨Queue.isEmpty_of_pos hc, _, _, hdeq, rfl⟩), rfl, hw.live_dequeue hc hdeq, rfl, rfl,
    rfl, rfl⟩

theorem stateValue_eq_ite (x : TxState) : stateValue x = if x = .busy then 0x0001 else 0x0000 := by
  cases x <;> rfl

/-- Settles O26: each command answers its register. -/
theorem stateReadsAnswer : Obligations.StateReadsAnswer := by
  refine fun s => ⟨fun hr => ?_, fun hr => exec_of_ran hr rfl⟩
  rw [exec_of_ran hr rfl, stateValue_eq_ite]
  rfl

end Sys2Proof.Machine

/-! ## Clean launch (70_reset_and_hazards.md R232) -/

namespace Sys2Proof.Machine

variable {s t : State}

theorem decode_reinit : decode 0x8000 = .cmd .reinit := decode_encode .reinit

/-- Settles O56: MAIN's first turn runs the REINIT, which leaves the transmit side empty and Idle, and nothing is
submitted yet. -/
theorem cleanLaunchEstablishesWireOrder : Obligations.CleanLaunchEstablishesWireOrder := by
  intro s ⟨hon, _, hsystem, hstart, hfirst, hturn⟩ hraw
  obtain ⟨ws, hprog⟩ := List.head?_eq_some_iff.mp hfirst
  have hcur : s.mainline.current = some 0x8000 := by simp [CommandSource.current, hprog, hstart]
  have hready : (s.passTurn.enter .main).Ready .reinit := ⟨hon.faultCode, rfl, .inr rfl⟩
  have hx := (execute_of_decode (p := .main) decode_reinit s.passTurn).trans (exec_of_ran hready rfl)
  refine ⟨_, step_of_mainline hturn (.inr hon.faultCode) hcur hx rfl, ⟨⟨rfl, ?_, hsystem⟩, .of_cnt rfl,
    fun _ => .of_quiet rfl hon.txShift hon.txReadyPending, Queue.Wf.resetFields _, ?_⟩⟩
  · simpa [State.remaining, hprog, hstart] using hraw
  · have hsub : submitted [0x8000#16] = [] :=
      submitted_of_not_submitByte fun b hb => by simpa using decode_reinit.symm.trans hb
    simp [State.presented, hprog, hstart, hsub, hon.wireOut]

end Sys2Proof.Machine

/-! ## Runs (60_exceptions.md R197) -/

namespace Sys2Proof.Machine

variable {run : Nat → State} {a : Turn}

/-- A run moves on at a turn of an enabled agent. -/
theorem IsRun.step_of_enabled (h : IsRun run) {n : Nat} (hinv : (run n).Inv)
    (he : (run n).enabled (run n).nextTurn = true) : step (run n) = .next (run (n + 1)) := by
  refine (h n).resolve_right fun ⟨hstop, _⟩ => ?_
  rcases stepStopsOnlyWhenStuck _ hinv with ⟨t, ht⟩ | ⟨hstuck, -⟩
  · exact hstop t ht
  · simp [not_stuck_of_enabled he] at hstuck

/-- What holds at the start of a run and is kept wherever the run steps holds all along it. -/
theorem IsRun.always {P : State → Prop} (h : IsRun run) (h0 : P (run 0))
    (hstep : ∀ n, P (run n) → step (run n) = .next (run (n + 1)) → P (run (n + 1))) (n : Nat) : P (run n) := by
  induction n with
  | zero => exact h0
  | succ n ih =>
    rcases h n with hn | ⟨-, hn⟩
    · exact hstep n ih hn
    · exact hn ▸ ih

/-- A number that no step makes larger grows nowhere along the run. -/
theorem IsRun.antitone {f : State → Nat} (h : IsRun run)
    (hf : ∀ n, step (run n) = .next (run (n + 1)) → f (run (n + 1)) ≤ f (run n)) : Antitone fun n => f (run n) :=
  antitone_nat_of_succ_le fun n => (h n).elim (hf n) fun ⟨_, hsame⟩ => (congrArg f hsame).le

/-- An agent enabled from some point on takes a step, by fairness to it. -/
theorem FairTo.exists_step (hfair : FairTo a run) (h : IsRun run) (hinv : ∀ n, (run n).Inv) {n : Nat}
    (he : ∀ m, n ≤ m → (run m).enabled a = true) :
    ∃ m, n ≤ m ∧ (run m).nextTurn = a ∧ step (run m) = .next (run (m + 1)) := by
  obtain ⟨m, hm, hturn⟩ := hfair n he
  exact ⟨m, hm, hturn, h.step_of_enabled (hinv m) (hturn ▸ he m hm)⟩

/-- A handler that runs takes a step. -/
theorem IsRun.step_of_handlerRuns (h : IsRun run) {n : Nat} (hinv : (run n).Inv) (hr : (run n).handlerRuns) :
    step (run n) = .next (run (n + 1)) := by
  rcases hr with ⟨hturn, he⟩ | ⟨hturn, he⟩ <;> exact h.step_of_enabled hinv (hturn ▸ he)

end Sys2Proof.Machine

/-! ## Steps of one agent -/

namespace Sys2Proof.Machine

variable {s t : State}

/-- MAIN's step completes its command (60_exceptions.md R190). -/
theorem step_mainline_advances (hturn : s.nextTurn = .mainline) (he : s.enabled .mainline = true)
    (h : step s = .next t) : t.mainline.idx = s.mainline.idx + 1 := by
  rcases step_cases h with ⟨hidle, -⟩ | ⟨-, -, w, -, u, r, -, -, rfl⟩ | ⟨hn, -⟩ | ⟨hn, -⟩ | ⟨hn, -⟩ | ⟨hn, -⟩ | ⟨hn, -⟩
  · simp [hturn, he] at hidle
  · rfl
  all_goals simp [hturn] at hn

/-- TX completion raises the ready event (60_exceptions.md R195). -/
theorem step_txComplete (hturn : s.nextTurn = .txComplete) (he : s.enabled .txComplete = true) :
    step s = .next { s.passTurn with txShift := none, txReadyPending := true } := by
  rw [step_of_enabled (hturn ▸ he), hturn]
  rfl

/-- The TX bridge handler takes a byte from a TXQ that is not empty, whether or not the sink can take it
(60_exceptions.md R187). -/
theorem step_irqTx_cnt (hturn : s.nextTurn = .irqTx) (he : s.enabled .irqTx = true) (hf : s.faultCode = 0)
    (hi : s.initDone = true) (hw : s.txq.Wf) (hc : 0 < s.txq.cnt) (h : step s = .next t) :
    t.txq.cnt < s.txq.cnt := by
  rw [step_of_enabled (hturn ▸ he), hturn] at h
  obtain ⟨u, hu, ht⟩ := irqTxStep_next h
  obtain ⟨u', v, hu', -, -, hcnt, -⟩ := (onReadyForNextDrains (s.passTurn.enter .irq) ⟨hf, rfl, .inl hi⟩).2 hw hc
  obtain rfl := Host.Outcome.next.inj (hu'.symm.trans hu)
  have hlt : u'.txq.cnt < s.txq.cnt := hcnt ▸ Nat.sub_lt hc Nat.one_pos
  rcases ht with ⟨-, rfl⟩ | ⟨b, -, ⟨-, rfl⟩ | ⟨-, rfl⟩⟩ <;> exact hlt

/-- How many receive transitions are still to come: two for each byte on the line, one for a byte that waits in the
transceiver (60_exceptions.md R188, R196). -/
def State.rxWork (s : State) : Nat := 2 * s.wireIn.length + s.rxPending.toList.length

theorem KeepsBoundary.rxWork (h : KeepsBoundary s t) : t.rxWork = s.rxWork := by
  rw [State.rxWork, State.rxWork, h.wireIn, h.rxPending]

/-- No step adds receive work, and the RX bridge handler takes some away. -/
theorem step_rxWork (h : step s = .next t) :
    t.rxWork ≤ s.rxWork ∧ (s.nextTurn = .irqRx → s.enabled .irqRx = true → t.rxWork < s.rxWork) := by
  cases step_cases h with
  | passed hidle ht =>
    subst ht
    exact ⟨le_rfl, fun hturn he => by simp [hturn, he] at hidle⟩
  | mainline hturn _ _ _ _ _ hp _ ht =>
    subst ht
    exact ⟨hp.keepsBoundary.rxWork.le, by simp [hturn]⟩
  | harness hturn _ _ _ _ _ hp _ ht =>
    subst ht
    exact ⟨hp.keepsBoundary.rxWork.le, by simp [hturn]⟩
  | irqTx hturn _ _ _ u hx ht =>
    refine ⟨?_, by simp [hturn]⟩
    have hu : u.rxWork ≤ s.rxWork := (exec_keepsBoundary hx).rxWork.le
    rcases ht with ⟨-, rfl⟩ | ⟨b, -, ⟨-, rfl⟩ | ⟨-, rfl⟩⟩ <;> exact hu
  | irqRx _ _ _ b hpend u hx ht =>
    subst ht
    have hwire : u.wireIn = s.wireIn := (exec_keepsBoundary hx).wireIn
    have hlt : (State.leave { u with rxPending := none }).rxWork < s.rxWork := by
      simp [State.rxWork, hwire, hpend]
    exact ⟨hlt.le, fun _ _ => hlt⟩
  | txComplete hturn _ _ ht =>
    subst ht
    exact ⟨le_rfl, by simp [hturn]⟩
  | rxDeliver hturn _ hfree b rest hl ht =>
    subst ht
    refine ⟨?_, by simp [hturn]⟩
    simp [State.rxWork, hfree, hl, Nat.mul_add]

end Sys2Proof.Machine

/-! ## While MAIN waits in one command (60_exceptions.md R190, R201) -/

namespace Sys2Proof.Machine

variable {s t : State} {c : CommandSource} {run : Nat → State} {w : Word} {b : Byte}

/-- An unfaulted block that meets the premises of 10_state.md R36 and R37, with interrupts enabled, whose main-line agent
stands at `c`. -/
structure State.StandsAt (c : CommandSource) (s : State) : Prop where
  inv : s.Inv
  premises : s.TxPremises
  unfaulted : s.faultCode = 0
  idleEmpty : s.IdleEmpty
  busyMatches : s.BusyMatches
  irqEnabled : s.irqEnabled = true
  mainline : s.mainline = c

theorem State.StandsAt.txqWf (h : s.StandsAt c) : s.txq.Wf := h.inv.txqWf h.premises.init

/-- A full queue holds an element, for its capacity is not 0 (00_scope.md R7). -/
theorem Queue.pos_of_isFull {q : Queue} (h : q.isFull = true) : 0 < q.cnt := Queue.isFull_iff.mp h ▸ q.cap_pos

/-- A block with a full TXQ is Busy. -/
theorem State.StandsAt.busy_of_full (h : s.StandsAt c) (hfull : s.txq.isFull = true) : s.txState = .busy := by
  cases hst : s.txState with
  | busy => rfl
  | idle => exact absurd (h.idleEmpty hst) (Queue.pos_of_isFull hfull).ne'

/-- What a step that completes no command of MAIN does on the transmit side: it records no fault, adds no byte to TXQ,
and clears the ready event only where TXQ is empty or gives up a byte. -/
structure TxWait (s t : State) : Prop where
  unfaulted : t.faultCode = 0
  cnt_le : t.txq.cnt ≤ s.txq.cnt
  pending : s.txReadyPending = true → t.txReadyPending = true ∨ s.txq.cnt = 0 ∨ t.txq.cnt < s.txq.cnt

theorem State.StandsAt.txWait (h : s.StandsAt c) (hmain : t.mainline = s.mainline) (hstep : step s = .next t) :
    TxWait s t := by
  have hidx : t.mainline.idx ≠ s.mainline.idx + 1 := by simp [hmain]
  cases step_transmit hstep h.premises.system h.premises.init h.unfaulted with
  | same hr hpend _ hf => exact ⟨hf, hr.txq ▸ le_rfl, fun hp => .inl (hpend.trans hp)⟩
  | command _ _ _ _ _ _ _ _ _ hi => exact absurd hi hidx
  | reserved _ _ _ _ _ _ _ hi => exact absurd hi hidx
  | completed _ hq _ _ hpend _ _ hf => exact ⟨hf, hq ▸ le_rfl, fun _ => .inl hpend⟩
  | drained _ he hq _ _ _ _ _ hf => exact ⟨hf, hq ▸ le_rfl, fun _ => .inr (.inl he)⟩
  | taken hev hne v hq _ _ hsink =>
    have hlt : t.txq.cnt < s.txq.cnt := by
      obtain ⟨-, -, hq'⟩ := Queue.dequeue_eq_some_iff.mp hq
      exact hq' ▸ Nat.sub_lt (Queue.pos_of_not_empty hne) Nat.one_pos
    rcases hsink with ⟨hn, -⟩ | ⟨-, -, -, -, hf⟩
    · exact absurd (h.busyMatches.free_of_pending hev) hn
    · exact ⟨hf, hlt.le, fun _ => .inr (.inr hlt)⟩

/-- Where the command MAIN stands at is no REINIT, a step that does not complete it leaves a block of the same kind. -/
theorem State.StandsAt.step (h : s.StandsAt c) (hw : c.current = some w) (hd : decode w ≠ .cmd .reinit)
    (hmain : t.mainline = s.mainline) (hstep : step s = .next t) : t.StandsAt c := by
  have hquiet : s.ReinitQuiet := fun _ v hv hre => by
    obtain rfl : v = w := Option.some.inj (hv.symm.trans (h.mainline ▸ hw))
    exact absurd (by simpa [reinitWord] using hre) hd
  exact ⟨stepKeepsInvariant s t h.inv hstep, step_txPremises h.premises hstep, (h.txWait hmain hstep).unfaulted,
    step_idleEmpty h.premises h.idleEmpty hstep,
    (busyMatchesTransmitter s t h.premises h.unfaulted h.idleEmpty h.busyMatches hquiet hstep).1,
    (step_irqEnabled hstep).trans h.irqEnabled, hmain.trans h.mainline⟩

/-- A run whose main-line command is never completed, and is no REINIT, stands at it all along. -/
theorem State.StandsAt.always (h0 : (run 0).StandsAt c) (hrun : IsRun run) (hw : c.current = some w)
    (hd : decode w ≠ .cmd .reinit) (hnever : ∀ n, (run n).mainline.idx ≠ c.idx + 1) (n : Nat) :
    (run n).StandsAt c := by
  refine hrun.always h0 (fun n hn hstep => hn.step hw hd ?_ hstep) n
  refine (step_mainline hstep).resolve_right fun ⟨_, r, hadv⟩ => hnever (n + 1) ?_
  rw [hadv, hn.mainline]

/-- MAIN has a step unless its command holds. -/
theorem State.StandsAt.enabled_mainline (h : s.StandsAt c) (hw : c.current = some w) :
    s.enabled .mainline = ! s.wouldHold w := by
  simp [State.enabled, h.unfaulted, State.mainReady_of_current (h.mainline ▸ hw)]

/-- A SUBMITBYTE that holds finds TXQ full (42_facade.md R155). -/
theorem isFull_of_wouldHold (hd : decode w = .cmd (.submitByte b)) (h : s.wouldHold w = true) : s.txq.isFull = true := by
  rcases (wouldHold_iff.mp h).reason with ⟨_, -, -, hfull⟩ | ⟨hr, -⟩
  · exact hfull
  · simp [hd] at hr

/-- The run of a command that is never completed: fair, and standing at it all along. -/
structure WaitingRun (c : CommandSource) (run : Nat → State) : Prop where
  isRun : IsRun run
  fair : WeaklyFair run
  stands : ∀ n, (run n).StandsAt c

theorem WaitingRun.txWait (h : WaitingRun c run) {n : Nat} (hstep : step (run n) = .next (run (n + 1))) :
    TxWait (run n) (run (n + 1)) :=
  (h.stands n).txWait ((h.stands (n + 1)).mainline.trans (h.stands n).mainline.symm) hstep

/-- MAIN's command holds again and again: otherwise MAIN would complete it, by fairness. -/
theorem WaitingRun.exists_wouldHold (h : WaitingRun c run) (hw : c.current = some w) (n : Nat) :
    ∃ m, n ≤ m ∧ (run m).wouldHold w = true := by
  by_contra hno
  have hen : ∀ m, n ≤ m → (run m).enabled .mainline = true := fun m hm => by
    have hnot : (run m).wouldHold w = false := by simpa using fun hh => hno ⟨m, hm, hh⟩
    simp [(h.stands m).enabled_mainline hw, hnot]
  obtain ⟨m, hm, hturn, hstep⟩ := h.fair.mainline.exists_step h.isRun (fun m => (h.stands m).inv) hen
  have hadv := step_mainline_advances hturn (hen m hm) hstep
  simp [(h.stands m).mainline, (h.stands (m + 1)).mainline] at hadv

/-- TXQ gains no byte. -/
theorem WaitingRun.cnt_antitone (h : WaitingRun c run) : Antitone fun n => (run n).txq.cnt :=
  h.isRun.antitone (f := fun s => s.txq.cnt) fun _ hstep => (h.txWait hstep).cnt_le

/-- TXQ keeps its capacity. -/
theorem WaitingRun.cap_eq (h : WaitingRun c run) (n : Nat) : (run n).txq.cap = (run 0).txq.cap :=
  h.isRun.always (P := fun s => s.txq.cap = (run 0).txq.cap) rfl
    (fun _ hn hstep => (congrArg (· + 1) (step_queue hstep .txq).topSlot).trans hn) n

/-- A SUBMITBYTE that is never completed finds TXQ full all along, for what is full later was full before. -/
theorem WaitingRun.isFull (h : WaitingRun c run) (hw : c.current = some w) (hd : decode w = .cmd (.submitByte b))
    (n : Nat) : (run n).txq.isFull = true := by
  obtain ⟨m, hm, hhold⟩ := h.exists_wouldHold hw n
  have hfull := Queue.isFull_iff.mp (isFull_of_wouldHold hd hhold)
  have hle : (run m).txq.cnt ≤ (run n).txq.cnt := h.cnt_antitone hm
  refine Queue.isFull_iff.mpr (le_antisymm (h.stands n).txqWf.cnt_le ?_)
  rw [h.cap_eq n, ← h.cap_eq m, ← hfull]
  exact hle

/-! ### TXQ does not stay full -/

/-- While TXQ stays full its count is the same all along. -/
theorem WaitingRun.cnt_eq (h : WaitingRun c run) (hfull : ∀ n, (run n).txq.isFull = true) (n m : Nat) :
    (run n).txq.cnt = (run m).txq.cnt := by
  rw [Queue.isFull_iff.mp (hfull n), Queue.isFull_iff.mp (hfull m), h.cap_eq n, h.cap_eq m]

/-- A handler that runs while TXQ stays full is the RX bridge handler, and takes receive work away. -/
theorem WaitingRun.rxWork_lt (h : WaitingRun c run) (hfull : ∀ n, (run n).txq.isFull = true) {n : Nat}
    (hr : (run n).handlerRuns) : (run (n + 1)).rxWork < (run n).rxWork := by
  have hstands := h.stands n
  have hstep := h.isRun.step_of_handlerRuns hstands.inv hr
  rcases hr with ⟨hturn, he⟩ | ⟨hturn, he⟩
  · have hlt := step_irqTx_cnt hturn he hstands.unfaulted hstands.premises.init hstands.txqWf
      (Queue.pos_of_isFull (hfull n)) hstep
    exact absurd (h.cnt_eq hfull (n + 1) n) hlt.ne
  · exact (step_rxWork hstep).2 hturn he

/-- While TXQ stays full no handler is left to run from some point on, for the receive work is finite. -/
theorem WaitingRun.exists_no_handler (h : WaitingRun c run) (hfull : ∀ n, (run n).txq.isFull = true) :
    ∃ n, ∀ m, n ≤ m → ¬ (run m).handlerRuns := by
  have hanti : Antitone fun n => (run n).rxWork := h.isRun.antitone fun _ hstep => (step_rxWork hstep).1
  refine ⟨Function.argmin fun n => (run n).rxWork, fun m hm hr => ?_⟩
  have hmin : _ ≤ (run (m + 1)).rxWork := Function.argmin_le (fun n => (run n).rxWork) (m + 1)
  exact (h.rxWork_lt hfull hr).not_ge ((hanti hm).trans hmin)

/-- While TXQ stays full a pending ready event stays pending. -/
theorem WaitingRun.pending_mono (h : WaitingRun c run) (hfull : ∀ n, (run n).txq.isFull = true) {n m : Nat}
    (hnm : n ≤ m) (hp : (run n).txReadyPending = true) : (run m).txReadyPending = true := by
  induction m, hnm using Nat.le_induction with
  | base => exact hp
  | succ m _ ih =>
    rcases h.isRun m with hstep | ⟨-, hsame⟩
    · rcases (h.txWait hstep).pending ih with hk | hempty | hlt
      · exact hk
      · exact absurd hempty (Queue.pos_of_isFull (hfull m)).ne'
      · exact absurd (h.cnt_eq hfull (m + 1) m) hlt.ne
    · exact hsame ▸ ih

/-- While TXQ stays full no ready event is pending: the handler it enables would run, by fairness. -/
theorem WaitingRun.not_pending (h : WaitingRun c run) (hfull : ∀ n, (run n).txq.isFull = true) (n : Nat) :
    (run n).txReadyPending = false := by
  by_contra hp
  rw [Bool.not_eq_false] at hp
  obtain ⟨k, hk⟩ := h.exists_no_handler hfull
  have hen : ∀ m, max n k ≤ m → (run m).handlerEnabled = true := fun m hm => by
    have hpend := h.pending_mono hfull ((le_max_left n k).trans hm) hp
    simp [State.handlerEnabled, State.enabled, (h.stands m).premises.system, (h.stands m).irqEnabled, hpend]
  obtain ⟨m, hm, hr⟩ := h.fair.interrupts _ hen
  exact hk m ((le_max_right n k).trans hm) hr

/-- TXQ does not stay full: the transmitter is Busy, so its byte completes, by fairness, and raises the ready event. -/
theorem WaitingRun.not_always_full (h : WaitingRun c run) : ¬ ∀ n, (run n).txq.isFull = true := by
  intro hfull
  have hen : ∀ m, 0 ≤ m → (run m).enabled .txComplete = true := fun m _ => by
    have hout := ((h.stands m).busyMatches.busy.mp ((h.stands m).busy_of_full (hfull m))).resolve_right
      (by simp [h.not_pending hfull m])
    simp [State.enabled, (h.stands m).premises.system, Option.isSome_iff_ne_none.mpr hout]
  obtain ⟨m, hm, hturn, hstep⟩ := h.fair.txComplete.exists_step h.isRun (fun m => (h.stands m).inv) hen
  have hnext := Host.Outcome.next.inj (hstep.symm.trans (step_txComplete hturn (hen m hm)))
  have hnot := h.not_pending hfull (m + 1)
  simp [hnext] at hnot

/-- Settles O59: a run that never completes the SUBMITBYTE would keep TXQ full. -/
theorem heldSubmitEventuallyCompletes : Obligations.HeldSubmitEventuallyCompletes := by
  intro run w b hrun hfair hinv hp hf hidle hbusy hirq hw hd
  by_contra hnever
  have hstands : (run 0).StandsAt (run 0).mainline := ⟨hinv, hp, hf, hidle, hbusy, hirq, rfl⟩
  have hwait : WaitingRun (run 0).mainline run :=
    ⟨hrun, hfair, hstands.always hrun hw (by simp [hd]) (not_exists.mp hnever)⟩
  exact hwait.not_always_full (hwait.isFull hw hd)

end Sys2Proof.Machine

/-! ## The driver facade's commands (42_facade.md R150 to R157) -/

namespace Sys2Proof.Machine

variable {s t : State} {i : Instr} {b v : Byte} {Q Q' : Queue}

/-- A reset queue is not full, for its capacity is not 0 (00_scope.md R7). -/
theorem Queue.resetFields_cnt_ne_cap (Q : Queue) : Q.resetFields.cnt ≠ Q.resetFields.cap := Q.resetFields.cap_pos.ne

/-- RETRIEVEBYTE on an empty RXQ holds. -/
theorem exec_retrieveByte_of_empty (hr : s.Ready .retrieveByte) (hc : s.rxq.cnt = 0) :
    exec .retrieveByte s = .next s.hold :=
  exec_of_ran hr (.inl ⟨Queue.isEmpty_iff.mpr hc, rfl⟩)

/-- RETRIEVEBYTE with a received byte answers the byte taken. -/
theorem exec_retrieveByte_of_pos (hr : s.Ready .retrieveByte) (hc : 0 < s.rxq.cnt)
    (hQ : s.rxq.dequeue = some (v, Q)) :
    exec .retrieveByte s = .next (State.respond (byteValue v) { s with rxq := Q }) :=
  exec_of_ran hr (.inr ⟨Queue.isEmpty_of_pos hc, v, Q, hQ, rfl⟩)

/-- Settles O23: the emptiness test of RXQ chooses the path, and the queue taken from is the one a dequeue under its
precondition answers. -/
theorem retrieveByteAnswersOrHolds : Obligations.RetrieveByteAnswersOrHolds := by
  refine fun s hr => ⟨exec_retrieveByte_of_empty hr, fun hw hc => ?_⟩
  have hdeq := hw.dequeue_answers
  exact ⟨_, _, exec_retrieveByte_of_pos hr hc hdeq, rfl, hw.live_dequeue hc hdeq, rfl, rfl⟩

/-- Settles O22: REINIT leaves both queues empty, the state Idle and the overflow counter 0, and every read is ready. -/
theorem readsAfterReinit : Obligations.ReadsAfterReinit := by
  intro s hr
  refine ⟨_, exec_of_ran hr rfl, fun q => ?_, ?_, ?_⟩
  · exact ⟨_, exec_of_ran ⟨hr.unfaulted, by simp [permitted], .inl rfl⟩ rfl, by cases q <;> rfl⟩
  · exact ⟨_, exec_of_ran ⟨hr.unfaulted, by simp [permitted], .inl rfl⟩ rfl, rfl⟩
  · obtain ⟨v, hv, h0, h1, h2, h3, h4, h5, h6, -⟩ := statusViewFields (State.respond 0x0000
      { s with rxq := s.rxq.resetFields, txq := s.txq.resetFields, txState := .idle, rxOvfCnt := 0, initDone := true })
    exact ⟨_, v, hv, rfl, h0, h2, h5, h1.trans (decide_eq_false s.rxq.resetFields_cnt_ne_cap),
      h3.trans (decide_eq_false s.txq.resetFields_cnt_ne_cap), h4, h6⟩

/-- ONBYTERECEIVED with room answers the enqueued queue. -/
theorem exec_onByteReceived_of_room (hr : s.Ready (.onByteReceived b)) (hc : s.rxq.cnt < s.rxq.cap)
    (hQ : s.rxq.enqueue b = some Q) :
    exec (.onByteReceived b) s = .next (State.respond 0x0000 { s with rxq := Q }) :=
  exec_of_ran hr (.inr ⟨Queue.isFull_of_lt hc, Q, hQ, rfl⟩)

/-- The first byte put into an empty queue is the one the next dequeue takes. -/
theorem Queue.Sound.dequeue_enqueue (h : Q.Sound) (hc : Q.cnt = 0) (he : Q.enqueue b = some Q') :
    ∃ Q'', Q'.dequeue = some (b, Q'') ∧ 0 < Q'.cnt ∧ Q''.cnt = 0 := by
  have hroom : Q.cnt < Q.cap := hc ▸ Q.cap_pos
  have hlive : Q'.live = [b] := by rw [h.wf.live_enqueue h.stored hroom he, Queue.live_of_cnt hc, List.nil_append]
  have hcnt : Q'.cnt = 1 := by simpa using congrArg List.length hlive
  have hdeq := (h.wf.enqueue hroom he).dequeue_answers
  obtain ⟨rfl, -⟩ := List.cons.inj (hlive.symm.trans ((h.wf.enqueue hroom he).live_dequeue (by omega) hdeq))
  exact ⟨_, hdeq, by omega, by simp [hcnt]⟩

/-- On an unfaulted, initialised block that holds no received byte, the byte ONBYTERECEIVED puts into RXQ is the one the
next RETRIEVEBYTE returns. -/
theorem State.Serves.receive_retrieve (h : s.Serves .rxq) (hc : s.rxq.cnt = 0) (b : Byte) :
    ∃ t u, exec (.onByteReceived b) (s.enter .irq) = .next t ∧ t.response = some ⟨false, 0x0000⟩ ∧
      exec .retrieveByte (t.enter .main) = .next u ∧ u.response = some ⟨false, byteValue b⟩ ∧ u.rxq.cnt = 0 := by
  have henq := h.sound.wf.enqueue_answers b
  obtain ⟨Q, hdeq, hpos, hcnt'⟩ := h.sound.dequeue_enqueue hc henq
  exact ⟨_, _, exec_onByteReceived_of_room ⟨h.unfaulted, rfl, .inl h.init⟩ (hc ▸ s.rxq.cap_pos) henq, rfl,
    exec_retrieveByte_of_pos ⟨h.unfaulted, rfl, .inl h.init⟩ hpos hdeq, rfl, hcnt'⟩

/-- Settles O25: the hold writes nothing, so the block serves RXQ with it and without it. -/
theorem receiveRoundTrip : Obligations.ReceiveRoundTrip := by
  intro b s hf hi hw hs hc
  refine ⟨_, exec_retrieveByte_of_empty ⟨hf, rfl, .inl hi⟩ hc, rfl, ?_⟩
  rintro v (rfl | rfl)
  · exact State.Serves.receive_retrieve ⟨hf, hi, hw, hs⟩ hc b
  · exact State.Serves.receive_retrieve (s := (s.enter .main).hold) ⟨hf, hi, hw, hs⟩ hc b

/-- Settles O35: a command answers no response only where it holds, the paths that hold answer none, and the commands
that hold are MAIN's. -/
theorem onlyBlockingCommandsHold : Obligations.OnlyBlockingCommandsHold := by
  intro i s t h
  refine ⟨⟨fun hn => ?_, fun ⟨hr, hwhy⟩ => ?_⟩, fun hirq hn => ?_⟩
  · simpa only [Queue.isFull_iff, Queue.isEmpty_iff] using exec_no_response h hn
  · have hx : exec i s = .next s.hold := by
      rcases hwhy with ⟨b, rfl, hb, hc⟩ | ⟨rfl, hc⟩
      · exact (submitByteHoldsOrOverruns b s hr).1 hb hc
      · exact exec_retrieveByte_of_empty hr hc
    obtain rfl := Host.Outcome.next.inj (h.symm.trans hx)
    rfl
  · obtain ⟨hr, ⟨b, rfl, -⟩ | ⟨rfl, -⟩⟩ := exec_no_response h hn <;> simpa [hirq, permitted] using hr.port

end Sys2Proof.Machine

/-! ## A held RETRIEVEBYTE (60_exceptions.md R190, R201) -/

namespace Sys2Proof.Machine

variable {s t : State} {i : Instr} {c : CommandSource} {run : Nat → State} {w : Word}

/-- A RETRIEVEBYTE of an unfaulted, initialised block holds exactly while RXQ is empty. -/
theorem State.StandsAt.wouldHold_retrieveByte (h : s.StandsAt c) (hd : decode w = .cmd .retrieveByte) :
    s.wouldHold w = true ↔ s.rxq.cnt = 0 := by
  rw [wouldHold_iff]
  refine ⟨fun hh => ?_, fun hc => ⟨h.unfaulted, h.premises.init, .inr ⟨hd, Queue.isEmpty_iff.mpr hc⟩⟩⟩
  rcases hh.reason with ⟨b, hb, -⟩ | ⟨-, he⟩
  · simp [hd] at hb
  · exact Queue.isEmpty_iff.mp he

/-- While MAIN has no step its agent stays where it is. -/
theorem State.StandsAt.mainline_kept (h : s.StandsAt c) (he : s.enabled .mainline = false)
    (hstep : Machine.step s = .next t) : t.mainline = s.mainline := by
  by_cases hturn : s.nextTurn = .mainline
  · obtain ⟨-, ⟨-, rfl⟩ | ⟨hen, -⟩⟩ := step_next hstep
    · rfl
    · simp [hturn, he] at hen
  · cases step_transmit hstep h.premises.system h.premises.init h.unfaulted with
    | same _ _ hm => exact hm
    | command hn => exact absurd hn hturn
    | reserved hn => exact absurd hn hturn
    | completed _ _ _ _ _ _ hm => exact hm
    | drained _ _ _ _ _ _ _ hm => exact hm
    | taken _ _ _ _ _ hm => exact hm

/-- A run in which RXQ stays empty never completes the RETRIEVEBYTE it stands at. -/
theorem State.StandsAt.always_of_empty (h0 : (run 0).StandsAt c) (hrun : IsRun run) (hw : c.current = some w)
    (hd : decode w = .cmd .retrieveByte) (hempty : ∀ n, (run n).rxq.cnt = 0) (n : Nat) : (run n).StandsAt c := by
  refine hrun.always h0 (fun n hn hstep => hn.step hw (by simp [hd]) (hn.mainline_kept ?_ hstep) hstep) n
  simp [hn.enabled_mainline hw, (hn.wouldHold_retrieveByte hd).mpr (hempty n)]

/-- A command on P_IRQ takes no byte from RXQ, for its consumer is P_MAIN (10_state.md R24). -/
theorem rxq_cnt_le_of_exec_irq (h : exec i (s.enter .irq) = .next t) (hi : ¬ Discards .rxq i) :
    s.rxq.cnt ≤ t.rxq.cnt :=
  ((exec_sided h .rxq).resolve_right fun hd => hi hd.1).le_cnt (by simp [consumerPort])

/-- A step that completes no command of MAIN takes no byte from RXQ. -/
theorem State.StandsAt.rxq_cnt_le (h : s.StandsAt c) (hmain : t.mainline = s.mainline)
    (hstep : Machine.step s = .next t) : s.rxq.cnt ≤ t.rxq.cnt := by
  cases step_cases hstep with
  | passed _ ht => exact ht ▸ le_rfl
  | mainline _ _ _ _ _ _ _ _ ht =>
    have hidx := congrArg CommandSource.idx hmain
    simp [ht] at hidx
  | harness _ hcomp => simp [h.premises.system] at hcomp
  | irqTx _ _ _ _ u hx ht =>
    have hle : s.rxq.cnt ≤ u.rxq.cnt := rxq_cnt_le_of_exec_irq (s := s.passTurn) hx (by simp [Discards])
    rcases ht with ⟨-, rfl⟩ | ⟨b, -, ⟨-, rfl⟩ | ⟨-, rfl⟩⟩ <;> exact hle
  | irqRx _ _ _ _ _ u hx ht =>
    have hle : s.rxq.cnt ≤ u.rxq.cnt := rxq_cnt_le_of_exec_irq (s := s.passTurn) hx (by simp [Discards])
    exact ht ▸ hle
  | txComplete _ _ _ ht => exact ht ▸ le_rfl
  | rxDeliver _ _ _ _ _ _ ht => exact ht ▸ le_rfl

/-- While MAIN waits RXQ loses no byte. -/
theorem WaitingRun.rxq_cnt_monotone (h : WaitingRun c run) : Monotone fun n => (run n).rxq.cnt :=
  monotone_nat_of_le_succ fun n => by
    rcases h.isRun n with hstep | ⟨-, hsame⟩
    · exact (h.stands n).rxq_cnt_le ((h.stands (n + 1)).mainline.trans (h.stands n).mainline.symm) hstep
    · rw [hsame]

/-- A RETRIEVEBYTE that is never completed finds RXQ empty all along: an accepted byte would stay, and end the hold. -/
theorem WaitingRun.rxq_empty (h : WaitingRun c run) (hw : c.current = some w) (hd : decode w = .cmd .retrieveByte)
    (n : Nat) : (run n).rxq.cnt = 0 := by
  obtain ⟨m, hm, hhold⟩ := h.exists_wouldHold hw n
  have hempty := ((h.stands m).wouldHold_retrieveByte hd).mp hhold
  exact Nat.le_zero.mp (hempty ▸ h.rxq_cnt_monotone hm)

/-- Settles O60: while RXQ stays empty the RETRIEVEBYTE holds, and while it is never completed RXQ stays empty. -/
theorem heldRetrieveCompletesIffByteAccepted : Obligations.HeldRetrieveCompletesIffByteAccepted := by
  intro run w hrun hfair hinv hp hf hidle hbusy hirq hw hd _
  have hstands : (run 0).StandsAt (run 0).mainline := ⟨hinv, hp, hf, hidle, hbusy, hirq, rfl⟩
  constructor
  · rintro ⟨n, hn⟩
    by_contra hnone
    have hempty : ∀ n, (run n).rxq.cnt = 0 := by simpa using hnone
    simp [(hstands.always_of_empty hrun hw hd hempty n).mainline] at hn
  · rintro ⟨n, hn⟩
    by_contra hnever
    have hwait : WaitingRun (run 0).mainline run :=
      ⟨hrun, hfair, hstands.always hrun hw (by simp [hd]) (not_exists.mp hnever)⟩
    exact hn.ne' (hwait.rxq_empty hw hd n)

end Sys2Proof.Machine

/-! ## Which faults a command raises (60_exceptions.md R180, R181, R183, R193) -/

namespace Sys2Proof.Machine

variable {s t : State} {i : Instr} {c : FaultCause}

/-- The causes for which a command raises a fault on an unfaulted block, in the order of its checks
(30_encoding.md R84). -/
inductive Raises (i : Instr) (s : State) : FaultCause → Prop where
  | context (port : permitted s.context i = false) : Raises i s .context
  | notInit (port : permitted s.context i = true) (init : s.initDone = false) (exempt : initExempt i = false) :
      Raises i s .notInit
  | own {c : FaultCause} (ready : s.Ready i) (cause : OwnFault i s c) : Raises i s c

/-- A command with a cause raises it. -/
theorem exec_of_raises (hf : s.faultCode = 0) (h : Raises i s c) : exec i s = .next (s.raise c (encode i)) := by
  cases h with
  | context hp => exact exec_of_not_permitted hf hp
  | notInit hp hn he => exact exec_of_not_init hf hp hn he
  | own hr hc => exact exec_of_ownFault hr hc

/-- A command that changes the fault code does so by a raise, and has a cause for it. -/
theorem exec_raised (h : exec i s = .next t) (hne : t.faultCode ≠ s.faultCode) :
    s.faultCode = 0 ∧ ∃ c, Raises i s c ∧ t = s.raise c (encode i) := by
  cases exec_next h with
  | refused _ _ ht => exact absurd (ht ▸ rfl) hne
  | context hf hp ht => exact ⟨hf, _, .context hp, ht⟩
  | notInit hf hp hn he ht => exact ⟨hf, _, .notInit hp hn he, ht⟩
  | own hr c hc ht => exact ⟨hr.unfaulted, c, .own hr hc, ht⟩
  | ran _ hran => exact absurd (ran_faultCode hran) hne

/-- Settles O10: the command raises, and the raise is the first. -/
theorem faultingCommandWritesOnlyTheFault : Obligations.FaultingCommandWritesOnlyTheFault := by
  intro i s t h hne
  obtain ⟨hf, c, -, rfl⟩ := exec_raised h hne
  exact ⟨hf, c, State.raise_of_unfaulted hf c (encode i)⟩

/-! ### The table of 60_exceptions.md R183 -/

theorem FaultCause.code_ne_zero (c : FaultCause) : c.code ≠ 0 := by cases c <;> decide

theorem FaultCause.code_injective : Function.Injective FaultCause.code := by
  rintro ⟨⟩ ⟨⟩ h <;> simp_all [FaultCause.code]

/-- There are two ports (30_encoding.md R78). -/
theorem exists_port_iff {P : Port → Prop} : (∃ p, P p) ↔ P .main ∨ P .irq := by
  constructor
  · rintro ⟨p, hp⟩
    cases p
    exacts [.inl hp, .inr hp]
  · rintro (hp | hp) <;> exact ⟨_, hp⟩

/-- The table lists F_CONTEXT for the commands that some port does not permit. -/
theorem context_mem_canRaise_iff : .context ∈ canRaise i ↔ ∃ p, permitted p i = false := by
  rw [exists_port_iff]
  cases i with
  | qenq q b => cases q <;> simp [canRaise, permitted]
  | qdeq q => cases q <;> simp [canRaise, permitted]
  | _ => simp [canRaise, permitted]

/-- The table lists F_NOT_INIT for the commands that are not exempt from it. -/
theorem notInit_mem_canRaise_iff : .notInit ∈ canRaise i ↔ initExempt i = false := by
  cases i <;> simp [canRaise, initExempt]

/-- The table lists the fault of each command's own rule. -/
theorem OwnFault.mem_canRaise (h : OwnFault i s c) : c ∈ canRaise i := by
  cases i with
  | qenq q b =>
    obtain ⟨-, rfl⟩ := h
    simp [canRaise]
  | qdeq q =>
    obtain ⟨-, rfl⟩ := h
    simp [canRaise]
  | submitByte b =>
    obtain ⟨-, -, rfl⟩ := h
    simp [canRaise]
  | _ => exact h.elim

theorem Raises.mem_canRaise (h : Raises i s c) : c ∈ canRaise i := by
  cases h with
  | context hp => exact context_mem_canRaise_iff.mpr ⟨_, hp⟩
  | notInit _ _ he => exact notInit_mem_canRaise_iff.mpr he
  | own _ hc => exact hc.mem_canRaise

/-- Every command is permitted on some port (30_encoding.md R79). -/
theorem exists_permitted (i : Instr) : ∃ p, permitted p i = true := by
  cases i with
  | qenq q b => exact ⟨_, permitted_qenq_iff.mpr rfl⟩
  | qdeq q => exact ⟨_, permitted_qdeq_iff.mpr rfl⟩
  | onReadyForNext => exact ⟨.irq, rfl⟩
  | onByteReceived b => exact ⟨.irq, rfl⟩
  | _ => exact ⟨.main, rfl⟩

/-- An initialised, unfaulted block with capacity 1 for both queues, each holding `n` bytes, and with a byte outstanding,
before a command on port `p`. -/
def crowded (n : Nat) (p : Port) : State :=
  { State.powerOn 0 0 with
    initDone := true, txShift := some 0, context := p
    rxq := { Queue.powerOn 0 with cnt := n }, txq := { Queue.powerOn 0 with cnt := n } }

/-- Every fault the table lists beside the prologue's is raised by the command's own rule on some block. -/
theorem exists_ownFault (h : c ∈ canRaise i) (hcon : c ≠ .context) (hini : c ≠ .notInit) :
    ∃ s : State, s.Ready i ∧ OwnFault i s c := by
  cases i with
  | qenq q b =>
    obtain rfl : c = .queueFull := by simpa [canRaise, hcon, hini] using h
    exact ⟨crowded 1 (producerPort q), ⟨rfl, permitted_qenq_iff.mpr rfl, .inl rfl⟩, by cases q <;> rfl, rfl⟩
  | qdeq q =>
    obtain rfl : c = .queueEmpty := by simpa [canRaise, hcon, hini] using h
    exact ⟨crowded 0 (consumerPort q), ⟨rfl, permitted_qdeq_iff.mpr rfl, .inl rfl⟩, by cases q <;> rfl, rfl⟩
  | submitByte b =>
    obtain rfl : c = .sinkOverrun := by simpa [canRaise, hcon, hini] using h
    exact ⟨crowded 0 .main, ⟨rfl, rfl, .inl rfl⟩, rfl, by simp [crowded], rfl⟩
  | _ => simp [canRaise, hcon, hini] at h

/-- Every fault the table lists has a block on which the command raises it. -/
theorem exists_raises (h : c ∈ canRaise i) : ∃ s : State, s.faultCode = 0 ∧ Raises i s c := by
  by_cases hcon : c = .context
  · subst hcon
    obtain ⟨p, hp⟩ := context_mem_canRaise_iff.mp h
    exact ⟨(State.powerOn 0 0).enter p, rfl, .context hp⟩
  by_cases hini : c = .notInit
  · subst hini
    obtain ⟨p, hp⟩ := exists_permitted i
    exact ⟨(State.powerOn 0 0).enter p, rfl, .notInit hp rfl (notInit_mem_canRaise_iff.mp h)⟩
  obtain ⟨s, hr, hc⟩ := exists_ownFault h hcon hini
  exact ⟨s, hr.unfaulted, .own hr hc⟩

/-- Settles O11: a raise has a cause, whose fault the table lists, and every fault listed has a cause on some block. -/
theorem faultsEachCommandCanRaise : Obligations.FaultsEachCommandCanRaise := by
  intro i c
  constructor
  · rintro ⟨s, t, hf, h, ht⟩
    obtain ⟨-, d, hd, rfl⟩ := exec_raised h (by rw [ht, hf]; exact c.code_ne_zero)
    rw [State.raise_of_unfaulted hf] at ht
    exact FaultCause.code_injective ht ▸ hd.mem_canRaise
  · intro h
    obtain ⟨s, hf, hc⟩ := exists_raises h
    exact ⟨s, _, hf, exec_of_raises hf hc, by rw [State.raise_of_unfaulted hf]⟩

end Sys2Proof.Machine

/-! ## A run that has ended well (60_exceptions.md R198) -/

namespace Sys2Proof.Machine

variable {s : State}

/-- What an ended run leaves no agent to do. -/
theorem State.endsWell_iff : s.endsWell = true ↔ s.mainline.idx = s.mainline.prog.length ∧ s.faultCode = 0 ∧
    s.txShift = none ∧ s.txReadyPending = false ∧ s.rxPending = none ∧ s.wireIn = [] := by
  simp [State.endsWell, and_assoc]

/-- A source past its last command presents nothing. -/
theorem CommandSource.current_of_ended {c : CommandSource} (h : c.idx = c.prog.length) : c.current = none := by
  simp [CommandSource.current, h]

theorem enabled_of_endsWell (hsys : s.config = .system) (h : s.endsWell = true) (turn : Turn) :
    s.enabled turn = false := by
  obtain ⟨hidx, -, hshift, hready, hpend, hline⟩ := State.endsWell_iff.mp h
  cases turn with
  | mainline => simp [State.enabled, State.mainReady, CommandSource.current_of_ended hidx]
  | irqTx => simp [State.enabled, hready]
  | irqRx => simp [State.enabled, hpend]
  | txComplete => simp [State.enabled, hshift]
  | rxDeliver => simp [State.enabled, hline]
  | irqHarness => simp [State.enabled, hsys]

/-- Settles O42: no agent has anything to do, and a run that has ended well is not stuck. -/
theorem endedRunIsQuiescent : Obligations.EndedRunIsQuiescent := fun _ hsys h =>
  ⟨enabled_of_endsWell hsys h, step_of_not_enabled (enabled_of_endsWell hsys h _) (by simp [State.stuck, h])⟩

end Sys2Proof.Machine

/-! ## The bridge handlers (60_exceptions.md R187, R188) -/

namespace Sys2Proof.Machine

variable {s u : State} {i : Instr} {b v : Byte} {Q : Queue}

/-- ONREADYFORNEXT with a waiting byte answers the byte taken. -/
theorem exec_onReadyForNext_of_pos (hr : s.Ready .onReadyForNext) (hc : 0 < s.txq.cnt)
    (hQ : s.txq.dequeue = some (v, Q)) :
    exec .onReadyForNext s = .next (State.respond (byteValue v) { s with txq := Q, txState := .busy }) :=
  exec_of_ran hr (.inr ⟨Queue.isEmpty_of_pos hc, v, Q, hQ, rfl⟩)

/-- A command permitted on P_IRQ before the first REINIT records F_NOT_INIT there (70_reset_and_hazards.md R242). -/
theorem exec_irq_of_not_init (hf : s.faultCode = 0) (hi : s.initDone = false) (hp : permitted .irq i = true)
    (he : initExempt i = false) : exec i (s.enter .irq) = .next { s.enter .irq with
      faultCode := 3, faultPort := .irq, faultWord := encode i, response := some ⟨true, 0⟩ } := by
  rw [exec_of_not_init (s := s.enter .irq) hf hp hi he, State.raise_of_unfaulted (s := s.enter .irq) hf]
  rfl

/-- The TX bridge handler whose command returns no byte clears the event. -/
theorem irqTxStep_of_no_byte (hx : exec .onReadyForNext (s.enter .irq) = .next u)
    (hb : Response.byte? u.response = none) : irqTxStep s = .next (State.leave { u with txReadyPending := false }) := by
  simp [irqTxStep, execute_readyWord, hx, Result.andThen, hb]

/-- The TX bridge handler hands the byte returned to a free sink and clears the event. -/
theorem irqTxStep_of_free (hx : exec .onReadyForNext (s.enter .irq) = .next u)
    (hb : Response.byte? u.response = some b) (hn : u.txShift = none) : irqTxStep s = .next (State.leave
      { u with txShift := some b, wireOut := u.wireOut ++ [b], txReadyPending := false }) := by
  simp [irqTxStep, execute_readyWord, hx, Result.andThen, hb, State.sinkWrite, hn]

/-- The TX bridge handler ends at the raise where the sink cannot take the byte returned, with the event still pending
(60_exceptions.md R181). -/
theorem irqTxStep_of_outstanding (hx : exec .onReadyForNext (s.enter .irq) = .next u)
    (hb : Response.byte? u.response = some b) (hn : u.txShift ≠ none) (hf : u.faultCode = 0) :
    irqTxStep s = .next (State.leave { u with
      faultCode := 6, faultPort := u.context, faultWord := 0x7000, response := some ⟨true, 0⟩ }) := by
  simp only [irqTxStep, execute_readyWord, hx, Result.andThen, hb, State.sinkWrite_eq_none_iff.mpr hn,
    State.raise_of_unfaulted hf]
  rfl

/-- Settles O49, by what ONREADYFORNEXT on P_IRQ answers and, where it returns a byte, by whether the sink is free. -/
theorem txBridgeHandler : Obligations.TxBridgeHandler := by
  intro s
  refine ⟨fun hf hi hc => ?_, fun hf hi hw hc hn => ?_, fun hf hi hw hc hn => ?_, fun hf hi => ?_, fun hf => ?_⟩
  · exact irqTxStep_of_no_byte ((onReadyForNextDrains (s.enter .irq) ⟨hf, rfl, .inl hi⟩).1 hc) byte_of_zero
  · have hdeq := hw.dequeue_answers
    have hx := exec_onReadyForNext_of_pos (s := s.enter .irq) ⟨hf, rfl, .inl hi⟩ hc hdeq
    exact ⟨_, _, irqTxStep_of_free hx (byte_of_byteValue _) hn, hw.live_dequeue hc hdeq, rfl, rfl, rfl, rfl, hf, rfl⟩
  · have hdeq := hw.dequeue_answers
    have hx := exec_onReadyForNext_of_pos (s := s.enter .irq) ⟨hf, rfl, .inl hi⟩ hc hdeq
    exact ⟨_, _, irqTxStep_of_outstanding hx (byte_of_byteValue _) hn hf, hw.live_dequeue hc hdeq, rfl, rfl, rfl, rfl,
      rfl, rfl, rfl⟩
  · exact irqTxStep_of_no_byte (exec_irq_of_not_init hf hi rfl rfl) rfl
  · exact irqTxStep_of_no_byte (exec_of_faulted (s := s.enter .irq) hf (by simp)) rfl

/-- The RX bridge handler presents the pending byte and clears the event, whatever the command answers. -/
theorem irqRxStep_of_exec (hp : s.rxPending = some b) (hx : exec (.onByteReceived b) (s.enter .irq) = .next u) :
    irqRxStep s = .next (State.leave { u with rxPending := none }) := by
  simp [irqRxStep, hp, execute_receivedWord, hx, Result.andThen]

/-- The one word of ONBYTERECEIVED b is the RX bridge handler's. -/
theorem encode_onByteReceived (b : Byte) : encode (.onByteReceived b) = receivedWord b :=
  encode_of_decode (decode_receivedWord b)

/-- Settles O50, by what ONBYTERECEIVED on P_IRQ answers. -/
theorem rxBridgeHandler : Obligations.RxBridgeHandler := by
  intro s b hp
  refine ⟨fun hf hi hw hs hc => ?_, fun hf hi hc => ?_, fun hf hi => ?_, fun hf => ?_⟩
  · have henq := hw.enqueue_answers b
    have hx := exec_onByteReceived_of_room (s := s.enter .irq) ⟨hf, rfl, .inl hi⟩ hc henq
    exact ⟨_, irqRxStep_of_exec hp hx, hw.live_enqueue hs hc henq, rfl, hf, rfl⟩
  · obtain ⟨n, hn, hx⟩ := (onByteReceivedAcceptsOrDrops b (s.enter .irq) ⟨hf, rfl, .inl hi⟩).2 hc
    exact ⟨_, irqRxStep_of_exec hp hx, rfl, hn, rfl, hf, rfl⟩
  · have hx := exec_irq_of_not_init (i := .onByteReceived b) hf hi rfl rfl
    rw [encode_onByteReceived] at hx
    exact irqRxStep_of_exec hp hx
  · exact irqRxStep_of_exec hp (exec_of_faulted (s := s.enter .irq) hf (by simp))

end Sys2Proof.Machine

/-! ## The transceiver's events (60_exceptions.md R185, R195, R196) -/

namespace Sys2Proof.Machine

variable {s t : State}

/-- What a step does to the ready event: nothing, a completion raises it, or the TX bridge handler clears it. -/
theorem step_txReadyPending (h : step s = .next t) : t.txReadyPending = s.txReadyPending ∨
    (s.nextTurn = .txComplete ∧ s.txShift ≠ none ∧ t.txReadyPending = true) ∨
    (s.nextTurn = .irqTx ∧ s.irqEnabled = true ∧ t.txReadyPending = false) := by
  cases step_cases h with
  | passed _ ht => exact .inl (ht ▸ rfl)
  | mainline _ _ _ _ _ _ hp _ ht => exact .inl (ht ▸ hp.keepsBoundary.txReadyPending)
  | harness _ _ _ _ _ _ hp _ ht => exact .inl (ht ▸ hp.keepsBoundary.txReadyPending)
  | irqTx hturn _ hirq _ u hx ht =>
    rcases ht with ⟨-, rfl⟩ | ⟨b, -, ⟨-, rfl⟩ | ⟨-, rfl⟩⟩
    · exact .inr (.inr ⟨hturn, hirq, rfl⟩)
    · exact .inl (exec_keepsBoundary hx).txReadyPending
    · exact .inr (.inr ⟨hturn, hirq, rfl⟩)
  | irqRx _ _ _ _ _ _ hx ht => exact .inl (ht ▸ (exec_keepsBoundary hx).txReadyPending)
  | txComplete hturn _ hout ht => exact .inr (.inl ⟨hturn, hout, ht ▸ rfl⟩)
  | rxDeliver _ _ _ _ _ _ ht => exact .inl (ht ▸ rfl)

/-- What a step does to the pending byte: nothing, a delivery sets it to the line's next byte while none is pending, or
the RX bridge handler takes it. -/
theorem step_rxPending (h : step s = .next t) : t.rxPending = s.rxPending ∨
    (s.nextTurn = .rxDeliver ∧ s.rxPending = none ∧ t.rxPending = s.wireIn.head?) ∨
    (s.nextTurn = .irqRx ∧ s.irqEnabled = true ∧ t.rxPending = none) := by
  cases step_cases h with
  | passed _ ht => exact .inl (ht ▸ rfl)
  | mainline _ _ _ _ _ _ hp _ ht => exact .inl (ht ▸ hp.keepsBoundary.rxPending)
  | harness _ _ _ _ _ _ hp _ ht => exact .inl (ht ▸ hp.keepsBoundary.rxPending)
  | irqTx _ _ _ _ u hx ht =>
    have hu : u.rxPending = s.rxPending := (exec_keepsBoundary hx).rxPending
    rcases ht with ⟨-, rfl⟩ | ⟨b, -, ⟨-, rfl⟩ | ⟨-, rfl⟩⟩ <;> exact .inl hu
  | irqRx hturn _ hirq _ _ _ _ ht => exact .inr (.inr ⟨hturn, hirq, ht ▸ rfl⟩)
  | txComplete _ _ _ ht => exact .inl (ht ▸ rfl)
  | rxDeliver hturn _ hfree b rest hl ht => exact .inr (.inl ⟨hturn, hfree, by simp [ht, hl]⟩)

/-- Receive delivery takes the line's next byte (60_exceptions.md R196). -/
theorem step_rxDeliver {b : Byte} {rest : List Byte} (hturn : s.nextTurn = .rxDeliver)
    (he : s.enabled .rxDeliver = true) (hl : s.wireIn = b :: rest) :
    step s = .next { s.passTurn with rxPending := some b, wireIn := rest } := by
  rw [step_of_enabled (hturn ▸ he), hturn]
  simp [act, rxDeliverStep, hl]

/-- Settles O51, by what a step does to each event. -/
theorem transceiverEvents : Obligations.TransceiverEvents := by
  refine fun s => ⟨fun hsys hturn hout => ?_, fun b rest hsys hturn hfree hl => ?_,
    fun _ hturn hpend hs => ?_, fun t h => ⟨fun h0 h1 => ?_, fun h1 h0 => ?_, fun hfree b hb => ?_, fun b hb hne => ?_⟩⟩
  · exact step_txComplete hturn (by simp [State.enabled, hsys, Option.isSome_iff_ne_none.mpr hout])
  · exact step_rxDeliver hturn (by simp [State.enabled, hsys, hfree, hl]) hl
  · exact step_of_not_enabled (by simp [hturn, State.enabled, hpend]) hs
  · rcases step_txReadyPending h with hk | ⟨hturn, hout, -⟩ | ⟨-, -, hc⟩
    · simp [h0, h1] at hk
    · exact ⟨hturn, hout⟩
    · simp [h1] at hc
  · rcases step_txReadyPending h with hk | ⟨-, -, hc⟩ | ⟨hturn, hirq, -⟩
    · simp [h0, h1] at hk
    · simp [h0] at hc
    · exact ⟨hturn, hirq⟩
  · rcases step_rxPending h with hk | ⟨hturn, -, hd⟩ | ⟨-, -, hn⟩
    · simp [hb, hfree] at hk
    · exact ⟨hturn, hd ▸ hb⟩
    · simp [hb] at hn
  · rcases step_rxPending h with hk | ⟨-, hfree, -⟩ | ⟨hturn, hirq, hn⟩
    · exact absurd (hk.trans hb) hne
    · simp [hb] at hfree
    · exact ⟨hn, hturn, hirq⟩

end Sys2Proof.Machine

/-! ## A hold with interrupts disabled (70_reset_and_hazards.md R235) -/

namespace Sys2Proof.Machine

variable {s t : State} {w : Word}

/-- Whether a word holds is seen in the block's registers alone (42_facade.md R155). -/
theorem HoldsNow.of_keepsBlock (h : HoldsNow w s) (hk : KeepsBlock s t) : HoldsNow w t where
  unfaulted := hk.faultCode.trans h.unfaulted
  init := hk.initDone.trans h.init
  reason := by rw [hk.txState, hk.txq, hk.rxq]; exact h.reason

/-- With interrupts disabled and MAIN without a step, only the transceiver moves, which touches neither the block nor the
program. -/
theorem step_of_mainline_waits (hsys : s.config = .system) (hirq : s.irqEnabled = false)
    (hmain : s.enabled .mainline = false) (h : step s = .next t) : KeepsBlock s t ∧ t.mainline = s.mainline := by
  obtain ⟨-, ⟨-, rfl⟩ | ⟨he, ha⟩⟩ := step_next h
  · exact ⟨by constructor <;> rfl, rfl⟩
  cases hturn : s.nextTurn with
  | mainline => simp [hturn, hmain] at he
  | irqTx => simp [hturn, State.enabled, hirq] at he
  | irqRx => simp [hturn, State.enabled, hirq] at he
  | irqHarness => simp [hturn, State.enabled, hsys] at he
  | txComplete =>
    rw [hturn] at ha
    obtain rfl := Host.Outcome.next.inj ha
    exact ⟨by constructor <;> rfl, rfl⟩
  | rxDeliver =>
    rw [hturn] at ha
    rcases rxDeliverStep_next ha with ⟨-, rfl⟩ | ⟨b, rest, -, rfl⟩ <;> exact ⟨by constructor <;> rfl, rfl⟩

/-- Settles O58: MAIN waits, so what the command holds for stays. -/
theorem holdWithoutInterruptsNeverEnds : Obligations.HoldWithoutInterruptsNeverEnds := by
  intro s t hsys hirq ⟨w, hw, hhold⟩ h
  have hwaits : s.enabled .mainline = false := by simp [State.enabled, State.mainReady_of_current hw, hhold]
  obtain ⟨hblock, hmain⟩ := step_of_mainline_waits hsys hirq hwaits h
  have hhold' : t.wouldHold w = true := wouldHold_iff.mpr ((wouldHold_iff.mp hhold).of_keepsBlock hblock)
  exact ⟨⟨w, hmain ▸ hw, hhold'⟩, hmain, (step_irqEnabled h).trans hirq, (step_config h).trans hsys⟩

end Sys2Proof.Machine

/-! ## Power-on and REINIT (70_reset_and_hazards.md R230, R231, R236) -/

namespace Sys2Proof.Machine

variable {s t : State}

/-- Power-on lists no slot, so the storage is canonical and in range. -/
theorem Queue.powerOn_stored (topSlot : Nat) : (Queue.powerOn topSlot).Stored where
  canonical := rfl
  inRange _ hc := absurd hc List.not_mem_nil

/-- The queue invariants are asked of an initialised block only, which a power-on state is not. -/
theorem State.powerOn_inv (capRx capTx : Nat) : (State.powerOn capRx capTx).Inv where
  rxqStored := Queue.powerOn_stored capRx
  txqStored := Queue.powerOn_stored capTx
  rxqWf h := absurd h Bool.false_ne_true
  txqWf h := absurd h Bool.false_ne_true
  faultLegal := Nat.zero_le 6
  mainResponses := rfl
  harnessResponses := rfl
  mainContext := rfl

theorem State.powerOn_poweredOn (capRx capTx : Nat) : (State.powerOn capRx capTx).PoweredOn where
  initDone := rfl
  faultCode := rfl
  txShift := rfl
  txReadyPending := rfl
  rxPending := rfl
  wireOut := rfl

/-- Settles O40: `State.reset` is the power-on state of the instance's own capacities. -/
theorem resetMeetsInvariant : Obligations.ResetMeetsInvariant :=
  ⟨fun capRx capTx => ⟨State.powerOn_inv capRx capTx, State.powerOn_poweredOn capRx capTx⟩,
    State.powerOn_inv _ _, State.powerOn_poweredOn _ _⟩

/-- Settles O21: a ready REINIT runs its own rule, which resets the fields of both queues. -/
theorem reinitResultState : Obligations.ReinitResultState := fun _ hr => exec_of_ran hr rfl

/-- REINIT is permitted on P_MAIN only (30_encoding.md R79). -/
theorem State.Ready.context_of_reinit (hr : s.Ready .reinit) : s.context = .main := by
  simpa [permitted] using hr.port

/-- REINIT leaves an unfaulted, initialised block on P_MAIN, where SUBMITBYTE runs its own rule. -/
theorem State.Ready.submitByte_of_ran_reinit (hr : s.Ready .reinit) (h : Ran .reinit s t) (b : Byte) :
    t.Ready (.submitByte b) := by
  obtain rfl := h
  exact ⟨hr.unfaulted, by simp [permitted, hr.context_of_reinit], .inl rfl⟩

/-- Settles O57: REINIT makes the state Idle but keeps the outstanding byte, so SUBMITBYTE takes the Idle path and
overruns the sink. -/
theorem reinitWhileTransmittingOverruns : Obligations.ReinitWhileTransmittingOverruns := by
  intro s b hr hn
  have hready := hr.submitByte_of_ran_reinit rfl b
  exact ⟨_, _, exec_of_ran hr rfl, (submitByteHoldsOrOverruns b _ hready).2 rfl hn, rfl, hr.context_of_reinit, rfl, rfl⟩

end Sys2Proof.Machine
